-- ==== Sys2Proof/Word.lean ====
section
/-! DEFINITION. The words of the machine: 8-bit bytes, 32-bit words, 5-bit register numbers (00_scope.md R5, R8). -/

namespace Sys2Proof

/-- A 32-bit word: every register value, address and the program counter (00_scope.md R8). -/
abbrev Word := BitVec 32

/-- One 8-bit byte of memory (00_scope.md R5). -/
abbrev Byte := BitVec 8

/-- An unsigned 5-bit register number, 0 to 31 (30_encoding.md R81). -/
abbrev RegNum := BitVec 5

/-- The number of byte addresses: the flat space has 2^32 bytes (00_scope.md R5, 10_state.md R32). -/
def addressSpace : Nat := 4294967296

end Sys2Proof
end

