-- ==== Sys2Proof/Machine/Flags.lean ====
section
/-! DEFINITION. The machine has no flags: "comparisons write their outcome, 0 or 1, into a general register" and "branches
compare two registers directly" (10_state.md R29). This file holds the comparisons of 00_scope.md R10. -/

namespace Sys2Proof.Machine

/-- `a <s b` (00_scope.md R10). -/
def ltSigned (a b : Word) : Bool := decide (a.toInt < b.toInt)

/-- `a <u b` (00_scope.md R10). -/
def ltUnsigned (a b : Word) : Bool := decide (a.toNat < b.toNat)

/-- The word a comparison writes: `c ? 0x00000001 : 0x00000000` (40_reg_reg.md R109). -/
def boolWord (c : Bool) : Word := if c then 0x00000001#32 else 0x00000000#32

end Sys2Proof.Machine
end

