-- ==== Sys2Proof/Machine/Operands.lean ====
section
/-! DEFINITION. The operand forms: extensions (00_scope.md R9), the values immediates denote (30_encoding.md R74 to R78),
shift amounts, and the addresses instructions compute. -/

namespace Sys2Proof.Machine

/-- `sext_N(v)` (00_scope.md R9). -/
def sext {n : Nat} (v : BitVec n) : Word := v.signExtend 32

/-- `zext_N(v)` (00_scope.md R9). -/
def zext {n : Nat} (v : BitVec n) : Word := v.setWidth 32

/-- `imm_u = imm20 << 12` (30_encoding.md R77). -/
def immU (imm20 : BitVec 20) : Word := imm20 ++ 0#12

/-- The shift amount a register supplies: its bits [4:0] (40_reg_reg.md R106). -/
def shiftAmount (v : Word) : Nat := (v.extractLsb' 0 5).toNat

/-- The effective address of a load or store: base plus sign-extended displacement, modulo 2^32 (43_loads.md R150,
44_stores.md R160). -/
def effectiveAddress (base : Word) (imm : BitVec 12) : Word := base + sext imm

/-- The target of a branch or JAL, relative to the instruction itself (45_branches.md R170, 46_jumps.md R181). -/
def relativeTarget {n : Nat} (pc : Word) (imm : BitVec n) : Word := pc + sext imm

/-- The target of JALR: the sum with bit 0 cleared (46_jumps.md R182). -/
def registerTarget (base : Word) (imm : BitVec 12) : Word := (base + sext imm) &&& 0xFFFFFFFE#32

/-- The address is a multiple of 4: `a[1:0] = 0` (20_memory.md R48). -/
def wordAligned (a : Word) : Bool := a.extractLsb' 0 2 == 0#2

end Sys2Proof.Machine
end

