-- ==== Sys2Proof/Config.lean ====
section
/-! DEFINITION. What the platform, the loader and the environment fix and the ISA leaves open: the parameters of
00_scope.md R6. No instruction changes them (10_state.md R20). -/

namespace Sys2Proof

/-- A range of byte addresses that hold a byte. `MAPPED` is the union of a platform's regions and `WRITABLE` the
union of its writable ones, so `WRITABLE` is a subset of `MAPPED` (20_memory.md R40). -/
structure Region where
  /-- the lowest address of the range -/
  base : Nat
  /-- the number of bytes in the range -/
  size : Nat
  /-- whether stores may change the range's bytes -/
  writable : Bool
deriving DecidableEq, Repr

/-- `MISALIGNED_POLICY` (20_memory.md R47): there is no third behaviour. -/
inductive MisalignedPolicy where
  /-- a misaligned halfword or word data access raises -/
  | fault
  /-- a misaligned data access is made byte by byte -/
  | bytewise
deriving DecidableEq, Repr

/-- One output event (10_state.md R33, 92_eei_decisions.md D14). -/
inductive Event where
  /-- R192: the 32-bit word of `a1` -/
  | printInt (w : Word)
  /-- R193: the raw bytes before the terminating zero -/
  | printString (bytes : List Byte)
deriving DecidableEq, Repr

/-- What an added service does once it has read (47_system.md R198): what it writes, and whether it ends the run. It
writes no register: "ECALL writes no general register in any service" (R191). -/
inductive ServiceResult where
  /-- it writes these bytes, in order, appends these events to `out`, and then `pc <- pc + 4` -/
  | goesOn (stores : List (Word × Byte)) (events : List Event)
  /-- it ends the run with `Exit` -/
  | exits
  /-- it ends the run with `ExitCode(c)` -/
  | exitsWithCode (c : Word)
  /-- it ends in `AccessFault(load, a)`. DESIGN CHOICE (log entry 9): R198 says nothing of an added service's exceptions,
  and the address is the one the service names, in `MAPPED` or not -/
  | loadFault (a : Word)
deriving DecidableEq, Repr, Inhabited

/-- A service that a platform adds to `SYSCALL_TABLE`, with what it reads (47_system.md R198). What it does with that is
`Config.served`. -/
structure AddedService where
  /-- which of the platform's own services it is -/
  id : Nat
  /-- the registers it reads, in order -/
  readsRegs : List RegNum
  /-- whether it reads memory -/
  readsMem : Bool
deriving DecidableEq, Repr

/-- The services ECALL can offer: the four of 47_system.md R191, and those that a platform adds (R198). -/
inductive Service where
  /-- R192 -/
  | printInteger
  /-- R193 -/
  | printString
  /-- R194 -/
  | exit
  /-- R195 -/
  | exitWithCode
  /-- R198 -/
  | added (d : AddedService)
deriving DecidableEq, Repr

/-- The parameters of 00_scope.md R6 that the step rule reads. -/
structure Platform where
  /-- `MAPPED` and `WRITABLE` -/
  regions : List Region
  /-- `MISALIGNED_POLICY` -/
  misaligned : MisalignedPolicy
  /-- `SYSCALL_TABLE`: the service of each number in `a0`; the first entry for a number counts -/
  syscalls : List (Word × Service)
deriving DecidableEq, Repr

/-- What the loader supplies before the first step (70_reset_and_hazards.md R242). -/
structure Launch where
  /-- the parameters that hold during the whole run -/
  plat : Platform
  /-- `IMAGE`: the loaded bytes; the first entry for an address counts -/
  image : List Host.Cell
  /-- what each byte of `MAPPED` that `IMAGE` does not list happens to hold: "no defined value", so that any function may
  stand here (70_reset_and_hazards.md R241, 92_eei_decisions.md D11) -/
  unloaded : Word → Byte
  /-- `ENTRY_PC` -/
  entryPc : Word
  /-- `INIT_REGS`: the values of `x1` to `x31`, in order -/
  initRegs : Vector Word 31

/-- What an address that memory does not list reads as. For `start` this is only how memory is written down: there each
byte of `MAPPED` has the value that the launch gives it. For the reset state it is a DESIGN CHOICE, unsafe (log entry
3): D11 gives the bytes no defined value. -/
def Config.unlistedByte : Byte := 0x00#8

/-- The default `SYSCALL_TABLE`: the four rows of 47_system.md R191. -/
def Config.defaultSyscalls : List (Word × Service) :=
  [(1#32, .printInteger), (4#32, .printString), (10#32, .exit), (93#32, .exitWithCode)]

/-- The `MAPPED` and `WRITABLE` of the reset state: every address. DESIGN CHOICE, unsafe (log entry 5): D9 gives
no default. -/
def Config.defaultRegions : List Region := [⟨0, addressSpace, true⟩]

/-- The parameters of the reset state; `fault` and the table are the defaults of 00_scope.md R6. -/
def Config.defaultPlatform : Platform := ⟨Config.defaultRegions, .fault, Config.defaultSyscalls⟩

/-- The launch that the reset state is the start of. The entry point is the source's example (DESIGN CHOICE, log
entry 2), the register values are zero (DESIGN CHOICE, log entry 1), nothing is loaded and every
byte holds zero (DESIGN CHOICE, log entry 3). -/
def Config.defaultLaunch : Launch :=
  ⟨Config.defaultPlatform, [], fun _ => Config.unlistedByte, 0x00010000#32, Vector.replicate 31 0#32⟩

/-- What added service `id` does in the given added call of a run, from the registers and the memory that it reads.
47_system.md R198 leaves it to the platform to say, so it has no body: a statement holds for every service
(log entry 9). -/
opaque Config.served (id call : Nat) (regs : List Word) (mem : List Host.Cell) : ServiceResult

/-- `PRINT_FORMAT`: the characters that "print integer" renders its argument as (47_system.md R192, D14). The spec
leaves it open, so it has no body: a statement about printed text holds for every format (log entry 11). -/
opaque Config.printFormat : Word → List Byte

end Sys2Proof
end

