-- ==== Sys2Proof/Machine/Bytes.lean ====
section
/-! DEFINITION. Byte order: a multi-byte value lies with its least-significant byte at the lowest address, for data and
for instruction fetch (20_memory.md R41, R42). -/

namespace Sys2Proof.Machine

/-- Byte i of a word: `v[8i+7:8i]` (20_memory.md R45). -/
def byteOf (v : Word) (i : Nat) : Byte := v.extractLsb' (8 * i) 8

/-- The low n bytes of a word in the order they lie in memory, lowest address first (20_memory.md R41). -/
def bytesLE (n : Nat) (v : Word) : List Byte := (List.range n).map (byteOf v)

/-- The unsigned integer that bytes denote, the first one least significant (20_memory.md R44 step 3). -/
def valueLE : List Byte → Nat
  | [] => 0
  | b :: bs => b.toNat + 256 * valueLE bs

/-- The word that bytes denote (20_memory.md R42). -/
def wordLE (bs : List Byte) : Word := BitVec.ofNat 32 (valueLE bs)

end Sys2Proof.Machine
end

