-- ==== Sys2Proof/Machine/Memory.lean ====
section
/-! DEFINITION. Memory: one byte for every address of `MAPPED` (10_state.md R20, R32, 20_memory.md R40), held as a list of
(address, byte) pairs in one canonical form. -/

namespace Sys2Proof.Machine

/-- The listed bytes of memory; an unlisted address reads as `Config.unlistedByte`. -/
abbrev Memory := List Host.Cell

/-- The byte at an address: that of the first entry for it, else what an unlisted address reads as. -/
def Memory.get (m : Memory) (a : Nat) : Byte :=
  match m with
  | [] => Config.unlistedByte
  | (k, v) :: rest => if k = a then v else Memory.get rest a

/-- Lists a byte at its place in the rising order of addresses. -/
def Memory.insert (m : Memory) (a : Nat) (b : Byte) : Memory :=
  match m with
  | [] => [(a, b)]
  | (k, v) :: rest => if a < k then (a, b) :: (k, v) :: rest else (k, v) :: Memory.insert rest a b

/-- Writes a byte: the old entry for the address goes, and a new one comes unless an unlisted address reads the same. -/
def Memory.put (m : Memory) (a : Nat) (b : Byte) : Memory :=
  let others := m.filter (fun c => c.1 != a)
  if b = Config.unlistedByte then others else Memory.insert others a b

/-- The canonical form from an address on: addresses strictly rising and below 2^32, no entry equal to what an
unlisted address reads as. -/
def Memory.wfFrom (lo : Nat) (m : Memory) : Bool :=
  match m with
  | [] => true
  | (k, v) :: rest =>
    decide (lo ≤ k) && decide (k < addressSpace) && decide (v ≠ Config.unlistedByte) && Memory.wfFrom (k + 1) rest

/-- Memory is in its canonical form, so that equal memories are equal lists. -/
def Memory.wf (m : Memory) : Bool := Memory.wfFrom 0 m

/-- The addresses of an access of n bytes: `(a + i) mod 2^32` for i from 0 (20_memory.md R44, R51). -/
def byteAddrs (a : Word) (n : Nat) : List Word :=
  match n with
  | 0 => []
  | n + 1 => a :: byteAddrs (a + 1#32) n

/-- The n bytes from an address up. -/
def Memory.getBytes (m : Memory) (a : Word) (n : Nat) : List Byte :=
  (byteAddrs a n).map (fun b => Memory.get m b.toNat)

/-- Writes bytes from an address up. -/
def Memory.putBytes (m : Memory) (a : Word) (bs : List Byte) : Memory :=
  match bs with
  | [] => m
  | b :: rest => Memory.putBytes (Memory.put m a.toNat b) (a + 1#32) rest

/-- Whether a region holds an address. -/
def regionHas (r : Region) (a : Nat) : Bool := decide (r.base ≤ a) && decide (a < r.base + r.size)

/-- `a` is in `MAPPED` (20_memory.md R40). -/
def isMapped (p : Platform) (a : Word) : Bool := p.regions.any (fun r => regionHas r a.toNat)

/-- `a` is in `WRITABLE` (20_memory.md R40). -/
def isWritable (p : Platform) (a : Word) : Bool := p.regions.any (fun r => r.writable && regionHas r a.toNat)

/-- Memory with those of the given bytes that lie in `MAPPED` (10_state.md R35): of two entries for an address the first
counts. -/
def Memory.load (p : Platform) (image : List Host.Cell) : Memory :=
  match image with
  | [] => []
  | (k, v) :: rest =>
    if k < addressSpace ∧ isMapped p (BitVec.ofNat 32 k) = true then Memory.put (Memory.load p rest) k v
    else Memory.load p rest

/-- The memory that a run starts with: every byte of `MAPPED` holds what the image lists for it, or else what `unloaded`
gives (10_state.md R35, 70_reset_and_hazards.md R241). -/
def Memory.initial (p : Platform) (image : List Host.Cell) (unloaded : Word → Byte) : Memory :=
  Memory.load p (image ++ (List.range addressSpace).map (fun a => (a, unloaded (BitVec.ofNat 32 a))))

end Sys2Proof.Machine
end

