-- ==== Sys2Proof/Machine/State.lean ====
section
/-! DEFINITION. The state of the machine (10_state.md R20), the reasons a step can stop, and the state after reset. -/

namespace Sys2Proof.Machine

/-- What kind of access an `AccessFault` reports (60_exceptions.md R202). -/
inductive AccessKind where
  | fetch
  | load
  | store
deriving DecidableEq, Repr

/-- What kind of data access an `AddressMisaligned` reports (60_exceptions.md R205). -/
inductive DataKind where
  | load
  | store
deriving DecidableEq, Repr

/-- The exceptions of 60_exceptions.md R208, each with the value it records. -/
inductive Exc where
  /-- R200: a misaligned target, or a misaligned `pc` -/
  | instructionAddressMisaligned (addr : Word)
  /-- R201: a fetched word that is none of the 39 instructions -/
  | illegalInstruction (w : Word)
  /-- R202: a byte outside `MAPPED`, or a stored byte outside `WRITABLE` -/
  | accessFault (kind : AccessKind) (addr : Word)
  /-- R205: a misaligned halfword or word access under the policy `fault` -/
  | addressMisaligned (kind : DataKind) (addr : Word)
  /-- R207: ECALL with a number that is not in `SYSCALL_TABLE` -/
  | unknownEnvironmentCall (n : Word)
deriving DecidableEq, Repr

/-- Why a run ended normally (47_system.md R196). -/
inductive HaltReason where
  /-- R194: ECALL service 10 -/
  | exit
  /-- R195: ECALL service 93, with all 32 bits of `a1` -/
  | exitCode (c : Word)
  /-- R197: EBREAK -/
  | break_
deriving DecidableEq, Repr

/-- The run status (10_state.md R33). -/
inductive Status where
  | running
  | halted (reason : HaltReason)
  | faulted (e : Exc)
deriving DecidableEq, Repr

/-- The state tuple of 10_state.md R20, and the run's parameters. `x0` holds no state. -/
structure State where
  /-- `x1` to `x31`, in order (R21) -/
  regs : Vector Word 31
  /-- the program counter (R25) -/
  pc : Word
  /-- memory (R32) -/
  mem : Memory
  /-- the run status (R33) -/
  status : Status
  /-- the output events so far, oldest first (R33) -/
  out : List Event
  /-- the parameters `MAPPED`, `WRITABLE`, `MISALIGNED_POLICY`, `SYSCALL_TABLE` of 00_scope.md R6: the model's own
  field, which no instruction changes (log entry 4) -/
  plat : Platform
  /-- how many added services have been performed and gone on: the model's own field, to which `Config.served` is
  applied, so that two calls need not do the same (log entry 17) -/
  calls : Nat
deriving DecidableEq, Repr

/-- Why a step stops with a fault. -/
inductive Fault where
  /-- Raised by `step` alone, in a state whose status is Halted or Faulted: "the machine takes no step" there
  (10_state.md R27). Safe: no behaviour of the machine is left out. -/
  | notRunning
deriving DecidableEq, Repr

/-- Why an instruction has no meaning. -/
inductive Refusal where
  /-- Raised by `exec` for an instruction that has no meaning in this model. No arm raises it now. Safe: the model
  stops where the machine goes on. -/
  | notModelled (mnemonic : String)
deriving DecidableEq, Repr

/-- The state right after reset: status Running and no output (10_state.md R35), and the values that log entries 1
(registers), 2 (pc), 3 (memory), 5 (`MAPPED`, `WRITABLE`) and 17 (`calls`) name, since the spec gives none. -/
def State.reset : State :=
  { regs := Vector.replicate 31 0#32
    pc := 0x00010000#32
    mem := []
    status := .running
    out := []
    plat := Config.defaultPlatform
    calls := 0 }

end Sys2Proof.Machine
end

