-- ==== Sys2Proof/Machine/Ops.lean ====
section
/-! DEFINITION. The named operations over registers and memory (00_scope.md R11), taking an exception and ending a run
(60_exceptions.md R203, 47_system.md R196). There is no return from an exception (60_exceptions.md R206). -/

namespace Sys2Proof.Machine

/-- Where `State.regs` holds register r, for r other than 0. -/
def regIndex (r : RegNum) : Fin 31 := ⟨r.toNat - 1, by have := r.isLt; omega⟩

/-- `x[r]` (10_state.md R21): register 0 always reads as zero. -/
def regRead (s : State) (r : RegNum) : Word := if r = 0#5 then 0x00000000#32 else s.regs.get (regIndex r)

/-- `x[r] <- v` (10_state.md R21): a write to register 0 is discarded. -/
def regWrite (s : State) (r : RegNum) (v : Word) : State :=
  if r = 0#5 then s else { s with regs := s.regs.set (regIndex r) v }

/-- `pc <- t` (00_scope.md R11). -/
def setPc (s : State) (t : Word) : State := { s with pc := t }

/-- `pc <- pc + 4` modulo 2^32 (10_state.md R28). -/
def advance (s : State) : State := setPc s (s.pc + 4#32)

/-- TAKING AN EXCEPTION, `raise E(info)` (60_exceptions.md R203): nothing the instruction would have written is
written, `pc` keeps the address of the instruction, and the status becomes `Faulted(E, info)`. No register saves
anything, no mode changes and control goes nowhere (R204). -/
def raise (s : State) (e : Exc) : State := { s with status := .faulted e }

/-- `halt(reason)` (47_system.md R196): the status becomes `Halted(reason)`, `pc` stays. -/
def halt (s : State) (r : HaltReason) : State := { s with status := .halted r }

/-- `out <- out ++ [e]` (47_system.md R192). -/
def emit (s : State) (e : Event) : State := { s with out := s.out ++ [e] }

/-- `out <- out ++ es`, for an added service that prints (47_system.md R198). -/
def emitAll (s : State) (es : List Event) : State := { s with out := s.out ++ es }

/-- One more added service was performed (log entry 17). -/
def countCall (s : State) : State := { s with calls := s.calls + 1 }

/-- Writes bytes to memory, unchecked. -/
def storeBytes (s : State) (a : Word) (bs : List Byte) : State := { s with mem := Memory.putBytes s.mem a bs }

/-- Writes single bytes to memory, in order, unchecked: of two for one address the later stands. -/
def storeCells (s : State) (cells : List (Word × Byte)) : State :=
  { s with mem := cells.foldl (fun m c => Memory.put m c.1.toNat c.2) s.mem }

/-- The access is misaligned and the policy lets it raise: step 1 of 20_memory.md R44 and R45. -/
def misalignedFaults (p : Platform) (a : Word) (n : Nat) : Bool :=
  decide (1 < n) && decide (a.toNat % n ≠ 0) && decide (p.misaligned = .fault)

/-- The first byte address of an access that is not in `MAPPED` (20_memory.md R44 step 2). -/
def firstUnmapped (p : Platform) (a : Word) (n : Nat) : Option Word := (byteAddrs a n).find? (fun b => !isMapped p b)

/-- The first byte address of an access that is not in `WRITABLE` (20_memory.md R45 step 2). -/
def firstUnwritable (p : Platform) (a : Word) (n : Nat) : Option Word :=
  (byteAddrs a n).find? (fun b => !isWritable p b)

/-- `MemRead(a, n)` (20_memory.md R44): the unsigned integer of the n bytes, or an exception. -/
def memRead (s : State) (a : Word) (n : Nat) : Except Exc Nat :=
  if misalignedFaults s.plat a n then .error (.addressMisaligned .load a)
  else
    match firstUnmapped s.plat a n with
    | some b => .error (.accessFault .load b)
    | none => .ok (valueLE (Memory.getBytes s.mem a n))

/-- `MemWrite(a, n, v)` (20_memory.md R45): the low n bytes of v, all checks before all writes. -/
def memWrite (s : State) (a : Word) (n : Nat) (v : Word) : Except Exc State :=
  if misalignedFaults s.plat a n then .error (.addressMisaligned .store a)
  else
    match firstUnwritable s.plat a n with
    | some b => .error (.accessFault .store b)
    | none => .ok (storeBytes s a (bytesLE n v))

/-- `Fetch(a)` (20_memory.md R46): the instruction's four bytes, lowest address first, or an exception. -/
def fetchBytes (s : State) (a : Word) : Except Exc (List Byte) :=
  match firstUnmapped s.plat a 4 with
  | some b => .error (.accessFault .fetch b)
  | none => .ok (Memory.getBytes s.mem a 4)

/-- An instruction that writes one result: `x[rd] <- v; pc <- pc + 4` (40_reg_reg.md R100, 41_reg_imm.md R120,
42_upper_imm.md R140). -/
def writeResult (s : State) (rd : RegNum) (v : Word) : State := advance (regWrite s rd v)

/-- A load of n bytes (43_loads.md R150): `ext` makes the register value of the unsigned integer read. -/
def loadInto (s : State) (rd rs1 : RegNum) (imm : BitVec 12) (n : Nat) (ext : Nat → Word) :
    Host.Outcome State Fault Refusal :=
  match memRead s (effectiveAddress (regRead s rs1) imm) n with
  | .error e => .next (raise s e)
  | .ok v => .next (writeResult s rd (ext v))

/-- A store of n bytes (44_stores.md R160). -/
def storeFrom (s : State) (rs1 rs2 : RegNum) (imm : BitVec 12) (n : Nat) : Host.Outcome State Fault Refusal :=
  match memWrite s (effectiveAddress (regRead s rs1) imm) n (regRead s rs2) with
  | .error e => .next (raise s e)
  | .ok t => .next (advance t)

/-- A conditional branch (45_branches.md R170): a taken branch to a misaligned target raises, a branch not taken
never does. -/
def branchIf (s : State) (taken : Bool) (imm : BitVec 13) : Host.Outcome State Fault Refusal :=
  let t := relativeTarget s.pc imm
  if taken then
    if wordAligned t then .next (setPc s t) else .next (raise s (.instructionAddressMisaligned t))
  else .next (advance s)

/-- A jump to t that links through rd (46_jumps.md R180): both writes or, for a misaligned target, neither. -/
def linkAndJump (s : State) (rd : RegNum) (t : Word) : Host.Outcome State Fault Refusal :=
  if wordAligned t then .next (setPc (regWrite s rd (s.pc + 4#32)) t)
  else .next (raise s (.instructionAddressMisaligned t))

end Sys2Proof.Machine
end

