-- ==== Sys2Proof/Machine/Branches.lean ====
section
/-! DEFINITION. The six conditional branches (45_branches.md). -/

namespace Sys2Proof.Machine

/-- BEQ (R171). -/
def execBeq (rs1 rs2 : RegNum) (imm : BitVec 13) (s : State) : Host.Outcome State Fault Refusal :=
  branchIf s (regRead s rs1 == regRead s rs2) imm

/-- BNE (R172). -/
def execBne (rs1 rs2 : RegNum) (imm : BitVec 13) (s : State) : Host.Outcome State Fault Refusal :=
  branchIf s (regRead s rs1 != regRead s rs2) imm

/-- BLT (R173). -/
def execBlt (rs1 rs2 : RegNum) (imm : BitVec 13) (s : State) : Host.Outcome State Fault Refusal :=
  branchIf s (ltSigned (regRead s rs1) (regRead s rs2)) imm

/-- BGE (R174). -/
def execBge (rs1 rs2 : RegNum) (imm : BitVec 13) (s : State) : Host.Outcome State Fault Refusal :=
  branchIf s (!ltSigned (regRead s rs1) (regRead s rs2)) imm

/-- BLTU (R175). -/
def execBltu (rs1 rs2 : RegNum) (imm : BitVec 13) (s : State) : Host.Outcome State Fault Refusal :=
  branchIf s (ltUnsigned (regRead s rs1) (regRead s rs2)) imm

/-- BGEU (R176). -/
def execBgeu (rs1 rs2 : RegNum) (imm : BitVec 13) (s : State) : Host.Outcome State Fault Refusal :=
  branchIf s (!ltUnsigned (regRead s rs1) (regRead s rs2)) imm

end Sys2Proof.Machine
end

