-- ==== Sys2Proof/Machine/Jumps.lean ====
section
/-! DEFINITION. JAL and JALR (46_jumps.md). The target comes from the state before the instruction, also when
`rd = rs1` (00_scope.md R12). -/

namespace Sys2Proof.Machine

/-- JAL (R181). -/
def execJal (rd : RegNum) (imm : BitVec 21) (s : State) : Host.Outcome State Fault Refusal :=
  linkAndJump s rd (relativeTarget s.pc imm)

/-- JALR (R182). -/
def execJalr (rd rs1 : RegNum) (imm : BitVec 12) (s : State) : Host.Outcome State Fault Refusal :=
  linkAndJump s rd (registerTarget (regRead s rs1) imm)

end Sys2Proof.Machine
end

