-- ==== Sys2Proof/Machine/Loads.lean ====
section
/-! DEFINITION. The five loads (43_loads.md). With `rd = x0` the read and its exceptions still happen (R150). -/

namespace Sys2Proof.Machine

/-- LW (R151). -/
def execLw (rd rs1 : RegNum) (imm : BitVec 12) (s : State) : Host.Outcome State Fault Refusal :=
  loadInto s rd rs1 imm 4 (fun v => BitVec.ofNat 32 v)

/-- LH (R152): `sext_16`. -/
def execLh (rd rs1 : RegNum) (imm : BitVec 12) (s : State) : Host.Outcome State Fault Refusal :=
  loadInto s rd rs1 imm 2 (fun v => sext (BitVec.ofNat 16 v))

/-- LB (R153): `sext_8`. -/
def execLb (rd rs1 : RegNum) (imm : BitVec 12) (s : State) : Host.Outcome State Fault Refusal :=
  loadInto s rd rs1 imm 1 (fun v => sext (BitVec.ofNat 8 v))

/-- LHU (R154): `zext_16`. -/
def execLhu (rd rs1 : RegNum) (imm : BitVec 12) (s : State) : Host.Outcome State Fault Refusal :=
  loadInto s rd rs1 imm 2 (fun v => zext (BitVec.ofNat 16 v))

/-- LBU (R155): `zext_8`. -/
def execLbu (rd rs1 : RegNum) (imm : BitVec 12) (s : State) : Host.Outcome State Fault Refusal :=
  loadInto s rd rs1 imm 1 (fun v => zext (BitVec.ofNat 8 v))

end Sys2Proof.Machine
end

