-- ==== Sys2Proof/Machine/RegImm.lean ====
section
/-! DEFINITION. The nine integer register-immediate instructions (41_reg_imm.md). The six that are no shifts sign-extend
their immediate, the logical ones and SLTIU included (R120). -/

namespace Sys2Proof.Machine

/-- ADDI (R121). -/
def execAddi (rd rs1 : RegNum) (imm : BitVec 12) (s : State) : Host.Outcome State Fault Refusal :=
  .next (writeResult s rd (regRead s rs1 + sext imm))

/-- ANDI (R122). -/
def execAndi (rd rs1 : RegNum) (imm : BitVec 12) (s : State) : Host.Outcome State Fault Refusal :=
  .next (writeResult s rd (regRead s rs1 &&& sext imm))

/-- ORI (R123). -/
def execOri (rd rs1 : RegNum) (imm : BitVec 12) (s : State) : Host.Outcome State Fault Refusal :=
  .next (writeResult s rd (regRead s rs1 ||| sext imm))

/-- XORI (R124). -/
def execXori (rd rs1 : RegNum) (imm : BitVec 12) (s : State) : Host.Outcome State Fault Refusal :=
  .next (writeResult s rd (regRead s rs1 ^^^ sext imm))

/-- SLTI (R125). -/
def execSlti (rd rs1 : RegNum) (imm : BitVec 12) (s : State) : Host.Outcome State Fault Refusal :=
  .next (writeResult s rd (boolWord (ltSigned (regRead s rs1) (sext imm))))

/-- SLTIU (R126): the immediate is sign-extended first, then read as unsigned. -/
def execSltiu (rd rs1 : RegNum) (imm : BitVec 12) (s : State) : Host.Outcome State Fault Refusal :=
  .next (writeResult s rd (boolWord (ltUnsigned (regRead s rs1) (sext imm))))

/-- SLLI (R127). -/
def execSlli (rd rs1 : RegNum) (shamt : BitVec 5) (s : State) : Host.Outcome State Fault Refusal :=
  .next (writeResult s rd (regRead s rs1 <<< shamt.toNat))

/-- SRLI (R128). -/
def execSrli (rd rs1 : RegNum) (shamt : BitVec 5) (s : State) : Host.Outcome State Fault Refusal :=
  .next (writeResult s rd (regRead s rs1 >>> shamt.toNat))

/-- SRAI (R129). -/
def execSrai (rd rs1 : RegNum) (shamt : BitVec 5) (s : State) : Host.Outcome State Fault Refusal :=
  .next (writeResult s rd ((regRead s rs1).sshiftRight shamt.toNat))

end Sys2Proof.Machine
end

