-- ==== Sys2Proof/Machine/RegReg.lean ====
section
/-! DEFINITION. The ten integer register-register instructions (40_reg_reg.md). Every operand is read from the state
before the instruction (00_scope.md R12). -/

namespace Sys2Proof.Machine

/-- ADD (R101). -/
def execAdd (rd rs1 rs2 : RegNum) (s : State) : Host.Outcome State Fault Refusal :=
  .next (writeResult s rd (regRead s rs1 + regRead s rs2))

/-- SUB (R102). -/
def execSub (rd rs1 rs2 : RegNum) (s : State) : Host.Outcome State Fault Refusal :=
  .next (writeResult s rd (regRead s rs1 - regRead s rs2))

/-- AND (R103). -/
def execAnd (rd rs1 rs2 : RegNum) (s : State) : Host.Outcome State Fault Refusal :=
  .next (writeResult s rd (regRead s rs1 &&& regRead s rs2))

/-- OR (R104). -/
def execOr (rd rs1 rs2 : RegNum) (s : State) : Host.Outcome State Fault Refusal :=
  .next (writeResult s rd (regRead s rs1 ||| regRead s rs2))

/-- XOR (R105). -/
def execXor (rd rs1 rs2 : RegNum) (s : State) : Host.Outcome State Fault Refusal :=
  .next (writeResult s rd (regRead s rs1 ^^^ regRead s rs2))

/-- SLL (R106): only bits [4:0] of `x[rs2]` count. -/
def execSll (rd rs1 rs2 : RegNum) (s : State) : Host.Outcome State Fault Refusal :=
  .next (writeResult s rd (regRead s rs1 <<< shiftAmount (regRead s rs2)))

/-- SRL (R107). -/
def execSrl (rd rs1 rs2 : RegNum) (s : State) : Host.Outcome State Fault Refusal :=
  .next (writeResult s rd (regRead s rs1 >>> shiftAmount (regRead s rs2)))

/-- SRA (R108). -/
def execSra (rd rs1 rs2 : RegNum) (s : State) : Host.Outcome State Fault Refusal :=
  .next (writeResult s rd ((regRead s rs1).sshiftRight (shiftAmount (regRead s rs2))))

/-- SLT (R109). -/
def execSlt (rd rs1 rs2 : RegNum) (s : State) : Host.Outcome State Fault Refusal :=
  .next (writeResult s rd (boolWord (ltSigned (regRead s rs1) (regRead s rs2))))

/-- SLTU (R110). -/
def execSltu (rd rs1 rs2 : RegNum) (s : State) : Host.Outcome State Fault Refusal :=
  .next (writeResult s rd (boolWord (ltUnsigned (regRead s rs1) (regRead s rs2))))

end Sys2Proof.Machine
end

