-- ==== Sys2Proof/Machine/Stores.lean ====
section
/-! DEFINITION. The three stores (44_stores.md). -/

namespace Sys2Proof.Machine

/-- SW (R161). -/
def execSw (rs1 rs2 : RegNum) (imm : BitVec 12) (s : State) : Host.Outcome State Fault Refusal :=
  storeFrom s rs1 rs2 imm 4

/-- SH (R162). -/
def execSh (rs1 rs2 : RegNum) (imm : BitVec 12) (s : State) : Host.Outcome State Fault Refusal :=
  storeFrom s rs1 rs2 imm 2

/-- SB (R163). -/
def execSb (rs1 rs2 : RegNum) (imm : BitVec 12) (s : State) : Host.Outcome State Fault Refusal :=
  storeFrom s rs1 rs2 imm 1

end Sys2Proof.Machine
end

