-- ==== Sys2Proof/Machine/System.lean ====
section
/-! DEFINITION. ECALL and EBREAK, and the execution environment that serves ECALL in the same step (47_system.md). -/

namespace Sys2Proof.Machine

/-- `a0`, the service number (47_system.md R191). -/
def regA0 : RegNum := 10#5

/-- `a1`, the first argument (47_system.md R191). -/
def regA1 : RegNum := 11#5

/-- The service of a number: the first entry for it in `SYSCALL_TABLE`. The whole 32-bit number is compared (R191). -/
def lookupService (table : List (Word × Service)) (n : Word) : Option Service :=
  match table with
  | [] => none
  | (k, v) :: rest => if k = n then some v else lookupService rest n

/-- The bytes of the string at p, from address a on, before the first zero byte (R193). `bytesLeft` bounds the bytes
still unread: when all 2^32 addresses have been read and none held zero, the read raises `AccessFault(load, p)`. -/
def readString (s : State) (p : Word) (bytesLeft : Nat) (a : Word) : Except Exc (List Byte) :=
  match bytesLeft with
  | 0 => .error (.accessFault .load p)
  | left + 1 =>
    match memRead s a 1 with
    | .error e => .error e
    | .ok v =>
      if v = 0 then .ok []
      else
        match readString s p left (a + 1#32) with
        | .error e => .error e
        | .ok rest => .ok (BitVec.ofNat 8 v :: rest)

/-- "print integer" (R192). -/
def servicePrintInteger (s : State) : State := advance (emit s (.printInt (regRead s regA1)))

/-- "print string" (R193). -/
def servicePrintString (s : State) : State :=
  match readString s (regRead s regA1) addressSpace (regRead s regA1) with
  | .error e => raise s e
  | .ok bytes => advance (emit s (.printString bytes))

/-- "exit" (R194). -/
def serviceExit (s : State) : State := halt s .exit

/-- "exit (Linux)" (R195): all 32 bits of the code are kept. -/
def serviceExitWithCode (s : State) : State := halt s (.exitCode (regRead s regA1))

/-- The memory that an added service reads: the listed bytes of `MAPPED`, or nothing. -/
def memoryFor (s : State) (d : AddedService) : List Host.Cell :=
  if d.readsMem then s.mem.filter (fun c => isMapped s.plat (BitVec.ofNat 32 c.1)) else []

/-- What an added service that was asked for in this state is to do. -/
def resultOf (s : State) (d : AddedService) : ServiceResult :=
  Config.served d.id s.calls (d.readsRegs.map (regRead s)) (memoryFor s d)

/-- An added service writes bytes, prints and goes on. -/
def completeService (s : State) (stores : List (Word × Byte)) (events : List Event) : State :=
  advance (countCall (emitAll (storeCells s stores) events))

/-- What comes of an added service's result (R198). Every byte that it is to write is checked before any is written, as
for a store (20_memory.md R45); the first that may not be written raises. DESIGN CHOICE (log entry 9): a load fault that
the service names is raised as named, whether or not its address is in `MAPPED`. -/
def performResult (s : State) (r : ServiceResult) : State :=
  match r with
  | .goesOn stores events =>
    match stores.find? (fun c => !isWritable s.plat c.1) with
    | some c => raise s (.accessFault .store c.1)
    | none => completeService s stores events
  | .exits => halt s .exit
  | .exitsWithCode c => halt s (.exitCode c)
  | .loadFault a => raise s (.accessFault .load a)

/-- An added service (R198). -/
def serviceAdded (s : State) (d : AddedService) : State := performResult s (resultOf s d)

/-- What a service does. -/
def serve (s : State) (v : Service) : State :=
  match v with
  | .printInteger => servicePrintInteger s
  | .printString => servicePrintString s
  | .exit => serviceExit s
  | .exitWithCode => serviceExitWithCode s
  | .added d => serviceAdded s d

/-- ECALL (R191, R198). -/
def execEcall (s : State) : Host.Outcome State Fault Refusal :=
  match lookupService s.plat.syscalls (regRead s regA0) with
  | none => .next (raise s (.unknownEnvironmentCall (regRead s regA0)))
  | some v => .next (serve s v)

/-- EBREAK (R197). -/
def execEbreak (s : State) : Host.Outcome State Fault Refusal := .next (halt s .break_)

/-- The characters that the environment has printed: an integer under the open `PRINT_FORMAT` (R192, D14). DESIGN CHOICE
(log entry 11), since the spec names no character encoding (R193) and no separator: a string is its raw bytes, one
character each, and nothing stands before, between or after the events. No meaning and no statement uses this. -/
def printedText (out : List Event) : List Byte :=
  match out with
  | [] => []
  | .printInt w :: rest => Config.printFormat w ++ printedText rest
  | .printString bytes :: rest => bytes ++ printedText rest

end Sys2Proof.Machine
end

