-- ==== Sys2Proof/Machine/UpperImm.lean ====
section
/-! DEFINITION. LUI and AUIPC (42_upper_imm.md). -/

namespace Sys2Proof.Machine

/-- LUI (R141). -/
def execLui (rd : RegNum) (imm20 : BitVec 20) (s : State) : Host.Outcome State Fault Refusal :=
  .next (writeResult s rd (immU imm20))

/-- AUIPC (R142): the `pc` added is the address of the AUIPC itself. -/
def execAuipc (rd : RegNum) (imm20 : BitVec 20) (s : State) : Host.Outcome State Fault Refusal :=
  .next (writeResult s rd (s.pc + immU imm20))

end Sys2Proof.Machine
end

