-- ==== Sys2Proof/Syntax.lean ====
section
/-! DEFINITION. The 39 instructions of 30_encoding.md R83, one constructor per row of the opcode table, in the table's
order. Operands are those of the rules R101 to R197: register numbers (R81), the 12-bit I and S immediates (R74,
R75), the 13-bit B and 21-bit J immediates with their implied bit 0 (R76, R78), the 20-bit field of the U-type
(R77) and the 5-bit shift amount (R73). -/

namespace Sys2Proof

/-- One instruction. -/
inductive Instr where
  -- integer register-register, R-type (40_reg_reg.md)
  | add (rd rs1 rs2 : RegNum)
  | sub (rd rs1 rs2 : RegNum)
  | and (rd rs1 rs2 : RegNum)
  | or (rd rs1 rs2 : RegNum)
  | xor (rd rs1 rs2 : RegNum)
  | sll (rd rs1 rs2 : RegNum)
  | srl (rd rs1 rs2 : RegNum)
  | sra (rd rs1 rs2 : RegNum)
  | slt (rd rs1 rs2 : RegNum)
  | sltu (rd rs1 rs2 : RegNum)
  -- integer register-immediate, I-type (41_reg_imm.md)
  | addi (rd rs1 : RegNum) (imm : BitVec 12)
  | andi (rd rs1 : RegNum) (imm : BitVec 12)
  | ori (rd rs1 : RegNum) (imm : BitVec 12)
  | xori (rd rs1 : RegNum) (imm : BitVec 12)
  | slti (rd rs1 : RegNum) (imm : BitVec 12)
  | sltiu (rd rs1 : RegNum) (imm : BitVec 12)
  | slli (rd rs1 : RegNum) (shamt : BitVec 5)
  | srli (rd rs1 : RegNum) (shamt : BitVec 5)
  | srai (rd rs1 : RegNum) (shamt : BitVec 5)
  -- upper immediate, U-type (42_upper_imm.md)
  | lui (rd : RegNum) (imm20 : BitVec 20)
  | auipc (rd : RegNum) (imm20 : BitVec 20)
  -- loads, I-type (43_loads.md)
  | lw (rd rs1 : RegNum) (imm : BitVec 12)
  | lh (rd rs1 : RegNum) (imm : BitVec 12)
  | lb (rd rs1 : RegNum) (imm : BitVec 12)
  | lhu (rd rs1 : RegNum) (imm : BitVec 12)
  | lbu (rd rs1 : RegNum) (imm : BitVec 12)
  -- stores, S-type (44_stores.md)
  | sw (rs1 rs2 : RegNum) (imm : BitVec 12)
  | sh (rs1 rs2 : RegNum) (imm : BitVec 12)
  | sb (rs1 rs2 : RegNum) (imm : BitVec 12)
  -- conditional branches, B-type (45_branches.md)
  | beq (rs1 rs2 : RegNum) (imm : BitVec 13)
  | bne (rs1 rs2 : RegNum) (imm : BitVec 13)
  | blt (rs1 rs2 : RegNum) (imm : BitVec 13)
  | bge (rs1 rs2 : RegNum) (imm : BitVec 13)
  | bltu (rs1 rs2 : RegNum) (imm : BitVec 13)
  | bgeu (rs1 rs2 : RegNum) (imm : BitVec 13)
  -- jumps (46_jumps.md)
  | jal (rd : RegNum) (imm : BitVec 21)
  | jalr (rd rs1 : RegNum) (imm : BitVec 12)
  -- system (47_system.md)
  | ecall
  | ebreak
deriving DecidableEq, Repr

end Sys2Proof
end

