-- ==== Sys2Proof/WellFormed.lean ====
section
/-! DEFINITION. Which terms of `Instr` are instructions: a branch or JAL immediate has bit 0 equal to 0, because "the
hardware never stores bit 0 of these immediates" (30_encoding.md R76, R78, R79). Every other operand is legal at
every value of its width (R81, 40_reg_reg.md R100, 41_reg_imm.md R120, 42_upper_imm.md R140). -/

namespace Sys2Proof

/-- The implied zero of a B-type immediate (30_encoding.md R76). -/
def immBOk (imm : BitVec 13) : Bool := !imm.getLsbD 0

/-- The implied zero of a J-type immediate (30_encoding.md R78). -/
def immJOk (imm : BitVec 21) : Bool := !imm.getLsbD 0

/-- Whether a term has an encoding (30_encoding.md R80). -/
def wellFormed (i : Instr) : Bool :=
  match i with
  | .add _ _ _ | .sub _ _ _ | .and _ _ _ | .or _ _ _ | .xor _ _ _ | .sll _ _ _ | .srl _ _ _ | .sra _ _ _
  | .slt _ _ _ | .sltu _ _ _ => true
  | .addi _ _ _ | .andi _ _ _ | .ori _ _ _ | .xori _ _ _ | .slti _ _ _ | .sltiu _ _ _ | .slli _ _ _
  | .srli _ _ _ | .srai _ _ _ => true
  | .lui _ _ | .auipc _ _ => true
  | .lw _ _ _ | .lh _ _ _ | .lb _ _ _ | .lhu _ _ _ | .lbu _ _ _ => true
  | .sw _ _ _ | .sh _ _ _ | .sb _ _ _ => true
  | .beq _ _ imm | .bne _ _ imm | .blt _ _ imm | .bge _ _ imm | .bltu _ _ imm | .bgeu _ _ imm => immBOk imm
  | .jal _ imm => immJOk imm
  | .jalr _ _ _ => true
  | .ecall | .ebreak => true

end Sys2Proof
end

