-- ==== Sys2Proof/Decode.lean ====
section
/-! DEFINITION. The decoder, total on any bytes and rejecting by name, and after it the encoder, both written from the
fields and the opcode table of 30_encoding.md (R70 to R84). -/

namespace Sys2Proof

/-- Why bytes are no instruction: the cases of 30_encoding.md R84, and too few bytes. -/
inductive Reject where
  /-- case (a): none of the ten opcodes -/
  | opcode
  /-- case (b): opcode 0x33 with an unlisted pair of funct3 and funct7 -/
  | regRegFunct
  /-- case (c): a shift by immediate with an unlisted funct7 -/
  | shiftFunct7
  /-- case (d): opcode 0x03 with an unlisted funct3 -/
  | loadFunct3
  /-- case (e): opcode 0x23 with an unlisted funct3 -/
  | storeFunct3
  /-- case (f): opcode 0x63 with an unlisted funct3 -/
  | branchFunct3
  /-- case (g): opcode 0x67 with funct3 other than 0 -/
  | jalrFunct3
  /-- case (h): opcode 0x73 and neither the ECALL nor the EBREAK word -/
  | system
  /-- fewer than the four bytes of an instruction (30_encoding.md R86) -/
  | truncated
deriving DecidableEq, Repr

/-- `opcode = w[6:0]` (30_encoding.md R72). -/
def opcodeOf (w : Word) : BitVec 7 := w.extractLsb' 0 7
/-- `rd = w[11:7]` (R72). -/
def rdOf (w : Word) : RegNum := w.extractLsb' 7 5
/-- `funct3 = w[14:12]` (R72). -/
def funct3Of (w : Word) : BitVec 3 := w.extractLsb' 12 3
/-- `rs1 = w[19:15]` (R72). -/
def rs1Of (w : Word) : RegNum := w.extractLsb' 15 5
/-- `rs2 = w[24:20]` (R72). -/
def rs2Of (w : Word) : RegNum := w.extractLsb' 20 5
/-- `shamt = w[24:20]` of the I-type shift form (30_encoding.md R73). -/
def shamtOf (w : Word) : BitVec 5 := w.extractLsb' 20 5
/-- `funct7 = w[31:25]` (R72). -/
def funct7Of (w : Word) : BitVec 7 := w.extractLsb' 25 7
/-- `imm_i = w[31:20]` (30_encoding.md R74). -/
def immIOf (w : Word) : BitVec 12 := w.extractLsb' 20 12
/-- The two pieces of `imm_s`, `w[31:25]` above `w[11:7]` (30_encoding.md R75). -/
def immSOf (w : Word) : BitVec 12 := w.extractLsb' 25 7 ++ w.extractLsb' 7 5
/-- The pieces of `imm_b`: `w[31]`, `w[7]`, `w[30:25]`, `w[11:8]` and the implied 0 (30_encoding.md R76). -/
def immBOf (w : Word) : BitVec 13 :=
  w.extractLsb' 31 1 ++ w.extractLsb' 7 1 ++ w.extractLsb' 25 6 ++ w.extractLsb' 8 4 ++ 0#1
/-- `imm20 = w[31:12]` (30_encoding.md R77). -/
def imm20Of (w : Word) : BitVec 20 := w.extractLsb' 12 20
/-- The pieces of `imm_j`: `w[31]`, `w[19:12]`, `w[20]`, `w[30:21]` and the implied 0 (30_encoding.md R78). -/
def immJOf (w : Word) : BitVec 21 :=
  w.extractLsb' 31 1 ++ w.extractLsb' 12 8 ++ w.extractLsb' 20 1 ++ w.extractLsb' 21 10 ++ 0#1

/-- Opcode 0x33: the ten (funct3, funct7) pairs of 30_encoding.md R83, case (b) of R84 otherwise. -/
def decodeRegReg (w : Word) : Except Reject Instr :=
  match funct7Of w, funct3Of w with
  | 0x00#7, 0x0#3 => .ok (.add (rdOf w) (rs1Of w) (rs2Of w))
  | 0x20#7, 0x0#3 => .ok (.sub (rdOf w) (rs1Of w) (rs2Of w))
  | 0x00#7, 0x7#3 => .ok (.and (rdOf w) (rs1Of w) (rs2Of w))
  | 0x00#7, 0x6#3 => .ok (.or (rdOf w) (rs1Of w) (rs2Of w))
  | 0x00#7, 0x4#3 => .ok (.xor (rdOf w) (rs1Of w) (rs2Of w))
  | 0x00#7, 0x1#3 => .ok (.sll (rdOf w) (rs1Of w) (rs2Of w))
  | 0x00#7, 0x5#3 => .ok (.srl (rdOf w) (rs1Of w) (rs2Of w))
  | 0x20#7, 0x5#3 => .ok (.sra (rdOf w) (rs1Of w) (rs2Of w))
  | 0x00#7, 0x2#3 => .ok (.slt (rdOf w) (rs1Of w) (rs2Of w))
  | 0x00#7, 0x3#3 => .ok (.sltu (rdOf w) (rs1Of w) (rs2Of w))
  | _, _ => .error .regRegFunct

/-- Opcode 0x13: all eight funct3 values; the shifts also need their funct7 (30_encoding.md R73, R83, R84 c). -/
def decodeRegImm (w : Word) : Except Reject Instr :=
  match funct3Of w with
  | 0x0#3 => .ok (.addi (rdOf w) (rs1Of w) (immIOf w))
  | 0x7#3 => .ok (.andi (rdOf w) (rs1Of w) (immIOf w))
  | 0x6#3 => .ok (.ori (rdOf w) (rs1Of w) (immIOf w))
  | 0x4#3 => .ok (.xori (rdOf w) (rs1Of w) (immIOf w))
  | 0x2#3 => .ok (.slti (rdOf w) (rs1Of w) (immIOf w))
  | 0x3#3 => .ok (.sltiu (rdOf w) (rs1Of w) (immIOf w))
  | 0x1#3 =>
    if funct7Of w = 0x00#7 then .ok (.slli (rdOf w) (rs1Of w) (shamtOf w)) else .error .shiftFunct7
  | _ =>
    if funct7Of w = 0x00#7 then .ok (.srli (rdOf w) (rs1Of w) (shamtOf w))
    else if funct7Of w = 0x20#7 then .ok (.srai (rdOf w) (rs1Of w) (shamtOf w))
    else .error .shiftFunct7

/-- Opcode 0x03 (30_encoding.md R83, R84 d). -/
def decodeLoad (w : Word) : Except Reject Instr :=
  match funct3Of w with
  | 0x2#3 => .ok (.lw (rdOf w) (rs1Of w) (immIOf w))
  | 0x1#3 => .ok (.lh (rdOf w) (rs1Of w) (immIOf w))
  | 0x0#3 => .ok (.lb (rdOf w) (rs1Of w) (immIOf w))
  | 0x5#3 => .ok (.lhu (rdOf w) (rs1Of w) (immIOf w))
  | 0x4#3 => .ok (.lbu (rdOf w) (rs1Of w) (immIOf w))
  | _ => .error .loadFunct3

/-- Opcode 0x23 (30_encoding.md R83, R84 e). -/
def decodeStore (w : Word) : Except Reject Instr :=
  match funct3Of w with
  | 0x2#3 => .ok (.sw (rs1Of w) (rs2Of w) (immSOf w))
  | 0x1#3 => .ok (.sh (rs1Of w) (rs2Of w) (immSOf w))
  | 0x0#3 => .ok (.sb (rs1Of w) (rs2Of w) (immSOf w))
  | _ => .error .storeFunct3

/-- Opcode 0x63 (30_encoding.md R83, R84 f). -/
def decodeBranch (w : Word) : Except Reject Instr :=
  match funct3Of w with
  | 0x0#3 => .ok (.beq (rs1Of w) (rs2Of w) (immBOf w))
  | 0x1#3 => .ok (.bne (rs1Of w) (rs2Of w) (immBOf w))
  | 0x4#3 => .ok (.blt (rs1Of w) (rs2Of w) (immBOf w))
  | 0x5#3 => .ok (.bge (rs1Of w) (rs2Of w) (immBOf w))
  | 0x6#3 => .ok (.bltu (rs1Of w) (rs2Of w) (immBOf w))
  | 0x7#3 => .ok (.bgeu (rs1Of w) (rs2Of w) (immBOf w))
  | _ => .error .branchFunct3

/-- Opcode 0x67 (30_encoding.md R83, R84 g). -/
def decodeJalr (w : Word) : Except Reject Instr :=
  if funct3Of w = 0x0#3 then .ok (.jalr (rdOf w) (rs1Of w) (immIOf w)) else .error .jalrFunct3

/-- Opcode 0x73: exactly two words (30_encoding.md R83, R84 h). -/
def decodeSystem (w : Word) : Except Reject Instr :=
  if w = 0x00000073#32 then .ok .ecall
  else if w = 0x00100073#32 then .ok .ebreak
  else .error .system

/-- The instruction of a 32-bit word, or why it is illegal (30_encoding.md R82 to R84). -/
def decodeWord (w : Word) : Except Reject Instr :=
  match opcodeOf w with
  | 0x33#7 => decodeRegReg w
  | 0x13#7 => decodeRegImm w
  | 0x03#7 => decodeLoad w
  | 0x23#7 => decodeStore w
  | 0x63#7 => decodeBranch w
  | 0x6F#7 => .ok (.jal (rdOf w) (immJOf w))
  | 0x67#7 => decodeJalr w
  | 0x37#7 => .ok (.lui (rdOf w) (imm20Of w))
  | 0x17#7 => .ok (.auipc (rdOf w) (imm20Of w))
  | 0x73#7 => decodeSystem w
  | _ => .error .opcode

/-- The instruction that bytes begin with, lowest address first, and the bytes after it (20_memory.md R42: an
instruction is four little-endian bytes). -/
def decode (bytes : List Byte) : Except Reject (Instr × List Byte) :=
  match bytes with
  | b0 :: b1 :: b2 :: b3 :: rest =>
    match decodeWord (Machine.wordLE [b0, b1, b2, b3]) with
    | .ok i => .ok (i, rest)
    | .error e => .error e
  | _ => .error .truncated

/-- An R-type word (30_encoding.md R70). -/
def encodeR (funct7 : BitVec 7) (rs2 rs1 : RegNum) (funct3 : BitVec 3) (rd : RegNum) (opcode : BitVec 7) : Word :=
  funct7 ++ rs2 ++ rs1 ++ funct3 ++ rd ++ opcode

/-- An I-type word (30_encoding.md R70, R80). -/
def encodeI (imm : BitVec 12) (rs1 : RegNum) (funct3 : BitVec 3) (rd : RegNum) (opcode : BitVec 7) : Word :=
  imm ++ rs1 ++ funct3 ++ rd ++ opcode

/-- An S-type word (30_encoding.md R70, R80). -/
def encodeS (imm : BitVec 12) (rs2 rs1 : RegNum) (funct3 : BitVec 3) (opcode : BitVec 7) : Word :=
  imm.extractLsb' 5 7 ++ rs2 ++ rs1 ++ funct3 ++ imm.extractLsb' 0 5 ++ opcode

/-- A B-type word: `w[31] = imm[12]`, `w[30:25] = imm[10:5]`, `w[11:8] = imm[4:1]`, `w[7] = imm[11]`
(30_encoding.md R70, R80). -/
def encodeB (imm : BitVec 13) (rs2 rs1 : RegNum) (funct3 : BitVec 3) (opcode : BitVec 7) : Word :=
  imm.extractLsb' 12 1 ++ imm.extractLsb' 5 6 ++ rs2 ++ rs1 ++ funct3 ++ imm.extractLsb' 1 4 ++
    imm.extractLsb' 11 1 ++ opcode

/-- A U-type word (30_encoding.md R70, R80). -/
def encodeU (imm20 : BitVec 20) (rd : RegNum) (opcode : BitVec 7) : Word := imm20 ++ rd ++ opcode

/-- A J-type word: `w[31] = imm[20]`, `w[30:21] = imm[10:1]`, `w[20] = imm[11]`, `w[19:12] = imm[19:12]`
(30_encoding.md R70, R80). -/
def encodeJ (imm : BitVec 21) (rd : RegNum) (opcode : BitVec 7) : Word :=
  imm.extractLsb' 20 1 ++ imm.extractLsb' 1 10 ++ imm.extractLsb' 11 1 ++ imm.extractLsb' 12 8 ++ rd ++ opcode

/-- The word of a well-formed instruction (30_encoding.md R70, R80, R83). -/
def encode (i : Instr) : Word :=
  match i with
  | .add rd rs1 rs2 => encodeR 0x00#7 rs2 rs1 0x0#3 rd 0x33#7
  | .sub rd rs1 rs2 => encodeR 0x20#7 rs2 rs1 0x0#3 rd 0x33#7
  | .and rd rs1 rs2 => encodeR 0x00#7 rs2 rs1 0x7#3 rd 0x33#7
  | .or rd rs1 rs2 => encodeR 0x00#7 rs2 rs1 0x6#3 rd 0x33#7
  | .xor rd rs1 rs2 => encodeR 0x00#7 rs2 rs1 0x4#3 rd 0x33#7
  | .sll rd rs1 rs2 => encodeR 0x00#7 rs2 rs1 0x1#3 rd 0x33#7
  | .srl rd rs1 rs2 => encodeR 0x00#7 rs2 rs1 0x5#3 rd 0x33#7
  | .sra rd rs1 rs2 => encodeR 0x20#7 rs2 rs1 0x5#3 rd 0x33#7
  | .slt rd rs1 rs2 => encodeR 0x00#7 rs2 rs1 0x2#3 rd 0x33#7
  | .sltu rd rs1 rs2 => encodeR 0x00#7 rs2 rs1 0x3#3 rd 0x33#7
  | .addi rd rs1 imm => encodeI imm rs1 0x0#3 rd 0x13#7
  | .andi rd rs1 imm => encodeI imm rs1 0x7#3 rd 0x13#7
  | .ori rd rs1 imm => encodeI imm rs1 0x6#3 rd 0x13#7
  | .xori rd rs1 imm => encodeI imm rs1 0x4#3 rd 0x13#7
  | .slti rd rs1 imm => encodeI imm rs1 0x2#3 rd 0x13#7
  | .sltiu rd rs1 imm => encodeI imm rs1 0x3#3 rd 0x13#7
  | .slli rd rs1 shamt => encodeR 0x00#7 shamt rs1 0x1#3 rd 0x13#7
  | .srli rd rs1 shamt => encodeR 0x00#7 shamt rs1 0x5#3 rd 0x13#7
  | .srai rd rs1 shamt => encodeR 0x20#7 shamt rs1 0x5#3 rd 0x13#7
  | .lui rd imm20 => encodeU imm20 rd 0x37#7
  | .auipc rd imm20 => encodeU imm20 rd 0x17#7
  | .lw rd rs1 imm => encodeI imm rs1 0x2#3 rd 0x03#7
  | .lh rd rs1 imm => encodeI imm rs1 0x1#3 rd 0x03#7
  | .lb rd rs1 imm => encodeI imm rs1 0x0#3 rd 0x03#7
  | .lhu rd rs1 imm => encodeI imm rs1 0x5#3 rd 0x03#7
  | .lbu rd rs1 imm => encodeI imm rs1 0x4#3 rd 0x03#7
  | .sw rs1 rs2 imm => encodeS imm rs2 rs1 0x2#3 0x23#7
  | .sh rs1 rs2 imm => encodeS imm rs2 rs1 0x1#3 0x23#7
  | .sb rs1 rs2 imm => encodeS imm rs2 rs1 0x0#3 0x23#7
  | .beq rs1 rs2 imm => encodeB imm rs2 rs1 0x0#3 0x63#7
  | .bne rs1 rs2 imm => encodeB imm rs2 rs1 0x1#3 0x63#7
  | .blt rs1 rs2 imm => encodeB imm rs2 rs1 0x4#3 0x63#7
  | .bge rs1 rs2 imm => encodeB imm rs2 rs1 0x5#3 0x63#7
  | .bltu rs1 rs2 imm => encodeB imm rs2 rs1 0x6#3 0x63#7
  | .bgeu rs1 rs2 imm => encodeB imm rs2 rs1 0x7#3 0x63#7
  | .jal rd imm => encodeJ imm rd 0x6F#7
  | .jalr rd rs1 imm => encodeI imm rs1 0x0#3 rd 0x67#7
  | .ecall => encodeI 0x000#12 0#5 0x0#3 0#5 0x73#7
  | .ebreak => encodeI 0x001#12 0#5 0x0#3 0#5 0x73#7

/-- The four bytes of a well-formed instruction, lowest address first (20_memory.md R42). -/
def encodeBytes (i : Instr) : List Byte := Machine.bytesLE 4 (encode i)

/-- The word whose low `nbits` bits are those of `w` and whose other bits are 0. -/
def tableWord (nbits w : Nat) : Word := BitVec.ofNat 32 (w % 2 ^ nbits)

/-- What the decoder reads from the four little-endian bytes of an instruction whose bits are `w` (bit 0 the least
significant), of which the table gives `nbits`. -/
def decodeTableWord (nbits w : Nat) : Option Instr :=
  match decode (Machine.bytesLE 4 (tableWord nbits w)) with
  | .ok (i, _) => some i
  | .error _ => none

end Sys2Proof
end

