-- ==== Sys2Proof/Machine/Fetch.lean ====
section
/-! DEFINITION. The part of the step rule before the instruction's own meaning: 10_state.md R27 steps 1 to 3, in the order
of 60_exceptions.md R209. -/

namespace Sys2Proof.Machine

/-- The instruction at `pc`, or the exception that stands in its way. -/
def fetchInstr (s : State) : Except Exc Instr :=
  if wordAligned s.pc then
    match fetchBytes s s.pc with
    | .error e => .error e
    | .ok bytes =>
      match decode bytes with
      | .ok (i, _) => .ok i
      | .error _ => .error (.illegalInstruction (wordLE bytes))
  else .error (.instructionAddressMisaligned s.pc)

/-- A region for one address of an instruction that the loader places. -/
def mapByte (p : Platform) (a : Word) : Platform :=
  if isMapped p a then p else { p with regions := ⟨a.toNat, 1, false⟩ :: p.regions }

/-- The platform with every one of some addresses in `MAPPED`. -/
def mapBytes (p : Platform) (as : List Word) : Platform :=
  match as with
  | [] => p
  | a :: rest => mapBytes (mapByte p a) rest

/-- What the loader does to place one instruction word as the next one to run: a running state, an aligned `pc`,
mapped bytes, and the bytes themselves. -/
def placeWord (s : State) (w : Word) : State :=
  let a := s.pc &&& 0xFFFFFFFC#32
  { s with
    status := .running
    pc := a
    plat := mapBytes s.plat (byteAddrs a 4)
    mem := Memory.putBytes s.mem a (bytesLE 4 w) }

end Sys2Proof.Machine
end

