-- ==== Sys2Proof/Machine/Step.lean ====
section
/-! DEFINITION. One step of the machine (10_state.md R27), and how one instruction is placed where the step fetches. -/

namespace Sys2Proof.Machine

/-- One step, defined only when the status is Running: the instruction at `pc` runs, or the exception that stands in
its way is taken. -/
def step (s : State) : Host.Outcome State Fault Refusal :=
  match s.status with
  | .running =>
    match fetchInstr s with
    | .error e => .next (raise s e)
    | .ok i => exec i s
  | .halted _ => .fault .notRunning
  | .faulted _ => .fault .notRunning

/-- The state with the instruction whose bits are `w` (of which `nbits` count) placed at `pc`. -/
def State.withFetchWord (s : State) (nbits w : Nat) : State := placeWord s (tableWord nbits w)

end Sys2Proof.Machine
end

