-- ==== Sys2Proof/Machine/Assembly.lean ====
section
/-! DEFINITION. The names of the source: mnemonics and the opcode table (30_encoding.md R83), ABI register names
(10_state.md R22), assembler syntax (30_encoding.md R87) and idioms (30_encoding.md R88). The hardware attaches no
meaning to the ABI names (10_state.md R23). -/

namespace Sys2Proof

/-- The mnemonic of an instruction, as the opcode table has it (30_encoding.md R83). -/
def mnemonic (i : Instr) : String :=
  match i with
  | .add _ _ _ => "ADD" | .sub _ _ _ => "SUB" | .and _ _ _ => "AND" | .or _ _ _ => "OR" | .xor _ _ _ => "XOR"
  | .sll _ _ _ => "SLL" | .srl _ _ _ => "SRL" | .sra _ _ _ => "SRA" | .slt _ _ _ => "SLT" | .sltu _ _ _ => "SLTU"
  | .addi _ _ _ => "ADDI" | .andi _ _ _ => "ANDI" | .ori _ _ _ => "ORI" | .xori _ _ _ => "XORI"
  | .slti _ _ _ => "SLTI" | .sltiu _ _ _ => "SLTIU" | .slli _ _ _ => "SLLI" | .srli _ _ _ => "SRLI"
  | .srai _ _ _ => "SRAI"
  | .lui _ _ => "LUI" | .auipc _ _ => "AUIPC"
  | .lw _ _ _ => "LW" | .lh _ _ _ => "LH" | .lb _ _ _ => "LB" | .lhu _ _ _ => "LHU" | .lbu _ _ _ => "LBU"
  | .sw _ _ _ => "SW" | .sh _ _ _ => "SH" | .sb _ _ _ => "SB"
  | .beq _ _ _ => "BEQ" | .bne _ _ _ => "BNE" | .blt _ _ _ => "BLT" | .bge _ _ _ => "BGE"
  | .bltu _ _ _ => "BLTU" | .bgeu _ _ _ => "BGEU"
  | .jal _ _ => "JAL" | .jalr _ _ _ => "JALR"
  | .ecall => "ECALL" | .ebreak => "EBREAK"

/-- One row of the opcode table: a word w is the row's instruction when `w & mask = bits` (30_encoding.md R83). -/
structure OpcodeRow where
  name : String
  bits : Word
  mask : Word
deriving DecidableEq, Repr

/-- The 39 rows of the opcode table (30_encoding.md R83). -/
def opcodeTable : List OpcodeRow :=
  [⟨"ADD", 0x00000033#32, 0xFE00707F#32⟩, ⟨"SUB", 0x40000033#32, 0xFE00707F#32⟩,
   ⟨"AND", 0x00007033#32, 0xFE00707F#32⟩, ⟨"OR", 0x00006033#32, 0xFE00707F#32⟩,
   ⟨"XOR", 0x00004033#32, 0xFE00707F#32⟩, ⟨"SLL", 0x00001033#32, 0xFE00707F#32⟩,
   ⟨"SRL", 0x00005033#32, 0xFE00707F#32⟩, ⟨"SRA", 0x40005033#32, 0xFE00707F#32⟩,
   ⟨"SLT", 0x00002033#32, 0xFE00707F#32⟩, ⟨"SLTU", 0x00003033#32, 0xFE00707F#32⟩] ++
  [⟨"ADDI", 0x00000013#32, 0x0000707F#32⟩, ⟨"ANDI", 0x00007013#32, 0x0000707F#32⟩,
   ⟨"ORI", 0x00006013#32, 0x0000707F#32⟩, ⟨"XORI", 0x00004013#32, 0x0000707F#32⟩,
   ⟨"SLTI", 0x00002013#32, 0x0000707F#32⟩, ⟨"SLTIU", 0x00003013#32, 0x0000707F#32⟩,
   ⟨"SLLI", 0x00001013#32, 0xFE00707F#32⟩, ⟨"SRLI", 0x00005013#32, 0xFE00707F#32⟩,
   ⟨"SRAI", 0x40005013#32, 0xFE00707F#32⟩] ++
  [⟨"LUI", 0x00000037#32, 0x0000007F#32⟩, ⟨"AUIPC", 0x00000017#32, 0x0000007F#32⟩] ++
  [⟨"LW", 0x00002003#32, 0x0000707F#32⟩, ⟨"LH", 0x00001003#32, 0x0000707F#32⟩,
   ⟨"LB", 0x00000003#32, 0x0000707F#32⟩, ⟨"LHU", 0x00005003#32, 0x0000707F#32⟩,
   ⟨"LBU", 0x00004003#32, 0x0000707F#32⟩] ++
  [⟨"SW", 0x00002023#32, 0x0000707F#32⟩, ⟨"SH", 0x00001023#32, 0x0000707F#32⟩,
   ⟨"SB", 0x00000023#32, 0x0000707F#32⟩] ++
  [⟨"BEQ", 0x00000063#32, 0x0000707F#32⟩, ⟨"BNE", 0x00001063#32, 0x0000707F#32⟩,
   ⟨"BLT", 0x00004063#32, 0x0000707F#32⟩, ⟨"BGE", 0x00005063#32, 0x0000707F#32⟩,
   ⟨"BLTU", 0x00006063#32, 0x0000707F#32⟩, ⟨"BGEU", 0x00007063#32, 0x0000707F#32⟩] ++
  [⟨"JAL", 0x0000006F#32, 0x0000007F#32⟩, ⟨"JALR", 0x00000067#32, 0x0000707F#32⟩,
   ⟨"ECALL", 0x00000073#32, 0xFFFFFFFF#32⟩, ⟨"EBREAK", 0x00100073#32, 0xFFFFFFFF#32⟩]

/-- The ABI names of `x0` to `x31`, in order (10_state.md R22); `x8` is also `fp`. -/
def abiNames : List String :=
  ["zero", "ra", "sp", "gp", "tp", "t0", "t1", "t2", "s0", "s1", "a0", "a1", "a2", "a3", "a4", "a5"] ++
  ["a6", "a7", "s2", "s3", "s4", "s5", "s6", "s7", "s8", "s9", "s10", "s11", "t3", "t4", "t5", "t6"]

/-- The ABI name of a register (10_state.md R22). -/
def abiName (r : RegNum) : String := abiNames.getD r.toNat ""

/-- What the source's "preserved across call" column says of a register (10_state.md R22). -/
inductive CallRule where
  /-- `x0`: "constant" -/
  | constant
  /-- "No": the caller saves -/
  | callerSaves
  /-- "Yes": the callee saves -/
  | calleeSaves
  /-- the cell is empty in the source (`gp`, `tp`): neither answer may be assumed -/
  | notGiven
deriving DecidableEq, Repr

/-- The "preserved across call" column (10_state.md R22): a software convention (R23). -/
def callRule (r : RegNum) : CallRule :=
  if r.toNat = 0 then .constant
  else if r.toNat = 3 ∨ r.toNat = 4 then .notGiven
  else if r.toNat = 2 ∨ r.toNat = 8 ∨ r.toNat = 9 ∨ (18 ≤ r.toNat ∧ r.toNat ≤ 27) then .calleeSaves
  else .callerSaves

/-- A register as the assembler writes it. -/
def asmReg (r : RegNum) : String := "x" ++ toString r.toNat

/-- A signed immediate as the assembler writes it, in decimal. -/
def asmInt (v : Int) : String := toString v

/-- The operand of LUI and AUIPC: the 20-bit field, in hexadecimal (30_encoding.md R87). -/
def asmHex (v : BitVec 20) : String := "0x" ++ String.ofList ((Nat.toDigits 16 v.toNat).map Char.toUpper)

/-- The operands of an instruction in the order of 30_encoding.md R87. -/
def asmOperands (i : Instr) : String :=
  match i with
  | .add rd rs1 rs2 | .sub rd rs1 rs2 | .and rd rs1 rs2 | .or rd rs1 rs2 | .xor rd rs1 rs2 | .sll rd rs1 rs2
  | .srl rd rs1 rs2 | .sra rd rs1 rs2 | .slt rd rs1 rs2 | .sltu rd rs1 rs2 =>
    " " ++ asmReg rd ++ ", " ++ asmReg rs1 ++ ", " ++ asmReg rs2
  | .addi rd rs1 imm | .andi rd rs1 imm | .ori rd rs1 imm | .xori rd rs1 imm | .slti rd rs1 imm
  | .sltiu rd rs1 imm | .jalr rd rs1 imm => " " ++ asmReg rd ++ ", " ++ asmReg rs1 ++ ", " ++ asmInt imm.toInt
  | .slli rd rs1 shamt | .srli rd rs1 shamt | .srai rd rs1 shamt =>
    " " ++ asmReg rd ++ ", " ++ asmReg rs1 ++ ", " ++ toString shamt.toNat
  | .lui rd imm20 | .auipc rd imm20 => " " ++ asmReg rd ++ ", " ++ asmHex imm20
  | .lw rd rs1 imm | .lh rd rs1 imm | .lb rd rs1 imm | .lhu rd rs1 imm | .lbu rd rs1 imm =>
    " " ++ asmReg rd ++ ", " ++ asmInt imm.toInt ++ "(" ++ asmReg rs1 ++ ")"
  | .sw rs1 rs2 imm | .sh rs1 rs2 imm | .sb rs1 rs2 imm =>
    " " ++ asmReg rs2 ++ ", " ++ asmInt imm.toInt ++ "(" ++ asmReg rs1 ++ ")"
  | .beq rs1 rs2 imm | .bne rs1 rs2 imm | .blt rs1 rs2 imm | .bge rs1 rs2 imm | .bltu rs1 rs2 imm
  | .bgeu rs1 rs2 imm => " " ++ asmReg rs1 ++ ", " ++ asmReg rs2 ++ ", " ++ asmInt imm.toInt
  | .jal rd imm => " " ++ asmReg rd ++ ", " ++ asmInt imm.toInt
  | .ecall | .ebreak => ""

/-- An instruction in the assembler syntax of 30_encoding.md R87. -/
def asm (i : Instr) : String := mnemonic i ++ asmOperands i

/-- "Set registers": `ADDI rd, x0, imm` (30_encoding.md R88). -/
def idiomSet (rd : RegNum) (imm : BitVec 12) : Instr := .addi rd 0#5 imm
/-- "Copy registers": `ADDI rd, rs1, 0` (R88). -/
def idiomCopy (rd rs1 : RegNum) : Instr := .addi rd rs1 0#12
/-- "Inverts all bits": `XORI rd, rs1, -1` (R88). -/
def idiomNot (rd rs1 : RegNum) : Instr := .xori rd rs1 0xFFF#12
/-- `SLTU rd, x0, rs2`: 1 if rs2 is nonzero (R88). -/
def idiomIsNonzero (rd rs2 : RegNum) : Instr := .sltu rd 0#5 rs2
/-- `SLTIU rd, rs1, 1`: 1 if rs1 equals zero (R88). -/
def idiomIsZero (rd rs1 : RegNum) : Instr := .sltiu rd rs1 1#12
/-- Function call: `JAL ra, offset` (R88). -/
def idiomCall (offset : BitVec 21) : Instr := .jal 1#5 offset
/-- Plain jump, no link: `JAL x0, offset` (R88). -/
def idiomJump (offset : BitVec 21) : Instr := .jal 0#5 offset
/-- Return: `JALR x0, ra, 0` (R88). -/
def idiomReturn : Instr := .jalr 0#5 1#5 0#12
/-- The ADDI half of a constant: `C[11:0]` (R88). -/
def constantLow (c : Word) : BitVec 12 := c.extractLsb' 0 12
/-- The LUI half of a constant: `(C - sext_12(low))[31:12]` (R88). -/
def constantHigh (c : Word) : BitVec 20 := (c - Machine.sext (constantLow c)).extractLsb' 12 20

end Sys2Proof
end

