-- ==== Sys2Proof/Machine/Launch.lean ====
section
/-! DEFINITION. The start of a run from the loader's parameters (70_reset_and_hazards.md R240, R242, 10_state.md R35). -/

namespace Sys2Proof.Machine

/-- The initial state of 10_state.md R35 for given `MAPPED`, `WRITABLE`, `MISALIGNED_POLICY`, `SYSCALL_TABLE`, `IMAGE`,
`ENTRY_PC` and `INIT_REGS`, and for any values of the bytes that `IMAGE` leaves out (70_reset_and_hazards.md R241). -/
def start (l : Launch) : State :=
  { regs := l.initRegs
    pc := l.entryPc
    mem := Memory.initial l.plat l.image l.unloaded
    status := .running
    out := []
    plat := l.plat
    calls := 0 }

end Sys2Proof.Machine
end

