-- ==== Sys2Proof/Safety.lean ====
section
/-! DEFINITION. The terms in which claims speak: what an instruction leaves unchanged, when an access is allowed, the
invariant of the machine, and runs. -/

namespace Sys2Proof.Machine

/-- Every general register reads as before. -/
def KeepsRegs (s t : State) : Prop := ∀ r : RegNum, regRead t r = regRead s r

/-- Every byte of memory reads as before. -/
def KeepsMem (s t : State) : Prop := ∀ a : Nat, Memory.get t.mem a = Memory.get s.mem a

/-- Status, output, the run's parameters and the count of added calls are as before. -/
def KeepsRun (s t : State) : Prop := t.status = s.status ∧ t.out = s.out ∧ t.plat = s.plat ∧ t.calls = s.calls

/-- t is s after one result v went to register rd (nothing, for `x0`): no other register, no byte of memory, not the
status, the output or the parameters changed. The `pc` is not spoken of. -/
def WritesOnly (s t : State) (rd : RegNum) (v : Word) : Prop :=
  regRead t rd = (if rd = 0#5 then 0#32 else v) ∧ (∀ r : RegNum, r ≠ rd → regRead t r = regRead s r) ∧
    KeepsMem s t ∧ KeepsRun s t

/-- t is s with the `pc` at p: no register, no byte of memory, not the status, the output or the parameters
changed. -/
def MovesOnly (s t : State) (p : Word) : Prop := t.pc = p ∧ KeepsRegs s t ∧ KeepsMem s t ∧ KeepsRun s t

/-- The instruction answers a next state in which its one result v is in rd (nothing, for `x0`), `pc` is four on and
nothing else changed (00_scope.md R13). -/
def WritesResult (i : Instr) (s : State) (rd : RegNum) (v : Word) : Prop :=
  ∃ t, exec i s = .next t ∧ t.pc = s.pc + 4#32 ∧ WritesOnly s t rd v

/-- An instruction's row of the opcode table: the words that match it are exactly those the decoder reads as the
instruction with these fields (30_encoding.md R83). -/
def Selects (mask bits : Word) (mk : Word → Instr) : Prop :=
  ∀ w : Word, w &&& mask = bits ↔ decodeWord w = .ok (mk w)

/-- Byte i of an access at a (20_memory.md R44, R51). -/
def nthAddr (a : Word) (i : Nat) : Word := a + BitVec.ofNat 32 i

/-- Byte i of an access at a, as memory holds it. -/
def nthByte (s : State) (a : Word) (i : Nat) : Byte := Memory.get s.mem (nthAddr a i).toNat

/-- No alignment exception stands in the way of an access of n bytes at a (20_memory.md R47). -/
def AlignmentOk (s : State) (a : Word) (n : Nat) : Prop := s.plat.misaligned = .bytewise ∨ a.toNat % n = 0

/-- Every byte of the access is in `MAPPED`. -/
def AllMapped (s : State) (a : Word) (n : Nat) : Prop := ∀ i, i < n → isMapped s.plat (nthAddr a i) = true

/-- Every byte of the access is in `WRITABLE`. -/
def AllWritable (s : State) (a : Word) (n : Nat) : Prop := ∀ i, i < n → isWritable s.plat (nthAddr a i) = true

/-- Byte i of the access is the first that fails a check. -/
def FirstFails (ok : Word → Bool) (a : Word) (n i : Nat) : Prop :=
  i < n ∧ ok (nthAddr a i) = false ∧ ∀ j, j < i → ok (nthAddr a j) = true

/-- The instruction answers a next state in which the n bytes from a up are the low n bytes of v, the least significant
one lowest, `pc` is four on and nothing else changed: no other byte of memory, no register (44_stores.md R160). -/
def StoresResult (i : Instr) (s : State) (a : Word) (n : Nat) (v : Word) : Prop :=
  ∃ t, exec i s = .next t ∧ t.pc = s.pc + 4#32 ∧ KeepsRegs s t ∧ KeepsRun s t ∧
    (∀ k, k < n → nthByte t a k = v.extractLsb' (8 * k) 8) ∧
    (∀ x : Nat, (∀ k, k < n → x ≠ (nthAddr a k).toNat) → Memory.get t.mem x = Memory.get s.mem x)

/-- A branch with its condition (45_branches.md R170): taken to an aligned target it goes there, not taken it goes to
the next instruction, whatever its offset. -/
def BranchesWhen (i : Instr) (s : State) (taken : Prop) (target : Word) : Prop :=
  (taken → target.toNat % 4 = 0 → ∃ t, exec i s = .next t ∧ MovesOnly s t target) ∧
  (¬ taken → ∃ t, exec i s = .next t ∧ MovesOnly s t (s.pc + 4#32))

/-- The instruction answers the state in which nothing but the status changed: it is Faulted with e
(60_exceptions.md R203). -/
def Raises (i : Instr) (s : State) (e : Exc) : Prop := exec i s = .next { s with status := .faulted e }

/-- What holds in every state of a run that starts at an aligned entry point: memory is in its canonical form and
lists only bytes of `MAPPED`, and `pc` is a multiple of 4 (20_memory.md R48, 92_eei_decisions.md D7). -/
def WfState (s : State) : Bool :=
  Memory.wf s.mem && s.mem.all (fun c => isMapped s.plat (BitVec.ofNat 32 c.1)) && wordAligned s.pc

/-- t is reached from s by steps that answer a next state. -/
inductive Reaches : State → State → Prop where
  | refl (s : State) : Reaches s s
  | tail (s t u : State) : Reaches s t → step t = .next u → Reaches s u

/-- The register an instruction writes (10_state.md R24). -/
def destination (i : Instr) : Option RegNum :=
  match i with
  | .add rd _ _ | .sub rd _ _ | .and rd _ _ | .or rd _ _ | .xor rd _ _ | .sll rd _ _ | .srl rd _ _ | .sra rd _ _
  | .slt rd _ _ | .sltu rd _ _ => some rd
  | .addi rd _ _ | .andi rd _ _ | .ori rd _ _ | .xori rd _ _ | .slti rd _ _ | .sltiu rd _ _ | .slli rd _ _
  | .srli rd _ _ | .srai rd _ _ => some rd
  | .lui rd _ | .auipc rd _ => some rd
  | .lw rd _ _ | .lh rd _ _ | .lb rd _ _ | .lhu rd _ _ | .lbu rd _ _ => some rd
  | .sw _ _ _ | .sh _ _ _ | .sb _ _ _ => none
  | .beq _ _ _ | .bne _ _ _ | .blt _ _ _ | .bge _ _ _ | .bltu _ _ _ | .bgeu _ _ _ => none
  | .jal rd _ | .jalr rd _ _ => some rd
  | .ecall | .ebreak => none

/-- The same instruction with rd in its destination field, if it has one. -/
def withDestination (i : Instr) (rd : RegNum) : Instr :=
  match i with
  | .add _ rs1 rs2 => .add rd rs1 rs2 | .sub _ rs1 rs2 => .sub rd rs1 rs2 | .and _ rs1 rs2 => .and rd rs1 rs2
  | .or _ rs1 rs2 => .or rd rs1 rs2 | .xor _ rs1 rs2 => .xor rd rs1 rs2 | .sll _ rs1 rs2 => .sll rd rs1 rs2
  | .srl _ rs1 rs2 => .srl rd rs1 rs2 | .sra _ rs1 rs2 => .sra rd rs1 rs2 | .slt _ rs1 rs2 => .slt rd rs1 rs2
  | .sltu _ rs1 rs2 => .sltu rd rs1 rs2
  | .addi _ rs1 imm => .addi rd rs1 imm | .andi _ rs1 imm => .andi rd rs1 imm | .ori _ rs1 imm => .ori rd rs1 imm
  | .xori _ rs1 imm => .xori rd rs1 imm | .slti _ rs1 imm => .slti rd rs1 imm
  | .sltiu _ rs1 imm => .sltiu rd rs1 imm
  | .slli _ rs1 shamt => .slli rd rs1 shamt | .srli _ rs1 shamt => .srli rd rs1 shamt
  | .srai _ rs1 shamt => .srai rd rs1 shamt
  | .lui _ imm20 => .lui rd imm20 | .auipc _ imm20 => .auipc rd imm20
  | .lw _ rs1 imm => .lw rd rs1 imm | .lh _ rs1 imm => .lh rd rs1 imm | .lb _ rs1 imm => .lb rd rs1 imm
  | .lhu _ rs1 imm => .lhu rd rs1 imm | .lbu _ rs1 imm => .lbu rd rs1 imm
  | .sw rs1 rs2 imm => .sw rs1 rs2 imm | .sh rs1 rs2 imm => .sh rs1 rs2 imm | .sb rs1 rs2 imm => .sb rs1 rs2 imm
  | .beq rs1 rs2 imm => .beq rs1 rs2 imm | .bne rs1 rs2 imm => .bne rs1 rs2 imm
  | .blt rs1 rs2 imm => .blt rs1 rs2 imm | .bge rs1 rs2 imm => .bge rs1 rs2 imm
  | .bltu rs1 rs2 imm => .bltu rs1 rs2 imm | .bgeu rs1 rs2 imm => .bgeu rs1 rs2 imm
  | .jal _ imm => .jal rd imm
  | .jalr _ rs1 imm => .jalr rd rs1 imm
  | .ecall => .ecall
  | .ebreak => .ebreak

/-- The registers an instruction reads (10_state.md R24); the environment reads `a0` and `a1` for the four services of
the spec. -/
def sources (i : Instr) : List RegNum :=
  match i with
  | .add _ rs1 rs2 | .sub _ rs1 rs2 | .and _ rs1 rs2 | .or _ rs1 rs2 | .xor _ rs1 rs2 | .sll _ rs1 rs2
  | .srl _ rs1 rs2 | .sra _ rs1 rs2 | .slt _ rs1 rs2 | .sltu _ rs1 rs2 => [rs1, rs2]
  | .addi _ rs1 _ | .andi _ rs1 _ | .ori _ rs1 _ | .xori _ rs1 _ | .slti _ rs1 _ | .sltiu _ rs1 _ | .slli _ rs1 _
  | .srli _ rs1 _ | .srai _ rs1 _ => [rs1]
  | .lui _ _ | .auipc _ _ => []
  | .lw _ rs1 _ | .lh _ rs1 _ | .lb _ rs1 _ | .lhu _ rs1 _ | .lbu _ rs1 _ => [rs1]
  | .sw rs1 rs2 _ | .sh rs1 rs2 _ | .sb rs1 rs2 _ => [rs1, rs2]
  | .beq rs1 rs2 _ | .bne rs1 rs2 _ | .blt rs1 rs2 _ | .bge rs1 rs2 _ | .bltu rs1 rs2 _ | .bgeu rs1 rs2 _ =>
    [rs1, rs2]
  | .jal _ _ => []
  | .jalr _ rs1 _ => [rs1]
  | .ecall => [regA0, regA1]
  | .ebreak => []

/-- The registers that a service reads beside `a0` and `a1` (47_system.md R191, R198). -/
def serviceRegs (v : Service) : List RegNum :=
  match v with
  | .printInteger | .printString | .exit | .exitWithCode => []
  | .added d => d.readsRegs

/-- Every register that an instruction reads in a state: its sources, and for ECALL those of the service it asks for. -/
def sourcesIn (s : State) (i : Instr) : List RegNum :=
  sources i ++
    if i = .ecall then ((lookupService s.plat.syscalls (regRead s regA0)).map serviceRegs).getD [] else []

/-- The 32-bit operand that an instruction's immediate field denotes (30_encoding.md R74 to R78). -/
def immOperand (i : Instr) : Option Word :=
  match i with
  | .add _ _ _ | .sub _ _ _ | .and _ _ _ | .or _ _ _ | .xor _ _ _ | .sll _ _ _ | .srl _ _ _ | .sra _ _ _
  | .slt _ _ _ | .sltu _ _ _ => none
  | .addi _ _ imm | .andi _ _ imm | .ori _ _ imm | .xori _ _ imm | .slti _ _ imm | .sltiu _ _ imm => some (sext imm)
  | .slli _ _ _ | .srli _ _ _ | .srai _ _ _ => none
  | .lui _ imm20 | .auipc _ imm20 => some (immU imm20)
  | .lw _ _ imm | .lh _ _ imm | .lb _ _ imm | .lhu _ _ imm | .lbu _ _ imm => some (sext imm)
  | .sw _ _ imm | .sh _ _ imm | .sb _ _ imm => some (sext imm)
  | .beq _ _ imm | .bne _ _ imm | .blt _ _ imm | .bge _ _ imm | .bltu _ _ imm | .bgeu _ _ imm => some (sext imm)
  | .jal _ imm => some (sext imm)
  | .jalr _ _ imm => some (sext imm)
  | .ecall | .ebreak => none

end Sys2Proof.Machine
end

