-- ==== Sys2Proof/Certificates/Slice0/Obligations.lean ====
section
/-! DEFINITION. The statements for the provers: one proposition each. -/

open Sys2Proof Sys2Proof.Machine

/-- For every instruction whose B or J immediate has its implied bit 0, the decoder reads from the four little-endian
bytes of its encoding that instruction, with every operand at its value, and leaves the bytes after them. Rests on
30_encoding.md sections 1 to 3, 20_memory.md section 2. -/
def Obligations.EncodedInstrDecodesBack : Prop :=
  ∀ (i : Instr) (rest : List Byte), wellFormed i = true → decode (encodeBytes i ++ rest) = .ok (i, rest)

/-- If the decoder reads instruction i from word w, then i is well-formed and the encoding of i is w: no bit of an
accepted word is ignored. Rests on 30_encoding.md sections 1 to 3. -/
def Obligations.DecodedWordEncodesBack : Prop :=
  ∀ (w : Word) (i : Instr), decodeWord w = .ok i → wellFormed i = true ∧ encode i = w

/-- A word that the decoder reads as i matches the row of the opcode table that has the mnemonic of i; a word that
matches a row is read as an instruction with that row's mnemonic; no word matches two rows. (That ECALL and EBREAK
are single words is the spec's own decision D5, and the disjointness is its own check.) Rests on 30_encoding.md
section 3, 92_eei_decisions.md D5. -/
def Obligations.DecoderFollowsOpcodeTable : Prop :=
  (∀ (w : Word) (i : Instr), decodeWord w = .ok i →
    ∃ row ∈ opcodeTable, row.name = mnemonic i ∧ w &&& row.mask = row.bits) ∧
  (∀ (w : Word) (row : OpcodeRow), row ∈ opcodeTable → w &&& row.mask = row.bits →
    ∃ i, decodeWord w = .ok i ∧ mnemonic i = row.name) ∧
  (∀ (w : Word) (row row' : OpcodeRow), row ∈ opcodeTable → row' ∈ opcodeTable →
    w &&& row.mask = row.bits → w &&& row'.mask = row'.bits → row = row')

/-- For every word and each of the cases (a) to (h): the decoder answers the rejection of that case if and only if
the fields of the word are those the case lists; it never calls a whole word truncated. (That these words are illegal
is the spec's own decision D3, D4, D5.) Rests on 30_encoding.md section 4, 92_eei_decisions.md D3,
92_eei_decisions.md D4, 92_eei_decisions.md D5. -/
def Obligations.IllegalWordsByCase : Prop :=
  ∀ w : Word,
    (decodeWord w = .error .opcode ↔
      opcodeOf w ≠ 0x33#7 ∧ opcodeOf w ≠ 0x13#7 ∧ opcodeOf w ≠ 0x03#7 ∧ opcodeOf w ≠ 0x23#7 ∧
      opcodeOf w ≠ 0x63#7 ∧ opcodeOf w ≠ 0x6F#7 ∧ opcodeOf w ≠ 0x67#7 ∧ opcodeOf w ≠ 0x37#7 ∧
      opcodeOf w ≠ 0x17#7 ∧ opcodeOf w ≠ 0x73#7) ∧
    (decodeWord w = .error .regRegFunct ↔
      opcodeOf w = 0x33#7 ∧
        ((funct7Of w ≠ 0x00#7 ∧ funct7Of w ≠ 0x20#7) ∨
          (funct7Of w = 0x20#7 ∧ funct3Of w ≠ 0x0#3 ∧ funct3Of w ≠ 0x5#3))) ∧
    (decodeWord w = .error .shiftFunct7 ↔
      opcodeOf w = 0x13#7 ∧
        ((funct3Of w = 0x1#3 ∧ funct7Of w ≠ 0x00#7) ∨
          (funct3Of w = 0x5#3 ∧ funct7Of w ≠ 0x00#7 ∧ funct7Of w ≠ 0x20#7))) ∧
    (decodeWord w = .error .loadFunct3 ↔
      opcodeOf w = 0x03#7 ∧ (funct3Of w = 0x3#3 ∨ funct3Of w = 0x6#3 ∨ funct3Of w = 0x7#3)) ∧
    (decodeWord w = .error .storeFunct3 ↔ opcodeOf w = 0x23#7 ∧ 3 ≤ (funct3Of w).toNat) ∧
    (decodeWord w = .error .branchFunct3 ↔ opcodeOf w = 0x63#7 ∧ (funct3Of w = 0x2#3 ∨ funct3Of w = 0x3#3)) ∧
    (decodeWord w = .error .jalrFunct3 ↔ opcodeOf w = 0x67#7 ∧ funct3Of w ≠ 0x0#3) ∧
    (decodeWord w = .error .system ↔ opcodeOf w = 0x73#7 ∧ w ≠ 0x00000073#32 ∧ w ≠ 0x00100073#32) ∧
    decodeWord w ≠ .error .truncated

/-- For every word: opcode, rd, funct3, rs1, rs2 and funct7 are the values of the source's shift-and-mask
expressions; and of a decoded instruction the destination register is rd, the registers read through fields are none,
rs1, or rs1 and rs2. Formalises R72. -/
def Obligations.FieldsStandAtTheirBits : Prop :=
  ∀ w : Word,
    (opcodeOf w).toNat = (w &&& 0x7F#32).toNat ∧
    (rdOf w).toNat = ((w >>> 7) &&& 0x1F#32).toNat ∧
    (funct3Of w).toNat = ((w >>> 12) &&& 0x7#32).toNat ∧
    (rs1Of w).toNat = ((w >>> 15) &&& 0x1F#32).toNat ∧
    (rs2Of w).toNat = ((w >>> 20) &&& 0x1F#32).toNat ∧
    (funct7Of w).toNat = ((w >>> 25) &&& 0x7F#32).toNat ∧
    ∀ i : Instr, decodeWord w = .ok i →
      (∀ d, destination i = some d → d = rdOf w) ∧
      (i ≠ .ecall → sources i = [] ∨ sources i = [rs1Of w] ∨ sources i = [rs1Of w, rs2Of w])

/-- For every word the decoder accepts: the 32-bit immediate operand of an I-type (no shift), S-type, B-type, U-type
or J-type instruction is the value of the source's C expression for that format; I and S operands lie in -2048 to
2047, B operands are even in -4096 to 4094, J operands are even in -1048576 to 1048574, U operands have bits 11 to 0
zero. Formalises R74, R75, R76, R77, R78. -/
def Obligations.ImmediatesAreTheSourceExpressions : Prop :=
  ∀ (w : Word) (i : Instr), decodeWord w = .ok i →
    (opcodeOf w = 0x03#7 ∨ opcodeOf w = 0x67#7 ∨
        (opcodeOf w = 0x13#7 ∧ funct3Of w ≠ 0x1#3 ∧ funct3Of w ≠ 0x5#3) →
      immOperand i = some (w.sshiftRight 20) ∧
        -2048 ≤ (w.sshiftRight 20).toInt ∧ (w.sshiftRight 20).toInt ≤ 2047) ∧
    (opcodeOf w = 0x23#7 →
      ∃ v, v = ((w.sshiftRight 20) &&& ~~~0x1F#32) ||| ((w >>> 7) &&& 0x1F#32) ∧
        immOperand i = some v ∧ -2048 ≤ v.toInt ∧ v.toInt ≤ 2047) ∧
    (opcodeOf w = 0x63#7 →
      ∃ v, v = ((w &&& 0x80000000#32).sshiftRight 19) ||| ((w &&& 0x00000080#32) <<< 4) |||
            ((w >>> 20) &&& 0x7E0#32) ||| ((w >>> 7) &&& 0x1E#32) ∧
        immOperand i = some v ∧ -4096 ≤ v.toInt ∧ v.toInt ≤ 4094 ∧ v.toInt % 2 = 0) ∧
    (opcodeOf w = 0x37#7 ∨ opcodeOf w = 0x17#7 →
      immOperand i = some (w &&& 0xFFFFF000#32) ∧ (w &&& 0xFFFFF000#32).toNat % 4096 = 0 ∧
        (w &&& 0xFFFFF000#32).toNat = w.toNat / 4096 * 4096) ∧
    (opcodeOf w = 0x6F#7 →
      ∃ v, v = ((w &&& 0x80000000#32).sshiftRight 11) ||| (w &&& 0x000FF000#32) |||
            ((w >>> 9) &&& 0x800#32) ||| ((w >>> 20) &&& 0x7FE#32) ∧
        immOperand i = some v ∧ -1048576 ≤ v.toInt ∧ v.toInt ≤ 1048574 ∧ v.toInt % 2 = 0)

/-- One word of each family, written in binary from the spec's encoding of it, decodes to the instruction it stands
for: ADD x3,x1,x2; ADDI x0,x0,-1; LUI x5,0xDEADB; LW x3,-4(x1); SW x2,2047(x1); BNE x1,x2,-4; JAL x0,-4; JALR
x1,x1,4; ECALL; EBREAK. Rests on 95_test_vectors.md section 2, 30_encoding.md section 3. -/
def Obligations.WrittenOutWordsDecode : Prop :=
  decodeWord 0b00000000001000001000000110110011#32 = .ok (.add 3#5 1#5 2#5) ∧
  decodeWord 0b11111111111100000000000000010011#32 = .ok (.addi 0#5 0#5 0xFFF#12) ∧
  decodeWord 0b11011110101011011011001010110111#32 = .ok (.lui 5#5 0xDEADB#20) ∧
  decodeWord 0b11111111110000001010000110000011#32 = .ok (.lw 3#5 1#5 0xFFC#12) ∧
  decodeWord 0b01111110001000001010111110100011#32 = .ok (.sw 1#5 2#5 0x7FF#12) ∧
  decodeWord 0b11111110001000001001111011100011#32 = .ok (.bne 1#5 2#5 0x1FFC#13) ∧
  decodeWord 0b11111111110111111111000001101111#32 = .ok (.jal 0#5 0x1FFFFC#21) ∧
  decodeWord 0b00000000010000001000000011100111#32 = .ok (.jalr 1#5 1#5 4#12) ∧
  decodeWord 0b00000000000000000000000001110011#32 = .ok .ecall ∧
  decodeWord 0b00000000000100000000000001110011#32 = .ok .ebreak

/-- For every width N from 1 to 32 and every N-bit value v: bits N-1 to 0 of sext_N(v) and zext_N(v) are those of v,
the bits above are v[N-1] in sext_N(v) and 0 in zext_N(v), and sext_N(v) has the same two's-complement value.
Formalises R9. -/
def Obligations.ExtensionCopiesTheSignBit : Prop :=
  ∀ (n : Nat) (v : BitVec n), 0 < n → n ≤ 32 →
    (∀ k, k < 32 → (sext v).getLsbD k = if k < n then v.getLsbD k else v.getLsbD (n - 1)) ∧
    (∀ k, k < 32 → (zext v).getLsbD k = if k < n then v.getLsbD k else false) ∧
    (sext v).toInt = v.toInt

/-- In every state x0 reads as 0x00000000 and a write to it changes nothing at all; for every other register a write
is read back, and every register that is not the one written reads as before. Each of the 28 instructions that have
an rd, with rd = x0, executes completely: it does to memory, pc, status and output what it does with any other rd,
its exceptions included, and leaves every register. (This last clause is the sentence "An instruction whose `rd`
field is 0 still executes completely" of R21, which the spec marks as derived, an inference of its own: log entry
13.) Rests on 10_state.md section 2, 10_state.md R21. -/
def Obligations.ZeroRegisterAndRegisterFile : Prop :=
  (∀ s : State, regRead s 0#5 = 0x00000000#32) ∧
  (∀ (s : State) (v : Word), regWrite s 0#5 v = s) ∧
  (∀ (s : State) (r : RegNum) (v : Word), r ≠ 0#5 → regRead (regWrite s r v) r = v) ∧
  (∀ (s : State) (r q : RegNum) (v : Word), q ≠ r → regRead (regWrite s r v) q = regRead s q) ∧
  (∀ (i : Instr) (s : State), destination i ≠ none →
    ∃ t t0, exec i s = .next t ∧ exec (withDestination i 0#5) s = .next t0 ∧ t0 = { t with regs := s.regs })

/-- ADD writes x[rs1] + x[rs2] and SUB writes x[rs1] - x[rs2], both modulo 2^32, overflow ignored. The words of the
row are exactly those the decoder reads as the instruction, with its operands from their fields. The instruction
completes in every state; pc becomes pc + 4; no other register, no memory, not the status nor the output changes;
with rd = x0 the result is dropped. Formalises R101, R102. -/
def Obligations.AddSubWrapModuloTwoTo32 : Prop :=
  Selects 0xFE00707F#32 0x00000033#32 (fun w => .add (rdOf w) (rs1Of w) (rs2Of w)) ∧
  Selects 0xFE00707F#32 0x40000033#32 (fun w => .sub (rdOf w) (rs1Of w) (rs2Of w)) ∧
  ∀ (rd rs1 rs2 : RegNum) (s : State),
    WritesResult (.add rd rs1 rs2) s rd (BitVec.ofNat 32 ((regRead s rs1).toNat + (regRead s rs2).toNat)) ∧
    WritesResult (.sub rd rs1 rs2) s rd (BitVec.ofInt 32 ((regRead s rs1).toInt - (regRead s rs2).toInt))

/-- Bit k of the result is 1 exactly when bit k of both operands (AND), of at least one operand (OR), of exactly one
operand (XOR) is 1. The words of the row are exactly those the decoder reads as the instruction, with its operands
from their fields. The instruction completes in every state; pc becomes pc + 4; no other register, no memory, not the
status nor the output changes; with rd = x0 the result is dropped. Formalises R103, R104, R105. -/
def Obligations.AndOrXorActBitByBit : Prop :=
  Selects 0xFE00707F#32 0x00007033#32 (fun w => .and (rdOf w) (rs1Of w) (rs2Of w)) ∧
  Selects 0xFE00707F#32 0x00006033#32 (fun w => .or (rdOf w) (rs1Of w) (rs2Of w)) ∧
  Selects 0xFE00707F#32 0x00004033#32 (fun w => .xor (rdOf w) (rs1Of w) (rs2Of w)) ∧
  ∀ (rd rs1 rs2 : RegNum) (s : State),
    (∃ v, (∀ k, k < 32 → v.getLsbD k = ((regRead s rs1).getLsbD k && (regRead s rs2).getLsbD k)) ∧
      WritesResult (.and rd rs1 rs2) s rd v) ∧
    (∃ v, (∀ k, k < 32 → v.getLsbD k = ((regRead s rs1).getLsbD k || (regRead s rs2).getLsbD k)) ∧
      WritesResult (.or rd rs1 rs2) s rd v) ∧
    (∃ v, (∀ k, k < 32 → v.getLsbD k = ((regRead s rs1).getLsbD k != (regRead s rs2).getLsbD k)) ∧
      WritesResult (.xor rd rs1 rs2) s rd v)

/-- With n = x[rs2] mod 32, SLL writes x[rs1] * 2^n modulo 2^32 and SRL writes floor(x[rs1] / 2^n), unsigned. The
words of the row are exactly those the decoder reads as the instruction, with its operands from their fields. The
instruction completes in every state; pc becomes pc + 4; no other register, no memory, not the status nor the output
changes; with rd = x0 the result is dropped. Formalises R106, R107. -/
def Obligations.LogicalShiftsByLowFiveBits : Prop :=
  Selects 0xFE00707F#32 0x00001033#32 (fun w => .sll (rdOf w) (rs1Of w) (rs2Of w)) ∧
  Selects 0xFE00707F#32 0x00005033#32 (fun w => .srl (rdOf w) (rs1Of w) (rs2Of w)) ∧
  ∀ (rd rs1 rs2 : RegNum) (s : State),
    WritesResult (.sll rd rs1 rs2) s rd (BitVec.ofNat 32 ((regRead s rs1).toNat * 2 ^ ((regRead s rs2).toNat % 32))) ∧
    WritesResult (.srl rd rs1 rs2) s rd (BitVec.ofNat 32 ((regRead s rs1).toNat / 2 ^ ((regRead s rs2).toNat % 32)))

/-- With n = x[rs2] mod 32, SRA writes the word whose signed value is floor(signed(x[rs1]) / 2^n). The words of the
row are exactly those the decoder reads as the instruction, with its operands from their fields. The instruction
completes in every state; pc becomes pc + 4; no other register, no memory, not the status nor the output changes;
with rd = x0 the result is dropped. Formalises R108. -/
def Obligations.ArithmeticShiftRoundsDown : Prop :=
  Selects 0xFE00707F#32 0x40005033#32 (fun w => .sra (rdOf w) (rs1Of w) (rs2Of w)) ∧
  ∀ (rd rs1 rs2 : RegNum) (s : State),
    WritesResult (.sra rd rs1 rs2) s rd
      (BitVec.ofInt 32 (Int.fdiv (regRead s rs1).toInt (2 ^ ((regRead s rs2).toNat % 32))))

/-- SLT writes 1 when signed(x[rs1]) < signed(x[rs2]) and 0 otherwise; SLTU writes 1 when unsigned(x[rs1]) <
unsigned(x[rs2]) and 0 otherwise. The words of the row are exactly those the decoder reads as the instruction, with
its operands from their fields. The instruction completes in every state; pc becomes pc + 4; no other register, no
memory, not the status nor the output changes; with rd = x0 the result is dropped. Formalises R109, R110. -/
def Obligations.SetLessThanComparesExactly : Prop :=
  Selects 0xFE00707F#32 0x00002033#32 (fun w => .slt (rdOf w) (rs1Of w) (rs2Of w)) ∧
  Selects 0xFE00707F#32 0x00003033#32 (fun w => .sltu (rdOf w) (rs1Of w) (rs2Of w)) ∧
  ∀ (rd rs1 rs2 : RegNum) (s : State),
    WritesResult (.slt rd rs1 rs2) s rd (if (regRead s rs1).toInt < (regRead s rs2).toInt then 1#32 else 0#32) ∧
    WritesResult (.sltu rd rs1 rs2) s rd (if (regRead s rs1).toNat < (regRead s rs2).toNat then 1#32 else 0#32)

/-- ADDI writes x[rs1] plus the signed value of the 12-bit immediate (-2048 to 2047), modulo 2^32. The words of the
row are exactly those the decoder reads as the instruction, with its operands from their fields. The instruction
completes in every state; pc becomes pc + 4; no other register, no memory, not the status nor the output changes;
with rd = x0 the result is dropped. Formalises R121. -/
def Obligations.AddImmediateSignExtends : Prop :=
  Selects 0x0000707F#32 0x00000013#32 (fun w => .addi (rdOf w) (rs1Of w) (immIOf w)) ∧
  ∀ (rd rs1 : RegNum) (imm : BitVec 12) (s : State),
    WritesResult (.addi rd rs1 imm) s rd (BitVec.ofInt 32 ((regRead s rs1).toInt + imm.toInt))

/-- Bit k of the immediate operand is bit k of the field for k up to 11 and bit 11 above; ANDI, ORI, XORI combine it
with bit k of x[rs1] by AND, OR, exclusive OR. The words of the row are exactly those the decoder reads as the
instruction, with its operands from their fields. The instruction completes in every state; pc becomes pc + 4; no
other register, no memory, not the status nor the output changes; with rd = x0 the result is dropped. Formalises
R122, R123, R124. -/
def Obligations.LogicalImmediatesSignExtend : Prop :=
  Selects 0x0000707F#32 0x00007013#32 (fun w => .andi (rdOf w) (rs1Of w) (immIOf w)) ∧
  Selects 0x0000707F#32 0x00006013#32 (fun w => .ori (rdOf w) (rs1Of w) (immIOf w)) ∧
  Selects 0x0000707F#32 0x00004013#32 (fun w => .xori (rdOf w) (rs1Of w) (immIOf w)) ∧
  ∀ (rd rs1 : RegNum) (imm : BitVec 12) (s : State),
    (∃ v, (∀ k, k < 32 → v.getLsbD k = ((regRead s rs1).getLsbD k && imm.getLsbD (min k 11))) ∧
      WritesResult (.andi rd rs1 imm) s rd v) ∧
    (∃ v, (∀ k, k < 32 → v.getLsbD k = ((regRead s rs1).getLsbD k || imm.getLsbD (min k 11))) ∧
      WritesResult (.ori rd rs1 imm) s rd v) ∧
    (∃ v, (∀ k, k < 32 → v.getLsbD k = ((regRead s rs1).getLsbD k != imm.getLsbD (min k 11))) ∧
      WritesResult (.xori rd rs1 imm) s rd v)

/-- SLTI writes 1 when signed(x[rs1]) is below the signed immediate, else 0; SLTIU writes 1 when unsigned(x[rs1]) is
below the immediate sign-extended to 32 bits and read as unsigned, else 0. The words of the row are exactly those the
decoder reads as the instruction, with its operands from their fields. The instruction completes in every state; pc
becomes pc + 4; no other register, no memory, not the status nor the output changes; with rd = x0 the result is
dropped. Formalises R125, R126. -/
def Obligations.SetLessThanImmediate : Prop :=
  Selects 0x0000707F#32 0x00002013#32 (fun w => .slti (rdOf w) (rs1Of w) (immIOf w)) ∧
  Selects 0x0000707F#32 0x00003013#32 (fun w => .sltiu (rdOf w) (rs1Of w) (immIOf w)) ∧
  ∀ (rd rs1 : RegNum) (imm : BitVec 12) (s : State),
    WritesResult (.slti rd rs1 imm) s rd (if (regRead s rs1).toInt < imm.toInt then 1#32 else 0#32) ∧
    WritesResult (.sltiu rd rs1 imm) s rd (if ((regRead s rs1).toNat : Int) < imm.toInt % 2 ^ 32 then 1#32 else 0#32)

/-- With n the value of the shamt field, 0 to 31: SLLI writes x[rs1] * 2^n modulo 2^32, SRLI writes
floor(unsigned(x[rs1]) / 2^n), SRAI writes floor(signed(x[rs1]) / 2^n). With any other value in the upper seven bits
the word is no shift and is rejected. The words of the row are exactly those the decoder reads as the instruction,
with its operands from their fields. The instruction completes in every state; pc becomes pc + 4; no other register,
no memory, not the status nor the output changes; with rd = x0 the result is dropped. (That a word with another
funct7 is rejected is the spec's own decisions D3 and D4: log entry 13.) Rests on 41_reg_imm.md, 30_encoding.md
section 4, 92_eei_decisions.md D3, 92_eei_decisions.md D4. -/
def Obligations.ShiftsByImmediate : Prop :=
  Selects 0xFE00707F#32 0x00001013#32 (fun w => .slli (rdOf w) (rs1Of w) (shamtOf w)) ∧
  Selects 0xFE00707F#32 0x00005013#32 (fun w => .srli (rdOf w) (rs1Of w) (shamtOf w)) ∧
  Selects 0xFE00707F#32 0x40005013#32 (fun w => .srai (rdOf w) (rs1Of w) (shamtOf w)) ∧
  (∀ (rd rs1 : RegNum) (shamt : BitVec 5) (s : State),
    WritesResult (.slli rd rs1 shamt) s rd (BitVec.ofNat 32 ((regRead s rs1).toNat * 2 ^ shamt.toNat)) ∧
    WritesResult (.srli rd rs1 shamt) s rd (BitVec.ofNat 32 ((regRead s rs1).toNat / 2 ^ shamt.toNat)) ∧
    WritesResult (.srai rd rs1 shamt) s rd (BitVec.ofInt 32 (Int.fdiv (regRead s rs1).toInt (2 ^ shamt.toNat)))) ∧
  ∀ w : Word, opcodeOf w = 0x13#7 →
    ((funct3Of w = 0x1#3 ∧ funct7Of w ≠ 0x00#7) ∨
      (funct3Of w = 0x5#3 ∧ funct7Of w ≠ 0x00#7 ∧ funct7Of w ≠ 0x20#7)) → decodeWord w = .error .shiftFunct7

/-- LUI writes imm20 * 4096 and AUIPC writes pc + imm20 * 4096 modulo 2^32, where pc is the address of the AUIPC
itself. The words of the row are exactly those the decoder reads as the instruction, with its operands from their
fields. The instruction completes in every state; pc becomes pc + 4; no other register, no memory, not the status nor
the output changes; with rd = x0 the result is dropped. Formalises R141, R142. -/
def Obligations.UpperImmediateResults : Prop :=
  Selects 0x0000007F#32 0x00000037#32 (fun w => .lui (rdOf w) (imm20Of w)) ∧
  Selects 0x0000007F#32 0x00000017#32 (fun w => .auipc (rdOf w) (imm20Of w)) ∧
  ∀ (rd : RegNum) (imm20 : BitVec 20) (s : State),
    WritesResult (.lui rd imm20) s rd (BitVec.ofNat 32 (imm20.toNat * 4096)) ∧
    WritesResult (.auipc rd imm20) s rd (BitVec.ofNat 32 (s.pc.toNat + imm20.toNat * 4096))

/-- The effective address of a load or store is base plus signed displacement, the target of a branch or JAL is pc
plus signed offset, both modulo 2^32; the target of JALR is base plus signed displacement modulo 2^32 with bit 0
cleared after the addition. (The wrap-around is the spec's own decision D10.) Rests on 43_loads.md, 44_stores.md,
45_branches.md, 46_jumps.md, 92_eei_decisions.md D10. -/
def Obligations.AddressesWrapModuloTwoTo32 : Prop :=
  (∀ (base : Word) (imm : BitVec 12), effectiveAddress base imm = BitVec.ofInt 32 (base.toInt + imm.toInt)) ∧
  (∀ (pc : Word) (imm : BitVec 13), relativeTarget pc imm = BitVec.ofInt 32 (pc.toInt + imm.toInt)) ∧
  (∀ (pc : Word) (imm : BitVec 21), relativeTarget pc imm = BitVec.ofInt 32 (pc.toInt + imm.toInt)) ∧
  (∀ (base : Word) (imm : BitVec 12),
    (registerTarget base imm).toNat = (BitVec.ofInt 32 (base.toInt + imm.toInt)).toNat / 2 * 2)

/-- When no alignment exception stands in the way (the policy is bytewise, or the address is a multiple of 4) and all
four bytes are mapped, LW completes: rd holds the four bytes, the lowest address least significant; pc + 4; nothing
else changes. (The conditions are the spec's own decisions D8 and D9.) Rests on 43_loads.md, 20_memory.md sections 2
to 4, 92_eei_decisions.md D8, 92_eei_decisions.md D9. -/
def Obligations.LoadWordResult : Prop :=
  ∀ (rd rs1 : RegNum) (imm : BitVec 12) (s : State) (a : Word), a = effectiveAddress (regRead s rs1) imm →
    AlignmentOk s a 4 → AllMapped s a 4 →
    WritesResult (.lw rd rs1 imm) s rd (nthByte s a 3 ++ nthByte s a 2 ++ nthByte s a 1 ++ nthByte s a 0)

/-- When no alignment exception stands in the way and both bytes are mapped, LH writes the halfword sign-extended and
LHU zero-extended to 32 bits; pc + 4; nothing else changes. (The conditions are the spec's own decisions D8 and D9.)
Rests on 43_loads.md, 20_memory.md sections 2 to 4, 92_eei_decisions.md D8, 92_eei_decisions.md D9. -/
def Obligations.LoadHalfwordResults : Prop :=
  ∀ (rd rs1 : RegNum) (imm : BitVec 12) (s : State) (a : Word), a = effectiveAddress (regRead s rs1) imm →
    AlignmentOk s a 2 → AllMapped s a 2 →
    WritesResult (.lh rd rs1 imm) s rd (BitVec.ofInt 32 (nthByte s a 1 ++ nthByte s a 0).toInt) ∧
    WritesResult (.lhu rd rs1 imm) s rd (BitVec.ofNat 32 (nthByte s a 1 ++ nthByte s a 0).toNat)

/-- When the byte at the effective address is mapped, LB writes it sign-extended and LBU zero-extended to 32 bits, at
every alignment and under both policies; pc + 4; nothing else changes. (That an unmapped byte stops them is the
spec's own decision D9.) Rests on 43_loads.md, 20_memory.md sections 3 and 4, 92_eei_decisions.md D9. -/
def Obligations.LoadByteResults : Prop :=
  ∀ (rd rs1 : RegNum) (imm : BitVec 12) (s : State) (a : Word), a = effectiveAddress (regRead s rs1) imm →
    isMapped s.plat a = true →
    WritesResult (.lb rd rs1 imm) s rd (BitVec.ofInt 32 (Memory.get s.mem a.toNat).toInt) ∧
    WritesResult (.lbu rd rs1 imm) s rd (BitVec.ofNat 32 (Memory.get s.mem a.toNat).toNat)

/-- When no alignment exception stands in the way (never for SB) and every byte of the access is writable, SW, SH, SB
store the low 4, 2, 1 bytes of x[rs2] at the effective address, least significant byte lowest; every other byte of
memory and every register reads as before; pc + 4. (The conditions are the spec's own decisions D8 and D9.) Rests on
44_stores.md, 20_memory.md sections 2 to 4, 92_eei_decisions.md D8, 92_eei_decisions.md D9. -/
def Obligations.StoreResults : Prop :=
  ∀ (rs1 rs2 : RegNum) (imm : BitVec 12) (s : State) (a : Word), a = effectiveAddress (regRead s rs1) imm →
    (AlignmentOk s a 4 → AllWritable s a 4 → StoresResult (.sw rs1 rs2 imm) s a 4 (regRead s rs2)) ∧
    (AlignmentOk s a 2 → AllWritable s a 2 → StoresResult (.sh rs1 rs2 imm) s a 2 (regRead s rs2)) ∧
    (isWritable s.plat a = true → StoresResult (.sb rs1 rs2 imm) s a 1 (regRead s rs2))

/-- With MISALIGNED_POLICY = fault, LW and SW at an address that is no multiple of 4 and LH, LHU and SH at an odd
address raise AddressMisaligned of their kind with the effective address, whether or not the bytes are mapped; only
the status changes. (The requirement and the exception are the spec's own decisions D2, D8 and D21.) Rests on
20_memory.md section 4, 60_exceptions.md section 1, 92_eei_decisions.md D2, 92_eei_decisions.md D8,
92_eei_decisions.md D21. -/
def Obligations.MisalignedAccessRaises : Prop :=
  ∀ (rd rs1 rs2 : RegNum) (imm : BitVec 12) (s : State) (a : Word), a = effectiveAddress (regRead s rs1) imm →
    s.plat.misaligned = .fault →
    (a.toNat % 4 ≠ 0 →
      Raises (.lw rd rs1 imm) s (.addressMisaligned .load a) ∧
      Raises (.sw rs1 rs2 imm) s (.addressMisaligned .store a)) ∧
    (a.toNat % 2 ≠ 0 →
      Raises (.lh rd rs1 imm) s (.addressMisaligned .load a) ∧
      Raises (.lhu rd rs1 imm) s (.addressMisaligned .load a) ∧
      Raises (.sh rs1 rs2 imm) s (.addressMisaligned .store a))

/-- When no alignment exception comes first and byte k of the access is the first that is not mapped (a load) or not
writable (a store), the instruction raises AccessFault of its kind with the address of that byte; only the status
changes, so a store writes none of its bytes. (The parameters, the exception and the order are the spec's own
decisions D2, D9, D21, D22.) Rests on 20_memory.md sections 1 and 3, 60_exceptions.md section 1, 92_eei_decisions.md
D2, 92_eei_decisions.md D9, 92_eei_decisions.md D21, 92_eei_decisions.md D22. -/
def Obligations.AccessOutsideMemoryRaises : Prop :=
  ∀ (rd rs1 rs2 : RegNum) (imm : BitVec 12) (s : State) (a : Word) (k : Nat),
    a = effectiveAddress (regRead s rs1) imm →
    (AlignmentOk s a 4 → FirstFails (isMapped s.plat) a 4 k →
      Raises (.lw rd rs1 imm) s (.accessFault .load (nthAddr a k))) ∧
    (AlignmentOk s a 2 → FirstFails (isMapped s.plat) a 2 k →
      Raises (.lh rd rs1 imm) s (.accessFault .load (nthAddr a k)) ∧
      Raises (.lhu rd rs1 imm) s (.accessFault .load (nthAddr a k))) ∧
    (isMapped s.plat a = false →
      Raises (.lb rd rs1 imm) s (.accessFault .load a) ∧ Raises (.lbu rd rs1 imm) s (.accessFault .load a)) ∧
    (AlignmentOk s a 4 → FirstFails (isWritable s.plat) a 4 k →
      Raises (.sw rs1 rs2 imm) s (.accessFault .store (nthAddr a k))) ∧
    (AlignmentOk s a 2 → FirstFails (isWritable s.plat) a 2 k →
      Raises (.sh rs1 rs2 imm) s (.accessFault .store (nthAddr a k))) ∧
    (isWritable s.plat a = false → Raises (.sb rs1 rs2 imm) s (.accessFault .store a))

/-- A halfword v written at a puts v[7:0] at a and v[15:8] at a+1; a word v puts v[7:0], v[15:8], v[23:16], v[31:24]
at a to a+3; a halfword or word read at a has the byte at the lowest address least significant. This holds wherever
the access is allowed. Formalises R41. -/
def Obligations.DataIsLittleEndian : Prop :=
  ∀ (s : State) (a v : Word),
    (AlignmentOk s a 2 → AllWritable s a 2 → ∃ t, memWrite s a 2 v = .ok t ∧
      nthByte t a 0 = v.extractLsb' 0 8 ∧ nthByte t a 1 = v.extractLsb' 8 8) ∧
    (AlignmentOk s a 4 → AllWritable s a 4 → ∃ t, memWrite s a 4 v = .ok t ∧
      nthByte t a 0 = v.extractLsb' 0 8 ∧ nthByte t a 1 = v.extractLsb' 8 8 ∧
      nthByte t a 2 = v.extractLsb' 16 8 ∧ nthByte t a 3 = v.extractLsb' 24 8) ∧
    (AlignmentOk s a 2 → AllMapped s a 2 →
      memRead s a 2 = .ok (nthByte s a 1 ++ nthByte s a 0).toNat) ∧
    (AlignmentOk s a 4 → AllMapped s a 4 →
      memRead s a 4 = .ok (nthByte s a 3 ++ nthByte s a 2 ++ nthByte s a 1 ++ nthByte s a 0).toNat)

/-- After MemWrite of a word v at an allowed address: the byte reads of its four addresses give its four bytes, the
halfword reads at a and a+2 its halves, the word read v; after four byte writes to the four addresses the word read
gives their concatenation. Rests on 20_memory.md section 2, 20_memory.md section 3. -/
def Obligations.MixedWidthsSeeTheSameBytes : Prop :=
  ∀ (s : State) (a v : Word), AlignmentOk s a 4 → AllWritable s a 4 →
    (∃ t, memWrite s a 4 v = .ok t ∧
      (∀ k, k < 4 → memRead t (nthAddr a k) 1 = .ok (v.toNat / 256 ^ k % 256)) ∧
      memRead t a 2 = .ok (v.toNat % 65536) ∧ memRead t (nthAddr a 2) 2 = .ok (v.toNat / 65536) ∧
      memRead t a 4 = .ok v.toNat) ∧
    (∀ b0 b1 b2 b3 : Byte, ∃ t0 t1 t2 t3,
      memWrite s (nthAddr a 0) 1 (b0.setWidth 32) = .ok t0 ∧
      memWrite t0 (nthAddr a 1) 1 (b1.setWidth 32) = .ok t1 ∧
      memWrite t1 (nthAddr a 2) 1 (b2.setWidth 32) = .ok t2 ∧
      memWrite t2 (nthAddr a 3) 1 (b3.setWidth 32) = .ok t3 ∧
      memRead t3 a 4 = .ok (b3 ++ b2 ++ b1 ++ b0).toNat)

/-- BEQ is taken when x[rs1] = x[rs2], BNE when they differ. Taken to an aligned target the branch completes at pc +
offset modulo 2^32; not taken it completes at pc + 4, whatever its offset; no register, no memory, not the status nor
the output changes. (Where the misaligned-target exception stands and the wrap-around are the spec's own decisions D7
and D10.) Rests on 45_branches.md, 92_eei_decisions.md D7, 92_eei_decisions.md D10. -/
def Obligations.EqualityBranches : Prop :=
  ∀ (rs1 rs2 : RegNum) (imm : BitVec 13) (s : State),
    BranchesWhen (.beq rs1 rs2 imm) s (regRead s rs1 = regRead s rs2)
      (BitVec.ofInt 32 (s.pc.toInt + imm.toInt)) ∧
    BranchesWhen (.bne rs1 rs2 imm) s (regRead s rs1 ≠ regRead s rs2)
      (BitVec.ofInt 32 (s.pc.toInt + imm.toInt))

/-- BLT is taken when signed(x[rs1]) < signed(x[rs2]), BGE when signed(x[rs1]) >= signed(x[rs2]). Taken to an aligned
target the branch completes at pc + offset modulo 2^32; not taken it completes at pc + 4, whatever its offset; no
register, no memory, not the status nor the output changes. (Where the misaligned-target exception stands and the
wrap-around are the spec's own decisions D7 and D10.) Rests on 45_branches.md, 92_eei_decisions.md D7,
92_eei_decisions.md D10. -/
def Obligations.SignedBranches : Prop :=
  ∀ (rs1 rs2 : RegNum) (imm : BitVec 13) (s : State),
    BranchesWhen (.blt rs1 rs2 imm) s ((regRead s rs1).toInt < (regRead s rs2).toInt)
      (BitVec.ofInt 32 (s.pc.toInt + imm.toInt)) ∧
    BranchesWhen (.bge rs1 rs2 imm) s ((regRead s rs1).toInt ≥ (regRead s rs2).toInt)
      (BitVec.ofInt 32 (s.pc.toInt + imm.toInt))

/-- BLTU is taken when unsigned(x[rs1]) < unsigned(x[rs2]), BGEU when unsigned(x[rs1]) >= unsigned(x[rs2]). Taken to
an aligned target the branch completes at pc + offset modulo 2^32; not taken it completes at pc + 4, whatever its
offset; no register, no memory, not the status nor the output changes. (Where the misaligned-target exception stands
and the wrap-around are the spec's own decisions D7 and D10.) Rests on 45_branches.md, 92_eei_decisions.md D7,
92_eei_decisions.md D10. -/
def Obligations.UnsignedBranches : Prop :=
  ∀ (rs1 rs2 : RegNum) (imm : BitVec 13) (s : State),
    BranchesWhen (.bltu rs1 rs2 imm) s ((regRead s rs1).toNat < (regRead s rs2).toNat)
      (BitVec.ofInt 32 (s.pc.toInt + imm.toInt)) ∧
    BranchesWhen (.bgeu rs1 rs2 imm) s ((regRead s rs1).toNat ≥ (regRead s rs2).toNat)
      (BitVec.ofInt 32 (s.pc.toInt + imm.toInt))

/-- When pc plus the signed offset modulo 2^32 is a multiple of 4, JAL completes: pc is that target, rd holds the old
pc + 4 (dropped for x0), nothing else changes. (The exception on other targets and the wrap-around are the spec's own
decisions D7 and D10.) Rests on 46_jumps.md, 92_eei_decisions.md D7, 92_eei_decisions.md D10. -/
def Obligations.JumpAndLinkResult : Prop :=
  ∀ (rd : RegNum) (imm : BitVec 21) (s : State) (p : Word),
    p = (BitVec.ofInt 32 (s.pc.toInt + imm.toInt)) → p.toNat % 4 = 0 →
    ∃ t, exec (.jal rd imm) s = .next t ∧ t.pc = p ∧ WritesOnly s t rd (s.pc + 4#32)

/-- When the sum of x[rs1] before the instruction and the signed displacement modulo 2^32, with bit 0 cleared, is a
multiple of 4, JALR completes: pc is that target, rd holds the old pc + 4 (dropped for x0), nothing else changes; rd
may be rs1. (Reading before writing is the spec's own decision D6, the exception on other targets D7, the wrap-around
D10.) Rests on 46_jumps.md, 90_conflicts.md C5, 92_eei_decisions.md D6, 92_eei_decisions.md D7, 92_eei_decisions.md
D10. -/
def Obligations.JumpAndLinkRegisterResult : Prop :=
  ∀ (rd rs1 : RegNum) (imm : BitVec 12) (s : State) (p : Word),
    p.toNat = (BitVec.ofInt 32 ((regRead s rs1).toInt + imm.toInt)).toNat / 2 * 2 → p.toNat % 4 = 0 →
    ∃ t, exec (.jalr rd rs1 imm) s = .next t ∧ t.pc = p ∧ WritesOnly s t rd (s.pc + 4#32)

/-- If the target p is no multiple of 4, a branch whose condition holds, JAL, and JALR raise
InstructionAddressMisaligned(p); only the status changes: no link register, no pc. (Which instruction reports it, and
when, is the spec's own decision D7; what an exception does is D2.) Rests on 45_branches.md, 46_jumps.md,
60_exceptions.md section 1, 92_eei_decisions.md D2, 92_eei_decisions.md D7. -/
def Obligations.MisalignedTargetRaises : Prop :=
  ∀ (rd rs1 rs2 : RegNum) (bimm : BitVec 13) (jimm : BitVec 21) (imm : BitVec 12) (s : State) (p : Word),
    p.toNat % 4 ≠ 0 →
    (p = BitVec.ofInt 32 (s.pc.toInt + bimm.toInt) →
      (regRead s rs1 = regRead s rs2 → Raises (.beq rs1 rs2 bimm) s (.instructionAddressMisaligned p)) ∧
      (regRead s rs1 ≠ regRead s rs2 → Raises (.bne rs1 rs2 bimm) s (.instructionAddressMisaligned p)) ∧
      ((regRead s rs1).toInt < (regRead s rs2).toInt → Raises (.blt rs1 rs2 bimm) s (.instructionAddressMisaligned p)) ∧
      ((regRead s rs1).toInt ≥ (regRead s rs2).toInt → Raises (.bge rs1 rs2 bimm) s (.instructionAddressMisaligned p)) ∧
      ((regRead s rs1).toNat < (regRead s rs2).toNat → Raises (.bltu rs1 rs2 bimm) s (.instructionAddressMisaligned p)) ∧
      ((regRead s rs1).toNat ≥ (regRead s rs2).toNat → Raises (.bgeu rs1 rs2 bimm) s (.instructionAddressMisaligned p))) ∧
    (p = BitVec.ofInt 32 (s.pc.toInt + jimm.toInt) →
      Raises (.jal rd jimm) s (.instructionAddressMisaligned p)) ∧
    (p.toNat = (BitVec.ofInt 32 ((regRead s rs1).toInt + imm.toInt)).toNat / 2 * 2 →
      Raises (.jalr rd rs1 imm) s (.instructionAddressMisaligned p))

/-- In the default SYSCALL_TABLE 1 is print integer, 4 print string, 10 exit, 93 exit with code, and every other
32-bit number has no service. (That other numbers have none is the spec's own decision D13.) Rests on 47_system.md,
92_eei_decisions.md D13. -/
def Obligations.DefaultServiceTable : Prop :=
  ∀ n : Word, lookupService Config.defaultSyscalls n =
    if n.toNat = 1 then some .printInteger else if n.toNat = 4 then some .printString
    else if n.toNat = 10 then some .exit else if n.toNat = 93 then some .exitWithCode else none

/-- When the table maps a0 (x10) to print integer, ECALL completes: the event PrintInt(x[11]) is appended to out and
pc becomes pc + 4; no register and no memory changes. (The advance and the event are the spec's own decisions D12 and
D14.) Rests on 47_system.md, 90_conflicts.md C3, 92_eei_decisions.md D12, 92_eei_decisions.md D14. -/
def Obligations.EcallPrintInteger : Prop :=
  ∀ s : State, lookupService s.plat.syscalls (regRead s 10#5) = some .printInteger →
    exec .ecall s = .next { s with out := s.out ++ [.printInt (regRead s 11#5)], pc := s.pc + 4#32 }

/-- When the table maps a0 to print string, and byte k from the address in a1 (modulo 2^32) is the first zero byte
and it and all before it are mapped, ECALL completes: the event PrintString with bytes 0 to k-1 is appended to out,
pc becomes pc + 4; nothing else changes, at any alignment. (The spec's own decisions D12 and D15.) Rests on
47_system.md, 92_eei_decisions.md D12, 92_eei_decisions.md D15. -/
def Obligations.EcallPrintString : Prop :=
  ∀ (s : State) (p : Word) (k : Nat), lookupService s.plat.syscalls (regRead s 10#5) = some .printString →
    p = regRead s 11#5 → k < 4294967296 → (∀ j, j ≤ k → isMapped s.plat (nthAddr p j) = true) →
    (∀ j, j < k → nthByte s p j ≠ 0x00#8) → nthByte s p k = 0x00#8 →
    exec .ecall s =
      .next { s with out := s.out ++ [.printString ((List.range k).map (nthByte s p))], pc := s.pc + 4#32 }

/-- When the table maps a0 to print string: if byte k is the first unmapped one and none before it is zero, ECALL
raises AccessFault(load, its address); if all 2^32 bytes are mapped and none is zero it raises AccessFault(load, a1);
only the status changes and nothing is appended to out. (The spec's own decisions D2 and D15.) Rests on 47_system.md,
92_eei_decisions.md D2, 92_eei_decisions.md D15. -/
def Obligations.EcallPrintStringRaises : Prop :=
  ∀ (s : State) (p : Word), lookupService s.plat.syscalls (regRead s 10#5) = some .printString →
    p = regRead s 11#5 →
    (∀ k, k < 4294967296 → (∀ j, j < k → isMapped s.plat (nthAddr p j) = true) →
      (∀ j, j < k → nthByte s p j ≠ 0x00#8) → isMapped s.plat (nthAddr p k) = false →
      Raises .ecall s (.accessFault .load (nthAddr p k))) ∧
    ((∀ a : Word, isMapped s.plat a = true ∧ Memory.get s.mem a.toNat ≠ 0x00#8) →
      Raises .ecall s (.accessFault .load p))

/-- When the table maps a0 to exit, ECALL completes with status Halted(Exit); when it maps a0 to exit with code, with
Halted(ExitCode(x[11])); nothing else changes and pc stays. (The spec's own decision D16.) Rests on 47_system.md,
92_eei_decisions.md D16. -/
def Obligations.EcallExits : Prop :=
  ∀ s : State,
    (lookupService s.plat.syscalls (regRead s 10#5) = some .exit →
      exec .ecall s = .next { s with status := .halted .exit }) ∧
    (lookupService s.plat.syscalls (regRead s 10#5) = some .exitWithCode →
      exec .ecall s = .next { s with status := .halted (.exitCode (regRead s 11#5)) })

/-- When SYSCALL_TABLE has no entry for a0, ECALL raises UnknownEnvironmentCall(x[10]). When it maps a0 to a service
that the platform adds, ECALL completes, and what it does follows what the platform says the service does with what
it reads: it halts with Exit or ExitCode(c); it raises AccessFault(load, a); or it goes on: when every byte it is to
write is in WRITABLE, pc becomes pc + 4, no register changes, no other byte changes, each byte is the last one
written to its address, and its events are appended to out; when one is not, the first raises AccessFault(store, that
byte). An exception or a halt changes the status alone. (The fault for other numbers is the spec's own decisions D2
and D13; that a service writes no register and that pc goes on is D12. The form of an added service and its checks
are the model's choice, log entry 9, and the count of calls is the model's own field, log entry 17.) Rests on
47_system.md, 60_exceptions.md section 1, 92_eei_decisions.md D2, 92_eei_decisions.md D12, 92_eei_decisions.md D13.
-/
def Obligations.EcallBeyondTheFourServices : Prop :=
  ∀ s : State,
    (lookupService s.plat.syscalls (regRead s 10#5) = none →
      Raises .ecall s (.unknownEnvironmentCall (regRead s 10#5))) ∧
    (∀ d : AddedService, lookupService s.plat.syscalls (regRead s 10#5) = some (.added d) →
      exec .ecall s = .next (performResult s
        (Config.served d.id s.calls (d.readsRegs.map (regRead s)) (memoryFor s d)))) ∧
    performResult s .exits = { s with status := .halted .exit } ∧
    (∀ c : Word, performResult s (.exitsWithCode c) = { s with status := .halted (.exitCode c) }) ∧
    (∀ a : Word, performResult s (.loadFault a) = { s with status := .faulted (.accessFault .load a) }) ∧
    (∀ (pre post : List (Word × Byte)) (a : Word) (v : Byte) (events : List Event),
      (∀ c ∈ pre, isWritable s.plat c.1 = true) → isWritable s.plat a = false →
      performResult s (.goesOn (pre ++ (a, v) :: post) events) =
        { s with status := .faulted (.accessFault .store a) }) ∧
    ∀ (stores : List (Word × Byte)) (events : List Event) (t : State),
      (∀ c ∈ stores, isWritable s.plat c.1 = true) → t = performResult s (.goesOn stores events) →
      t.pc = s.pc + 4#32 ∧ KeepsRegs s t ∧ t.status = s.status ∧ t.out = s.out ++ events ∧
      t.plat = s.plat ∧ t.calls = s.calls + 1 ∧
      (∀ x : Nat, (∀ c ∈ stores, x ≠ c.1.toNat) → Memory.get t.mem x = Memory.get s.mem x) ∧
      ∀ (pre post : List (Word × Byte)) (a : Word) (v : Byte), stores = pre ++ (a, v) :: post →
        (∀ c ∈ post, a ≠ c.1) → Memory.get t.mem a.toNat = v

/-- EBREAK completes in every state: the status becomes Halted(Break), no register, memory or output changes, pc
stays. (The spec's own decision D16.) Rests on 47_system.md, 90_conflicts.md C9, 92_eei_decisions.md D16. -/
def Obligations.EbreakHalts : Prop :=
  ∀ s : State, exec .ebreak s = .next { s with status := .halted .break_ }

/-- In a running state with an aligned pc whose four bytes are mapped, if the word of these bytes (the lowest address
least significant) decodes to i, then the step is exactly what i does to the state: nothing is added around it. Rests
on 10_state.md section 3, 20_memory.md sections 2 and 3. -/
def Obligations.StepRunsDecodedInstruction : Prop :=
  ∀ (s : State) (i : Instr), s.status = .running → s.pc.toNat % 4 = 0 → AllMapped s s.pc 4 →
    decodeWord (nthByte s s.pc 3 ++ nthByte s s.pc 2 ++ nthByte s s.pc 1 ++ nthByte s s.pc 0) = .ok i →
    step s = exec i s

/-- In a running state: a pc that is no multiple of 4 raises InstructionAddressMisaligned(pc); with an aligned pc the
first unmapped of the four bytes raises AccessFault(fetch, its address); with all mapped a word that decodes to
nothing raises IllegalInstruction(w); only the status changes. (The spec's own decisions D2, D3, D9, D21.) Rests on
10_state.md section 3, 60_exceptions.md sections 1 and 3, 92_eei_decisions.md D2, 92_eei_decisions.md D3,
92_eei_decisions.md D9, 92_eei_decisions.md D21. -/
def Obligations.StepExceptionsInOrder : Prop :=
  ∀ s : State, s.status = .running →
    (s.pc.toNat % 4 ≠ 0 → step s = .next { s with status := .faulted (.instructionAddressMisaligned s.pc) }) ∧
    (∀ k, s.pc.toNat % 4 = 0 → FirstFails (isMapped s.plat) s.pc 4 k →
      step s = .next { s with status := .faulted (.accessFault .fetch (nthAddr s.pc k)) }) ∧
    (∀ (w : Word) (e : Reject), s.pc.toNat % 4 = 0 → AllMapped s s.pc 4 →
      w = nthByte s s.pc 3 ++ nthByte s s.pc 2 ++ nthByte s s.pc 1 ++ nthByte s s.pc 0 → decodeWord w = .error e →
      step s = .next { s with status := .faulted (.illegalInstruction w) })

/-- In every state with status Running the step answers a next state (an exception is one too); in every other state
it answers the fault notRunning. Nothing is ever refused. (Log entries 6 and 7 say how the spec's "takes no step" and
its terminal exceptions are written.) Rests on 10_state.md section 3, 60_exceptions.md section 2. -/
def Obligations.StepExactlyWhileRunning : Prop :=
  ∀ s : State, (s.status = .running → ∃ t, step s = .next t) ∧ (s.status ≠ .running → step s = .fault .notRunning)

/-- For every step of every state: if the state after it is Faulted, it is the state before with only the status
changed, so that no register, no byte of memory, no output and not pc was written by the instruction that raised.
(The spec's own decision D2.) Rests on 60_exceptions.md section 2, 92_eei_decisions.md D2. -/
def Obligations.ExceptionsArePrecise : Prop :=
  ∀ (s t : State) (e : Exc), step s = .next t → t.status = .faulted e → t = { s with status := .faulted e }

/-- For every step of every state: if the state after it is Halted(r), then the word at pc is EBREAK and r is Break,
or it is ECALL, the table maps a0 to exit and r is Exit, or the table maps a0 to exit with code and r is
ExitCode(a1), or it maps a0 to a service that the platform adds and that ends the run so; and the state is the one
before with only the status changed. (The spec's own decisions D5 and D16; the form of an added service is the
model's, log entry 9.) Rests on 47_system.md, 92_eei_decisions.md D5, 92_eei_decisions.md D16. -/
def Obligations.OnlyEndingServicesAndEbreakHalt : Prop :=
  ∀ (s t : State) (r : HaltReason), step s = .next t → t.status = .halted r →
    t = { s with status := .halted r } ∧
    ∃ w : Word, w = nthByte s s.pc 3 ++ nthByte s s.pc 2 ++ nthByte s s.pc 1 ++ nthByte s s.pc 0 ∧
      ((w = 0x00100073#32 ∧ r = .break_) ∨
        (w = 0x00000073#32 ∧ lookupService s.plat.syscalls (regRead s 10#5) = some .exit ∧ r = .exit) ∨
        (w = 0x00000073#32 ∧ lookupService s.plat.syscalls (regRead s 10#5) = some .exitWithCode ∧
          r = .exitCode (regRead s 11#5)) ∨
        (w = 0x00000073#32 ∧ ∃ d, lookupService s.plat.syscalls (regRead s 10#5) = some (.added d) ∧
          ((resultOf s d = .exits ∧ r = .exit) ∨ ∃ c, resultOf s d = .exitsWithCode c ∧ r = .exitCode c)))

/-- If a state has its memory in the canonical form with listed bytes only inside MAPPED and pc a multiple of 4, then
so has every state a step makes of it. (The alignment part rests on the spec's own decision D7; the canonical form is
the model's.) Rests on 10_state.md section 3, 20_memory.md section 4, 92_eei_decisions.md D7. -/
def Obligations.StepKeepsInv : Prop :=
  ∀ s t : State, WfState s = true → step s = .next t → WfState t = true

/-- State.reset has an aligned pc and memory in its canonical form, is Running with no output, and is the initial
state for the default launch. The values of that launch are the model's choices (log entries 1, 2, 3, 5 and 17); the
statement rests on them. Rests on 10_state.md section 9, 70_reset_and_hazards.md section 1, 92_eei_decisions.md D11.
-/
def Obligations.ResetMeetsInv : Prop :=
  WfState State.reset = true ∧ State.reset.status = .running ∧ State.reset.out = [] ∧
  State.reset = start Config.defaultLaunch

/-- For every MAPPED, WRITABLE, MISALIGNED_POLICY, SYSCALL_TABLE, IMAGE, ENTRY_PC and INIT_REGS: pc is ENTRY_PC, the
status is Running, out is empty, x1 to x31 are INIT_REGS, every mapped byte that IMAGE lists holds what IMAGE lists
first for it, and every other mapped byte holds whatever value the launch names for it, none of them assumed; with an
aligned entry point the invariant holds; with another the first step raises InstructionAddressMisaligned(ENTRY_PC).
(The spec's own decisions D2, D7, D11.) Rests on 10_state.md section 9, 70_reset_and_hazards.md section 1,
92_eei_decisions.md D2, 92_eei_decisions.md D7, 92_eei_decisions.md D11. -/
def Obligations.StartOfARun : Prop :=
  ∀ l : Launch,
    (start l).pc = l.entryPc ∧ (start l).status = .running ∧ (start l).out = [] ∧ (start l).plat = l.plat ∧
    (∀ r : RegNum, r ≠ 0#5 → regRead (start l) r = l.initRegs.get (regIndex r)) ∧
    (∀ (a : Word) (pre post : List Host.Cell) (b : Byte), isMapped l.plat a = true →
      l.image = pre ++ (a.toNat, b) :: post → (∀ c ∈ pre, c.1 ≠ a.toNat) →
      Memory.get (start l).mem a.toNat = b) ∧
    (∀ a : Word, isMapped l.plat a = true → (∀ c ∈ l.image, c.1 ≠ a.toNat) →
      Memory.get (start l).mem a.toNat = l.unloaded a) ∧
    (l.entryPc.toNat % 4 = 0 → WfState (start l) = true) ∧
    (l.entryPc.toNat % 4 ≠ 0 →
      step (start l) = .next { start l with status := .faulted (.instructionAddressMisaligned l.entryPc) })

/-- For every step and every address: if the byte there reads differently after the step, then the address is in
WRITABLE and the instruction run is SW, SH or SB with the address among the 4, 2 or 1 bytes from its effective
address up, or ECALL for a service that the platform adds and that writes the address. (WRITABLE is the spec's own
decision D9; none of the spec's four services writes memory; the form of an added service is the model's, log entry
9.) Rests on 10_state.md section 7, 20_memory.md sections 1, 3 and 5, 92_eei_decisions.md D9. -/
def Obligations.OnlyStoresAndAddedServicesChangeMemory : Prop :=
  ∀ (s t : State) (a : Word), step s = .next t → Memory.get t.mem a.toNat ≠ Memory.get s.mem a.toNat →
    isWritable s.plat a = true ∧
    ((∃ (rs1 rs2 : RegNum) (imm : BitVec 12) (k : Nat), a = nthAddr (effectiveAddress (regRead s rs1) imm) k ∧
      ((fetchInstr s = .ok (.sw rs1 rs2 imm) ∧ k < 4) ∨ (fetchInstr s = .ok (.sh rs1 rs2 imm) ∧ k < 2) ∨
        (fetchInstr s = .ok (.sb rs1 rs2 imm) ∧ k < 1))) ∨
      (fetchInstr s = .ok .ecall ∧ ∃ d stores events,
        lookupService s.plat.syscalls (regRead s 10#5) = some (.added d) ∧
        resultOf s d = .goesOn stores events ∧ ∃ c ∈ stores, a = c.1))

/-- If t is reached from s by any number of steps, then the parameters of t are those of s, the output of t extends
that of s at its end, and if the run had already ended in s then t is s. (Status and output are the spec's own
record, decisions D2, D14, D16.) Rests on 10_state.md sections 1 and 8, 92_eei_decisions.md D2, 92_eei_decisions.md
D14, 92_eei_decisions.md D16. -/
def Obligations.RunsOnlyAppendOutput : Prop :=
  ∀ s t : State, Reaches s t →
    t.plat = s.plat ∧ (∃ es, t.out = s.out ++ es) ∧ (s.status ≠ .running → t = s)

/-- If a step goes from s to t, then t's output is s's output with some events appended, and the same step from s
with any other output goes to t with the same events appended to that output: nothing else depends on it. (The spec's
own decision D14.) Rests on 10_state.md section 8, 92_eei_decisions.md D14. -/
def Obligations.OutputIsNeverRead : Prop :=
  ∀ (s t : State) (o : List Event), step s = .next t →
    ∃ es, t.out = s.out ++ es ∧ step { s with out := o } = .next { t with out := o ++ es }

/-- If under MISALIGNED_POLICY = fault a step goes to t and does not end in AddressMisaligned, then under bytewise,
all else equal, it goes to the same t: what is proved under fault holds under bytewise. (The spec's own decision D8.)
Rests on 20_memory.md section 4, 92_eei_decisions.md D8. -/
def Obligations.BytewiseAgreesWithFault : Prop :=
  ∀ s t : State, s.plat.misaligned = .fault → step s = .next t →
    (∀ (k : DataKind) (a : Word), t.status ≠ .faulted (.addressMisaligned k a)) →
    step { s with plat := { s.plat with misaligned := .bytewise } } =
      .next { t with plat := { t.plat with misaligned := .bytewise } }

/-- For every instruction and state with a next state, every register that is not the instruction's rd reads as
before; the three stores, the six branches, ECALL and EBREAK have no rd. (The list is the spec's own reading of the
operation lines; that ECALL writes none is its decision D12.) Rests on 10_state.md section 2, 92_eei_decisions.md
D12. -/
def Obligations.OnlyDestinationRegisterChanges : Prop :=
  ∀ (i : Instr) (s t : State) (r : RegNum), exec i s = .next t → destination i ≠ some r → regRead t r = regRead s r

/-- If two states differ only in registers that are not sources of the instruction (for ECALL: a0, a1, and the
registers that an added service it asks for says it reads), then its next states agree on pc, memory, status, output
and the count of added calls, and its destination register either holds the same value in both or was written in
neither. (The list of sources is the spec's own reading of the operation lines; the form of an added service is the
model's, log entry 9.) Rests on 10_state.md section 2. -/
def Obligations.OnlySourceRegistersAreRead : Prop :=
  ∀ (i : Instr) (s s' t t' : State),
    s'.pc = s.pc → s'.mem = s.mem → s'.status = s.status → s'.out = s.out → s'.plat = s.plat →
    s'.calls = s.calls → (∀ r ∈ sourcesIn s i, regRead s' r = regRead s r) → exec i s = .next t →
    exec i s' = .next t' →
    t'.pc = t.pc ∧ t'.mem = t.mem ∧ t'.status = t.status ∧ t'.out = t.out ∧ t'.calls = t.calls ∧
    ∀ d, destination i = some d →
      regRead t' d = regRead t d ∨ (regRead t d = regRead s d ∧ regRead t' d = regRead s' d)

/-- If SW at an aligned writable address completes, then a fetch from that address right after decodes the stored
word: the instruction it stands for, or IllegalInstruction with it. (The spec's own decisions D3 and D18.) Rests on
20_memory.md section 8, 92_eei_decisions.md D3, 92_eei_decisions.md D18. -/
def Obligations.StoreIsSeenByNextFetch : Prop :=
  ∀ (rs1 rs2 : RegNum) (imm : BitVec 12) (s : State) (a : Word), a = effectiveAddress (regRead s rs1) imm →
    a.toNat % 4 = 0 → AllWritable s a 4 →
    ∃ t, exec (.sw rs1 rs2 imm) s = .next t ∧
      (∀ i, decodeWord (regRead s rs2) = .ok i → fetchInstr { t with pc := a } = .ok i) ∧
      (∀ e, decodeWord (regRead s rs2) = .error e →
        fetchInstr { t with pc := a } = .error (.illegalInstruction (regRead s rs2)))

/-- ADDI rd,x0,imm sets rd to the signed constant; ADDI rd,rs1,0 copies; XORI rd,rs1,-1 inverts all bits; SLTU
rd,x0,rs2 gives 1 exactly for a nonzero register; SLTIU rd,rs1,1 gives 1 exactly for zero; JAL ra,offset links ra and
jumps; JAL x0,offset jumps and changes no register; JALR x0,ra,0 jumps to ra with bit 0 cleared and changes no
register. The jumps are to aligned targets. (Wrap-around D10, misaligned targets D7 are the spec's own decisions.)
Rests on 30_encoding.md section 6, 92_eei_decisions.md D7, 92_eei_decisions.md D10. -/
def Obligations.IdiomsDoWhatTheSourceSays : Prop :=
  ∀ (rd r : RegNum) (imm : BitVec 12) (offset : BitVec 21) (s : State),
    WritesResult (idiomSet rd imm) s rd (BitVec.ofInt 32 imm.toInt) ∧
    WritesResult (idiomCopy rd r) s rd (regRead s r) ∧
    (∃ v, (∀ k, k < 32 → v.getLsbD k = !(regRead s r).getLsbD k) ∧ WritesResult (idiomNot rd r) s rd v) ∧
    WritesResult (idiomIsNonzero rd r) s rd (if regRead s r = 0#32 then 0#32 else 1#32) ∧
    WritesResult (idiomIsZero rd r) s rd (if regRead s r = 0#32 then 1#32 else 0#32) ∧
    (∀ p : Word, p = BitVec.ofInt 32 (s.pc.toInt + offset.toInt) → p.toNat % 4 = 0 →
      (∃ t, exec (idiomCall offset) s = .next t ∧ t.pc = p ∧ WritesOnly s t 1#5 (s.pc + 4#32)) ∧
      (∃ t, exec (idiomJump offset) s = .next t ∧ MovesOnly s t p)) ∧
    (∀ p : Word, p.toNat = (regRead s 1#5).toNat / 2 * 2 → p.toNat % 4 = 0 →
      ∃ t, exec idiomReturn s = .next t ∧ MovesOnly s t p)

/-- For every constant C and register other than x0: low = C[11:0] and the upper part (C - sext(low))[31:12], which
is C[31:12] plus 1 modulo 2^20 when C[11] = 1, LUI then ADDI leave C in the register, pc + 8, and no other register
changed. Rests on 30_encoding.md section 6. -/
def Obligations.LuiAddiBuildsAnyConstant : Prop :=
  ∀ (rd : RegNum) (c : Word) (s : State), rd ≠ 0#5 →
    constantHigh c = c.extractLsb' 12 20 + (if c.getLsbD 11 then 1#20 else 0#20) ∧
    ∃ t u, exec (.lui rd (constantHigh c)) s = .next t ∧ exec (.addi rd rd (constantLow c)) t = .next u ∧
      u.pc = s.pc + 8#32 ∧ WritesOnly s u rd c

/-- From an aligned pc, a call to an aligned target links ra to pc + 4; from every state in which ra still holds that
value a return completes at pc + 4 and changes no register, no memory and no output. (Wrap-around D10, misaligned
targets D7 are the spec's own decisions.) Rests on 46_jumps.md, 10_state.md section 2, 92_eei_decisions.md D7,
92_eei_decisions.md D10. -/
def Obligations.CallThenReturnComesBack : Prop :=
  ∀ (offset : BitVec 21) (s : State) (p : Word), p = BitVec.ofInt 32 (s.pc.toInt + offset.toInt) →
    s.pc.toNat % 4 = 0 → p.toNat % 4 = 0 →
    ∃ t, exec (idiomCall offset) s = .next t ∧ t.pc = p ∧
      ∀ t' : State, regRead t' 1#5 = regRead t 1#5 →
        ∃ u, exec idiomReturn t' = .next u ∧ MovesOnly t' u (s.pc + 4#32)

/-- Memory is an array of bytes and nothing else: in the model's canonical form two memories that hold the same byte
at each of the 2^32 addresses are the same list, so equality of states is equality of what the machine holds. Rests
on 10_state.md section 7, 20_memory.md section 2. -/
def Obligations.CanonicalMemoriesWithEqualBytesAreEqual : Prop :=
  ∀ m m' : Memory, Memory.wf m = true → Memory.wf m' = true →
    (∀ a, a < addressSpace → Memory.get m a = Memory.get m' a) → m = m'
end

