-- ==== Sys2Proof/Laws/Memory.lean ====
section
/-! SUPPORT. The laws of memory: a read after a write, and the canonical form. -/

namespace Sys2Proof.Machine

theorem Memory.get_insert (m : Memory) (a b : Nat) (v : Byte) (h : ∀ c ∈ m, c.1 ≠ a) :
    Memory.get (Memory.insert m a v) b = if b = a then v else Memory.get m b := by
  induction m with
  | nil => simp [Memory.insert, Memory.get, eq_comm]
  | cons c rest ih =>
    obtain ⟨k, w⟩ := c
    have hk : k ≠ a := h (k, w) (by simp)
    have hrest : ∀ c ∈ rest, c.1 ≠ a := fun c hc => h c (by simp [hc])
    unfold Memory.insert
    split
    · by_cases hb : a = b
      · simp [Memory.get, hb]
      · simp [Memory.get, hb, Ne.symm hb]
    · by_cases hb : k = b
      · subst hb; simp [Memory.get, hk]
      · simp [Memory.get, hb, ih hrest]

theorem Memory.get_filter (m : Memory) (a b : Nat) :
    Memory.get (m.filter (fun c => c.1 != a)) b = if b = a then Config.unlistedByte else Memory.get m b := by
  induction m with
  | nil => simp [Memory.get]
  | cons c rest ih =>
    obtain ⟨k, w⟩ := c
    by_cases hk : k = a
    · subst hk
      have hd : List.filter (fun c => c.1 != k) ((k, w) :: rest) = List.filter (fun c => c.1 != k) rest := by simp
      rw [hd, ih]
      by_cases hb : b = k
      · simp [hb]
      · simp [hb, Memory.get, Ne.symm hb]
    · by_cases hb : k = b
      · subst hb; simp [Memory.get, hk]
      · simp [Memory.get, hk, hb, ih]

/-- A read after a write: the written address reads as the byte, every other address as before. -/
theorem Memory.get_put (m : Memory) (a b : Nat) (v : Byte) :
    Memory.get (Memory.put m a v) b = if b = a then v else Memory.get m b := by
  unfold Memory.put
  simp only
  split
  · next hv => rw [Memory.get_filter]; split <;> simp_all
  · rw [Memory.get_insert _ _ _ _ (by simp), Memory.get_filter]
    split <;> simp_all

@[simp] theorem Memory.get_put_self (m : Memory) (a : Nat) (v : Byte) : Memory.get (Memory.put m a v) a = v := by
  simp [Memory.get_put]

theorem Memory.get_put_ne (m : Memory) {a b : Nat} (v : Byte) (h : b ≠ a) :
    Memory.get (Memory.put m a v) b = Memory.get m b := by
  simp [Memory.get_put, h]

/-- Every entry of a memory after a write is the written one or an old one. -/
theorem Memory.mem_put {m : Memory} {a : Nat} {v : Byte} {c : Host.Cell} (h : c ∈ Memory.put m a v) :
    c = (a, v) ∨ c ∈ m := by
  have hins : ∀ l : Memory, c ∈ Memory.insert l a v → c = (a, v) ∨ c ∈ l := by
    intro l
    induction l with
    | nil => simp [Memory.insert]
    | cons d rest ih =>
      unfold Memory.insert
      split
      · intro h; simpa using h
      · intro h
        rcases List.mem_cons.1 h with h | h
        · exact .inr (by simp [h])
        · rcases ih h with h | h
          · exact .inl h
          · exact .inr (by simp [h])
  unfold Memory.put at h
  simp only at h
  split at h
  · exact .inr (List.mem_filter.1 h).1
  · rcases hins _ h with h | h
    · exact .inl h
    · exact .inr (List.mem_filter.1 h).1

theorem Memory.wfFrom_le {m : Memory} {lo lo' : Nat} (h : lo' ≤ lo) (hm : Memory.wfFrom lo m = true) :
    Memory.wfFrom lo' m = true := by
  cases m with
  | nil => rfl
  | cons c rest =>
    simp only [Memory.wfFrom, Bool.and_eq_true, decide_eq_true_eq] at hm ⊢
    exact ⟨⟨⟨by omega, hm.1.1.2⟩, hm.1.2⟩, hm.2⟩

theorem Memory.wfFrom_filter {m : Memory} {lo : Nat} (p : Host.Cell → Bool) (hm : Memory.wfFrom lo m = true) :
    Memory.wfFrom lo (m.filter p) = true := by
  induction m generalizing lo with
  | nil => rfl
  | cons c rest ih =>
    simp only [Memory.wfFrom, Bool.and_eq_true, decide_eq_true_eq] at hm
    by_cases hp : p c
    · simp only [List.filter_cons_of_pos hp, Memory.wfFrom, Bool.and_eq_true, decide_eq_true_eq]
      exact ⟨hm.1, ih hm.2⟩
    · rw [List.filter_cons_of_neg hp]
      exact Memory.wfFrom_le (by omega) (ih hm.2)

theorem Memory.wfFrom_insert {m : Memory} {lo a : Nat} {v : Byte} (hlo : lo ≤ a) (ha : a < addressSpace)
    (hv : v ≠ Config.unlistedByte) (hne : ∀ c ∈ m, c.1 ≠ a) (hm : Memory.wfFrom lo m = true) :
    Memory.wfFrom lo (Memory.insert m a v) = true := by
  induction m generalizing lo with
  | nil => simp [Memory.insert, Memory.wfFrom, hlo, ha, hv]
  | cons c rest ih =>
    obtain ⟨k, w⟩ := c
    have hk : k ≠ a := hne (k, w) (by simp)
    have hrest : ∀ c ∈ rest, c.1 ≠ a := fun c hc => hne c (by simp [hc])
    simp only [Memory.wfFrom, Bool.and_eq_true, decide_eq_true_eq] at hm
    unfold Memory.insert
    split
    · next h =>
      simp only [Memory.wfFrom, Bool.and_eq_true, decide_eq_true_eq]
      exact ⟨⟨⟨hlo, ha⟩, hv⟩, ⟨⟨by omega, hm.1.1.2⟩, hm.1.2⟩, hm.2⟩
    · next h =>
      simp only [Memory.wfFrom, Bool.and_eq_true, decide_eq_true_eq]
      exact ⟨hm.1, ih (by omega) hrest hm.2⟩

/-- A write of a byte of the address space keeps the canonical form. -/
theorem Memory.wf_put {m : Memory} {a : Nat} (v : Byte) (ha : a < addressSpace) (hm : Memory.wf m = true) :
    Memory.wf (Memory.put m a v) = true := by
  unfold Memory.put
  simp only
  split
  · exact Memory.wfFrom_filter _ hm
  · next hv => exact Memory.wfFrom_insert (by omega) ha hv (by simp) (Memory.wfFrom_filter _ hm)

theorem word_lt_addressSpace (a : Word) : a.toNat < addressSpace := a.isLt

/-- A write of bytes keeps the canonical form. -/
theorem Memory.wf_putBytes (bs : List Byte) {m : Memory} (a : Word) (hm : Memory.wf m = true) :
    Memory.wf (Memory.putBytes m a bs) = true := by
  induction bs generalizing m a with
  | nil => exact hm
  | cons b rest ih => exact ih (a + 1#32) (Memory.wf_put b (word_lt_addressSpace a) hm)

/-- What the loader makes is in the canonical form. -/
theorem Memory.wf_load (p : Platform) (image : List Host.Cell) : Memory.wf (Memory.load p image) = true := by
  induction image with
  | nil => rfl
  | cons c rest ih =>
    unfold Memory.load
    split
    · next h => exact Memory.wf_put _ h.1 ih
    · exact ih

@[simp] theorem byteAddrs_length (a : Word) (n : Nat) : (byteAddrs a n).length = n := by
  induction n generalizing a with
  | zero => rfl
  | succ n ih => simp [byteAddrs, ih]

/-- The addresses of an access: `(a + i) mod 2^32` (20_memory.md R44). -/
theorem byteAddrs_eq_map (a : Word) (n : Nat) :
    byteAddrs a n = (List.range n).map (fun i => a + BitVec.ofNat 32 i) := by
  induction n generalizing a with
  | zero => rfl
  | succ n ih =>
    rw [byteAddrs, ih, List.range_succ_eq_map]
    simp only [List.map_cons, BitVec.add_zero, List.map_map]
    congr 1
    apply List.map_congr_left
    intro i _
    simp only [Function.comp_apply, Nat.succ_eq_add_one, BitVec.ofNat_add, BitVec.add_assoc]
    rw [BitVec.add_comm (BitVec.ofNat 32 1)]

theorem mem_byteAddrs {a b : Word} {n : Nat} :
    b ∈ byteAddrs a n ↔ ∃ i, i < n ∧ b = a + BitVec.ofNat 32 i := by
  simp [byteAddrs_eq_map, eq_comm]

/-- Every entry of a memory after a write of bytes lies at a written address or is an old one. -/
theorem Memory.mem_putBytes (bs : List Byte) {m : Memory} {a : Word} {c : Host.Cell}
    (h : c ∈ Memory.putBytes m a bs) : (∃ b ∈ byteAddrs a bs.length, c.1 = b.toNat) ∨ c ∈ m := by
  induction bs generalizing m a with
  | nil => exact .inr h
  | cons b rest ih =>
    rcases ih h with ⟨x, hx, hc⟩ | h
    · exact .inl ⟨x, by simp [byteAddrs, hx], hc⟩
    · rcases Memory.mem_put h with h | h
      · exact .inl ⟨a, by simp [byteAddrs], by simp [h]⟩
      · exact .inr h

/-- A write of bytes leaves every address outside them as it was. -/
theorem Memory.get_putBytes_of_not_mem (bs : List Byte) (m : Memory) (a : Word) (x : Nat)
    (h : ∀ b ∈ byteAddrs a bs.length, x ≠ b.toNat) : Memory.get (Memory.putBytes m a bs) x = Memory.get m x := by
  induction bs generalizing m a with
  | nil => rfl
  | cons b rest ih =>
    rw [Memory.putBytes, ih _ _ (fun c hc => h c (by simp [byteAddrs, hc])), Memory.get_put_ne]
    exact h a (by simp [byteAddrs])

/-- Addresses less than 2^32 apart differ. -/
theorem add_ofNat_inj {a : Word} {i j : Nat} (hi : i < 4294967296) (hj : j < 4294967296)
    (h : a + BitVec.ofNat 32 i = a + BitVec.ofNat 32 j) : i = j := by
  have h1 := congrArg BitVec.toNat (BitVec.add_right_inj a |>.1 h)
  simp only [BitVec.toNat_ofNat] at h1
  omega

/-- After a write of bytes, byte i lies at the i-th address. -/
theorem Memory.get_putBytes (bs : List Byte) (m : Memory) (a : Word) (i : Nat) (hi : i < bs.length)
    (hn : bs.length ≤ 4294967296) : Memory.get (Memory.putBytes m a bs) (a + BitVec.ofNat 32 i).toNat = bs[i] := by
  induction bs generalizing m a i with
  | nil => simp at hi
  | cons b rest ih =>
    rw [Memory.putBytes]
    cases i with
    | zero =>
      rw [Memory.get_putBytes_of_not_mem]
      · simp
      · intro c hc e
        obtain ⟨j, hj, rfl⟩ := mem_byteAddrs.1 hc
        have e' := BitVec.eq_of_toNat_eq e
        rw [BitVec.add_assoc] at e'
        have hlen : rest.length + 1 ≤ 4294967296 := by simpa using hn
        have : (0 : Nat) = 1 + j := add_ofNat_inj (a := a) (by omega) (by omega) (by rw [e', BitVec.ofNat_add])
        omega
    | succ i =>
      have hlen : rest.length + 1 ≤ 4294967296 := by simpa using hn
      have := ih (Memory.put m a.toNat b) (a + 1#32) i (by simpa using hi) (by omega)
      rw [BitVec.add_assoc] at this
      rw [show BitVec.ofNat 32 (i + 1) = 1#32 + BitVec.ofNat 32 i by
        rw [Nat.add_comm, BitVec.ofNat_add]]
      simpa using this

/-- Bytes written read back. -/
theorem Memory.getBytes_putBytes (bs : List Byte) (m : Memory) (a : Word) (hn : bs.length ≤ 4294967296) :
    Memory.getBytes (Memory.putBytes m a bs) a bs.length = bs := by
  apply List.ext_getElem
  · simp [Memory.getBytes]
  · intro i h1 h2
    simp only [Memory.getBytes, byteAddrs_eq_map, List.map_map, List.getElem_map, List.getElem_range,
      Function.comp_apply]
    exact Memory.get_putBytes bs m a i h2 hn

/-- `WRITABLE` is a subset of `MAPPED` (20_memory.md R40). -/
theorem isMapped_of_isWritable {p : Platform} {a : Word} (h : isWritable p a = true) : isMapped p a = true := by
  simp only [isWritable, isMapped, List.any_eq_true, Bool.and_eq_true] at h ⊢
  obtain ⟨r, hr, _, ha⟩ := h
  exact ⟨r, hr, ha⟩

/-- The start memory holds `IMAGE` on `MAPPED` (10_state.md R35). -/
theorem Memory.get_load (p : Platform) (image : List Host.Cell) (a : Word) (h : isMapped p a = true) :
    Memory.get (Memory.load p image) a.toNat = Memory.get image a.toNat := by
  induction image with
  | nil => rfl
  | cons c rest ih =>
    obtain ⟨k, v⟩ := c
    unfold Memory.load
    split
    · by_cases hk : a.toNat = k
      · simp [Memory.get, hk]
      · simp [Memory.get, Ne.symm hk, Memory.get_put_ne _ _ hk, ih]
    · next hn =>
      have hk : k ≠ a.toNat := fun e => hn ⟨e ▸ a.isLt, by simpa [e] using h⟩
      simp [Memory.get, hk, ih]

/-- The start memory lists only bytes of `MAPPED`. -/
theorem Memory.mapped_of_mem_load (p : Platform) (image : List Host.Cell) {c : Host.Cell}
    (h : c ∈ Memory.load p image) : isMapped p (BitVec.ofNat 32 c.1) = true := by
  induction image with
  | nil => simp [Memory.load] at h
  | cons d rest ih =>
    unfold Memory.load at h
    split at h
    · next hd =>
      rcases Memory.mem_put h with h | h
      · rw [h]; exact hd.2
      · exact ih h
    · exact ih h

/-- A list of bytes, as memory, reads its first entry for an address, or else what comes after it. -/
theorem Memory.get_append (m n : List Host.Cell) (a : Nat) (h : ∀ c ∈ m, c.1 ≠ a) :
    Memory.get (m ++ n) a = Memory.get n a := by
  induction m with
  | nil => rfl
  | cons c rest ih =>
    rw [List.cons_append, Memory.get, if_neg (h c (by simp))]
    exact ih (fun d hd => h d (by simp [hd]))

/-- The first entry for an address is the one that is read. -/
theorem Memory.get_first (pre post : List Host.Cell) (a : Nat) (b : Byte) (h : ∀ c ∈ pre, c.1 ≠ a) :
    Memory.get (pre ++ (a, b) :: post) a = b := by
  rw [Memory.get_append _ _ _ h, Memory.get, if_pos rfl]

/-- A list that gives every address below n its byte. -/
theorem Memory.get_range (f : Nat → Byte) (n a : Nat) (h : a < n) :
    Memory.get ((List.range n).map (fun k => (k, f k))) a = f a := by
  induction n with
  | zero => omega
  | succ n ih =>
    rw [List.range_succ, List.map_append]
    by_cases ha : a < n
    · have first : ∀ m : List Host.Cell, (∃ c ∈ m, c.1 = a) → ∀ r, Memory.get (m ++ r) a = Memory.get m a := by
        intro m
        induction m with
        | nil => simp
        | cons c rest ih' =>
          intro hm r
          by_cases hc : c.1 = a
          · simp [Memory.get, hc]
          · rw [List.cons_append, Memory.get, Memory.get, if_neg hc, if_neg hc]
            exact ih' (by simpa [hc] using hm) r
      rw [first _ ⟨(a, f a), by simp [ha], rfl⟩, ih ha]
    · have : a = n := by omega
      subst this
      exact Memory.get_first _ _ _ _ (by simp; omega)

/-- At the start a mapped byte that the image lists holds what the image lists first for it (10_state.md R35). -/
theorem Memory.get_initial_of_listed (p : Platform) (f : Word → Byte) (pre post : List Host.Cell) (a : Word) (b : Byte)
    (hm : isMapped p a = true) (h : ∀ c ∈ pre, c.1 ≠ a.toNat) :
    Memory.get (Memory.initial p (pre ++ (a.toNat, b) :: post) f) a.toNat = b := by
  rw [Memory.initial, Memory.get_load _ _ _ hm, List.append_assoc, List.cons_append]
  exact Memory.get_first _ _ _ _ h

/-- At the start a mapped byte that the image does not list holds what the launch gives it
(70_reset_and_hazards.md R241). -/
theorem Memory.get_initial_of_not_listed (p : Platform) (image : List Host.Cell) (f : Word → Byte) (a : Word)
    (hm : isMapped p a = true) (h : ∀ c ∈ image, c.1 ≠ a.toNat) :
    Memory.get (Memory.initial p image f) a.toNat = f a := by
  rw [Memory.initial, Memory.get_load _ _ _ hm, Memory.get_append _ _ _ h,
    Memory.get_range (fun k => f (BitVec.ofNat 32 k)) _ _ (word_lt_addressSpace a)]
  simp

/-- The canonical form holds at the start. -/
theorem Memory.wf_initial (p : Platform) (image : List Host.Cell) (f : Word → Byte) :
    Memory.wf (Memory.initial p image f) = true := Memory.wf_load _ _

/-- Loading nothing but bytes that an unlisted address reads as lists nothing. -/
theorem Memory.load_unlisted (p : Platform) (image : List Host.Cell) (h : ∀ c ∈ image, c.2 = Config.unlistedByte) :
    Memory.load p image = [] := by
  induction image with
  | nil => rfl
  | cons c rest ih =>
    have hc : c.2 = Config.unlistedByte := h c (by simp)
    rw [Memory.load, ih (fun d hd => h d (by simp [hd]))]
    split
    · simp [Memory.put, hc]
    · rfl

end Sys2Proof.Machine
end

