-- ==== Sys2Proof/Laws/State.lean ====
section
/-! SUPPORT. What each named update of the state leaves of each field, and the register laws (10_state.md R21). -/

namespace Sys2Proof.Machine

@[simp] theorem setPc_regs (s : State) (t : Word) : (setPc s t).regs = s.regs := rfl
@[simp] theorem setPc_pc (s : State) (t : Word) : (setPc s t).pc = t := rfl
@[simp] theorem setPc_mem (s : State) (t : Word) : (setPc s t).mem = s.mem := rfl
@[simp] theorem setPc_status (s : State) (t : Word) : (setPc s t).status = s.status := rfl
@[simp] theorem setPc_out (s : State) (t : Word) : (setPc s t).out = s.out := rfl
@[simp] theorem setPc_plat (s : State) (t : Word) : (setPc s t).plat = s.plat := rfl
@[simp] theorem setPc_calls (s : State) (t : Word) : (setPc s t).calls = s.calls := rfl

@[simp] theorem advance_regs (s : State) : (advance s).regs = s.regs := rfl
@[simp] theorem advance_pc (s : State) : (advance s).pc = s.pc + 4#32 := rfl
@[simp] theorem advance_mem (s : State) : (advance s).mem = s.mem := rfl
@[simp] theorem advance_status (s : State) : (advance s).status = s.status := rfl
@[simp] theorem advance_out (s : State) : (advance s).out = s.out := rfl
@[simp] theorem advance_plat (s : State) : (advance s).plat = s.plat := rfl
@[simp] theorem advance_calls (s : State) : (advance s).calls = s.calls := rfl

@[simp] theorem raise_regs (s : State) (e : Exc) : (raise s e).regs = s.regs := rfl
@[simp] theorem raise_pc (s : State) (e : Exc) : (raise s e).pc = s.pc := rfl
@[simp] theorem raise_mem (s : State) (e : Exc) : (raise s e).mem = s.mem := rfl
@[simp] theorem raise_status (s : State) (e : Exc) : (raise s e).status = .faulted e := rfl
@[simp] theorem raise_out (s : State) (e : Exc) : (raise s e).out = s.out := rfl
@[simp] theorem raise_plat (s : State) (e : Exc) : (raise s e).plat = s.plat := rfl
@[simp] theorem raise_calls (s : State) (e : Exc) : (raise s e).calls = s.calls := rfl

@[simp] theorem halt_regs (s : State) (r : HaltReason) : (halt s r).regs = s.regs := rfl
@[simp] theorem halt_pc (s : State) (r : HaltReason) : (halt s r).pc = s.pc := rfl
@[simp] theorem halt_mem (s : State) (r : HaltReason) : (halt s r).mem = s.mem := rfl
@[simp] theorem halt_status (s : State) (r : HaltReason) : (halt s r).status = .halted r := rfl
@[simp] theorem halt_out (s : State) (r : HaltReason) : (halt s r).out = s.out := rfl
@[simp] theorem halt_plat (s : State) (r : HaltReason) : (halt s r).plat = s.plat := rfl
@[simp] theorem halt_calls (s : State) (r : HaltReason) : (halt s r).calls = s.calls := rfl

@[simp] theorem emit_regs (s : State) (e : Event) : (emit s e).regs = s.regs := rfl
@[simp] theorem emit_pc (s : State) (e : Event) : (emit s e).pc = s.pc := rfl
@[simp] theorem emit_mem (s : State) (e : Event) : (emit s e).mem = s.mem := rfl
@[simp] theorem emit_status (s : State) (e : Event) : (emit s e).status = s.status := rfl
@[simp] theorem emit_out (s : State) (e : Event) : (emit s e).out = s.out ++ [e] := rfl
@[simp] theorem emit_plat (s : State) (e : Event) : (emit s e).plat = s.plat := rfl
@[simp] theorem emit_calls (s : State) (e : Event) : (emit s e).calls = s.calls := rfl

@[simp] theorem emitAll_regs (s : State) (es : List Event) : (emitAll s es).regs = s.regs := rfl
@[simp] theorem emitAll_pc (s : State) (es : List Event) : (emitAll s es).pc = s.pc := rfl
@[simp] theorem emitAll_mem (s : State) (es : List Event) : (emitAll s es).mem = s.mem := rfl
@[simp] theorem emitAll_status (s : State) (es : List Event) : (emitAll s es).status = s.status := rfl
@[simp] theorem emitAll_out (s : State) (es : List Event) : (emitAll s es).out = s.out ++ es := rfl
@[simp] theorem emitAll_plat (s : State) (es : List Event) : (emitAll s es).plat = s.plat := rfl
@[simp] theorem emitAll_calls (s : State) (es : List Event) : (emitAll s es).calls = s.calls := rfl

@[simp] theorem countCall_regs (s : State) : (countCall s).regs = s.regs := rfl
@[simp] theorem countCall_pc (s : State) : (countCall s).pc = s.pc := rfl
@[simp] theorem countCall_mem (s : State) : (countCall s).mem = s.mem := rfl
@[simp] theorem countCall_status (s : State) : (countCall s).status = s.status := rfl
@[simp] theorem countCall_out (s : State) : (countCall s).out = s.out := rfl
@[simp] theorem countCall_plat (s : State) : (countCall s).plat = s.plat := rfl
@[simp] theorem countCall_calls (s : State) : (countCall s).calls = s.calls + 1 := rfl

@[simp] theorem storeBytes_regs (s : State) (a : Word) (bs : List Byte) : (storeBytes s a bs).regs = s.regs := rfl
@[simp] theorem storeBytes_pc (s : State) (a : Word) (bs : List Byte) : (storeBytes s a bs).pc = s.pc := rfl
@[simp] theorem storeBytes_mem (s : State) (a : Word) (bs : List Byte) :
    (storeBytes s a bs).mem = Memory.putBytes s.mem a bs := rfl
@[simp] theorem storeBytes_status (s : State) (a : Word) (bs : List Byte) :
    (storeBytes s a bs).status = s.status := rfl
@[simp] theorem storeBytes_out (s : State) (a : Word) (bs : List Byte) : (storeBytes s a bs).out = s.out := rfl
@[simp] theorem storeBytes_plat (s : State) (a : Word) (bs : List Byte) : (storeBytes s a bs).plat = s.plat := rfl
@[simp] theorem storeBytes_calls (s : State) (a : Word) (bs : List Byte) : (storeBytes s a bs).calls = s.calls := rfl

@[simp] theorem regWrite_pc (s : State) (r : RegNum) (v : Word) : (regWrite s r v).pc = s.pc := by
  unfold regWrite; split <;> rfl
@[simp] theorem regWrite_mem (s : State) (r : RegNum) (v : Word) : (regWrite s r v).mem = s.mem := by
  unfold regWrite; split <;> rfl
@[simp] theorem regWrite_status (s : State) (r : RegNum) (v : Word) : (regWrite s r v).status = s.status := by
  unfold regWrite; split <;> rfl
@[simp] theorem regWrite_out (s : State) (r : RegNum) (v : Word) : (regWrite s r v).out = s.out := by
  unfold regWrite; split <;> rfl
@[simp] theorem regWrite_plat (s : State) (r : RegNum) (v : Word) : (regWrite s r v).plat = s.plat := by
  unfold regWrite; split <;> rfl
@[simp] theorem regWrite_calls (s : State) (r : RegNum) (v : Word) : (regWrite s r v).calls = s.calls := by
  unfold regWrite; split <;> rfl

@[simp] theorem writeResult_pc (s : State) (r : RegNum) (v : Word) : (writeResult s r v).pc = s.pc + 4#32 := by
  simp [writeResult]
@[simp] theorem writeResult_mem (s : State) (r : RegNum) (v : Word) : (writeResult s r v).mem = s.mem := by
  simp [writeResult]
@[simp] theorem writeResult_status (s : State) (r : RegNum) (v : Word) :
    (writeResult s r v).status = s.status := by
  simp [writeResult]
@[simp] theorem writeResult_out (s : State) (r : RegNum) (v : Word) : (writeResult s r v).out = s.out := by
  simp [writeResult]
@[simp] theorem writeResult_plat (s : State) (r : RegNum) (v : Word) : (writeResult s r v).plat = s.plat := by
  simp [writeResult]
@[simp] theorem writeResult_calls (s : State) (r : RegNum) (v : Word) : (writeResult s r v).calls = s.calls := by
  simp [writeResult]

/-- A register read depends on the registers alone. -/
theorem regRead_congr {s t : State} (h : t.regs = s.regs) (r : RegNum) : regRead t r = regRead s r := by
  simp [regRead, h]

@[simp] theorem regRead_setPc (s : State) (t : Word) (r : RegNum) : regRead (setPc s t) r = regRead s r := rfl
@[simp] theorem regRead_advance (s : State) (r : RegNum) : regRead (advance s) r = regRead s r := rfl
@[simp] theorem regRead_raise (s : State) (e : Exc) (r : RegNum) : regRead (raise s e) r = regRead s r := rfl
@[simp] theorem regRead_halt (s : State) (h : HaltReason) (r : RegNum) : regRead (halt s h) r = regRead s r := rfl
@[simp] theorem regRead_emit (s : State) (e : Event) (r : RegNum) : regRead (emit s e) r = regRead s r := rfl
@[simp] theorem regRead_emitAll (s : State) (es : List Event) (r : RegNum) :
    regRead (emitAll s es) r = regRead s r := rfl
@[simp] theorem regRead_countCall (s : State) (r : RegNum) : regRead (countCall s) r = regRead s r := rfl
@[simp] theorem regRead_storeBytes (s : State) (a : Word) (bs : List Byte) (r : RegNum) :
    regRead (storeBytes s a bs) r = regRead s r := rfl

/-- Two numbers other than 0 name the same place only if they are equal. -/
theorem regIndex_inj {r q : RegNum} (hr : r ≠ 0#5) (hq : q ≠ 0#5) (h : regIndex r = regIndex q) : r = q := by
  have h' : r.toNat - 1 = q.toNat - 1 := by simpa [regIndex] using h
  have h1 : r.toNat ≠ 0 := fun e => hr (BitVec.eq_of_toNat_eq (by simpa using e))
  have h2 : q.toNat ≠ 0 := fun e => hq (BitVec.eq_of_toNat_eq (by simpa using e))
  exact BitVec.eq_of_toNat_eq (by omega)

/-- What a register reads as after a write (10_state.md R21). -/
theorem regRead_regWrite (s : State) (rd r : RegNum) (v : Word) :
    regRead (regWrite s rd v) r = if r = rd ∧ rd ≠ 0#5 then v else regRead s r := by
  unfold regRead regWrite
  by_cases hd : rd = 0#5
  · simp [hd]
  · by_cases hr : r = 0#5
    · simp [hr, hd, Ne.symm hd]
    · by_cases h : r = rd
      · subst h; simp [hr, Vector.get_eq_getElem]
      · have hne : (regIndex rd).val ≠ (regIndex r).val := fun e =>
          h (regIndex_inj hr hd (Fin.ext e.symm))
        simp [hd, hr, h, Vector.get_eq_getElem, Vector.getElem_set_ne, hne]

@[simp] theorem regRead_zero (s : State) : regRead s 0#5 = 0#32 := by simp [regRead]

@[simp] theorem regWrite_zero (s : State) (v : Word) : regWrite s 0#5 v = s := by simp [regWrite]

theorem regRead_writeResult (s : State) (rd r : RegNum) (v : Word) :
    regRead (writeResult s rd v) r = if r = rd ∧ rd ≠ 0#5 then v else regRead s r := by
  simp only [writeResult, regRead_advance, regRead_regWrite]

end Sys2Proof.Machine
end

