-- ==== Sys2Proof/Laws/Ops.lean ====
section
/-! SUPPORT. What each shared operation can do: one lemma per operation, which proofs cite instead of unfolding it. -/

namespace Sys2Proof.Machine

/-! ### Bytes -/

theorem valueLE_lt (bs : List Byte) : valueLE bs < 256 ^ bs.length := by
  induction bs with
  | nil => simp [valueLE]
  | cons b rest ih =>
    have := b.isLt
    simp only [valueLE, List.length_cons, Nat.pow_succ]
    omega

@[simp] theorem bytesLE_length (n : Nat) (v : Word) : (bytesLE n v).length = n := by simp [bytesLE]

theorem byteOf_toNat (v : Word) (i : Nat) : (byteOf v i).toNat = v.toNat / 256 ^ i % 256 := by
  simp [byteOf, BitVec.extractLsb'_toNat, Nat.shiftRight_eq_div_pow, Nat.pow_mul]

/-- The low n bytes of a word denote its value modulo 2^(8n) (20_memory.md R41, R45). -/
theorem valueLE_bytesLE (n : Nat) (v : Word) : valueLE (bytesLE n v) = v.toNat % 256 ^ n := by
  have gen : ∀ (n k : Nat), valueLE ((List.range n).map (fun i => byteOf v (k + i))) =
      v.toNat / 256 ^ k % 256 ^ n := by
    intro n
    induction n with
    | zero => intro k; simp [valueLE, Nat.mod_one]
    | succ n ih =>
      intro k
      rw [List.range_succ_eq_map]
      simp only [List.map_cons, List.map_map, valueLE, Nat.add_zero]
      have hmap : (List.range n).map ((fun i => byteOf v (k + i)) ∘ Nat.succ) =
          (List.range n).map (fun i => byteOf v (k + 1 + i)) := by
        apply List.map_congr_left
        intro i _
        simp only [Function.comp_apply, Nat.succ_eq_add_one]
        congr 1
        omega
      rw [hmap, ih, byteOf_toNat, Nat.pow_succ, Nat.pow_succ, ← Nat.div_div_eq_div_mul, Nat.mul_comm (256 ^ n),
        Nat.mod_mul]
  have := gen n 0
  simpa [bytesLE] using this

/-- Four bytes of a word denote it. -/
@[simp] theorem wordLE_bytesLE (v : Word) : wordLE (bytesLE 4 v) = v := by
  apply BitVec.eq_of_toNat_eq
  have := v.isLt
  rw [wordLE, valueLE_bytesLE, BitVec.toNat_ofNat]
  omega

/-- Instruction fetch is little-endian: the word is `{b3, b2, b1, b0}` (20_memory.md R42). -/
theorem wordLE_four (b0 b1 b2 b3 : Byte) : wordLE [b0, b1, b2, b3] = b3 ++ b2 ++ b1 ++ b0 := by
  apply BitVec.eq_of_toNat_eq
  have := b0.isLt; have := b1.isLt; have := b2.isLt; have := b3.isLt
  simp only [wordLE, valueLE, BitVec.toNat_ofNat, BitVec.toNat_append]
  rw [← Nat.shiftLeft_add_eq_or_of_lt b0.isLt, ← Nat.shiftLeft_add_eq_or_of_lt b1.isLt,
    ← Nat.shiftLeft_add_eq_or_of_lt b2.isLt]
  simp only [Nat.shiftLeft_eq]
  omega

/-- The bytes of an access are those at its addresses, in order. -/
theorem getBytes_eq_map (s : State) (a : Word) (n : Nat) :
    Memory.getBytes s.mem a n = (List.range n).map (nthByte s a) := by
  simp only [Memory.getBytes, byteAddrs_eq_map, List.map_map]
  rfl

/-! ### The checks of an access -/

/-- Every byte of an access passes a check, or one of them is the first to fail it. -/
theorem find_byteAddrs_none {ok : Word → Bool} {a : Word} {n : Nat} :
    (byteAddrs a n).find? (fun b => !ok b) = none ↔ ∀ i, i < n → ok (nthAddr a i) = true := by
  simp only [List.find?_eq_none, mem_byteAddrs, nthAddr]
  constructor
  · intro h i hi; simpa using h _ ⟨i, hi, rfl⟩
  · rintro h b ⟨i, hi, rfl⟩; simp [h i hi]

theorem find_byteAddrs_some {ok : Word → Bool} {a b : Word} {n : Nat} :
    (byteAddrs a n).find? (fun b => !ok b) = some b ↔ ∃ i, FirstFails ok a n i ∧ b = nthAddr a i := by
  induction n generalizing a with
  | zero => simp [byteAddrs, FirstFails]
  | succ n ih =>
    have shift : ∀ i, nthAddr (a + 1#32) i = nthAddr a (i + 1) := by
      intro i
      simp only [nthAddr, BitVec.add_assoc]
      rw [Nat.add_comm i 1, BitVec.ofNat_add]
    have zero : nthAddr a 0 = a := by simp [nthAddr]
    rw [byteAddrs]
    by_cases hok : ok a
    · simp only [List.find?_cons, hok, Bool.not_true, ih]
      constructor
      · rintro ⟨i, ⟨hi, hbad, hprev⟩, rfl⟩
        refine ⟨i + 1, ⟨by omega, by rw [← shift]; exact hbad, ?_⟩, shift i⟩
        intro j hj
        cases j with
        | zero => rw [zero]; exact hok
        | succ j => rw [← shift]; exact hprev j (by omega)
      · rintro ⟨i, ⟨hi, hbad, hprev⟩, rfl⟩
        cases i with
        | zero => rw [zero, hok] at hbad; exact absurd hbad (by simp)
        | succ i =>
          exact ⟨i, ⟨by omega, by rw [shift]; exact hbad, fun j hj => by rw [shift]; exact hprev _ (by omega)⟩,
            (shift i).symm⟩
    · simp only [List.find?_cons, hok, Bool.not_false, Option.some.injEq]
      constructor
      · rintro rfl
        exact ⟨0, ⟨by omega, by rw [zero]; simpa using hok, fun j hj => absurd hj (by omega)⟩, zero.symm⟩
      · rintro ⟨i, ⟨hi, hbad, hprev⟩, rfl⟩
        cases i with
        | zero => exact zero.symm
        | succ i => exact absurd (hprev 0 (by omega)) (by rw [zero]; simpa using hok)

theorem firstUnmapped_none {s : State} {a : Word} {n : Nat} :
    firstUnmapped s.plat a n = none ↔ AllMapped s a n := find_byteAddrs_none

theorem firstUnmapped_some {p : Platform} {a b : Word} {n : Nat} :
    firstUnmapped p a n = some b ↔ ∃ i, FirstFails (isMapped p) a n i ∧ b = nthAddr a i := find_byteAddrs_some

theorem firstUnwritable_none {s : State} {a : Word} {n : Nat} :
    firstUnwritable s.plat a n = none ↔ AllWritable s a n := find_byteAddrs_none

theorem firstUnwritable_some {p : Platform} {a b : Word} {n : Nat} :
    firstUnwritable p a n = some b ↔ ∃ i, FirstFails (isWritable p) a n i ∧ b = nthAddr a i := find_byteAddrs_some

theorem misalignedFaults_eq_false {s : State} {a : Word} {n : Nat} (h : AlignmentOk s a n) :
    misalignedFaults s.plat a n = false := by
  rcases h with h | h <;> simp [misalignedFaults, h]

theorem misalignedFaults_eq_true {s : State} {a : Word} {n : Nat} (hn : 1 < n) (ha : a.toNat % n ≠ 0)
    (hp : s.plat.misaligned = .fault) : misalignedFaults s.plat a n = true := by
  simp [misalignedFaults, hn, ha, hp]

theorem alignmentOk_one (s : State) (a : Word) : AlignmentOk s a 1 := .inr (Nat.mod_one _)

/-! ### MemRead, MemWrite and Fetch -/

theorem memRead_ok {s : State} {a : Word} {n : Nat} (ha : AlignmentOk s a n) (hm : AllMapped s a n) :
    memRead s a n = .ok (valueLE (Memory.getBytes s.mem a n)) := by
  simp [memRead, misalignedFaults_eq_false ha, firstUnmapped_none.2 hm]

theorem memRead_misaligned {s : State} {a : Word} {n : Nat} (hn : 1 < n) (ha : a.toNat % n ≠ 0)
    (hp : s.plat.misaligned = .fault) : memRead s a n = .error (.addressMisaligned .load a) := by
  simp [memRead, misalignedFaults_eq_true hn ha hp]

theorem memRead_accessFault {s : State} {a : Word} {n i : Nat} (ha : AlignmentOk s a n)
    (hf : FirstFails (isMapped s.plat) a n i) : memRead s a n = .error (.accessFault .load (nthAddr a i)) := by
  simp [memRead, misalignedFaults_eq_false ha, firstUnmapped_some.2 ⟨i, hf, rfl⟩]

/-- Everything `MemRead` can answer (20_memory.md R44). -/
theorem memRead_cases (s : State) (a : Word) (n : Nat) :
    (memRead s a n = .error (.addressMisaligned .load a) ∧ misalignedFaults s.plat a n = true) ∨
    (∃ i, FirstFails (isMapped s.plat) a n i ∧ memRead s a n = .error (.accessFault .load (nthAddr a i))) ∨
    (misalignedFaults s.plat a n = false ∧ AllMapped s a n ∧
      memRead s a n = .ok (valueLE (Memory.getBytes s.mem a n))) := by
  unfold memRead
  cases hmis : misalignedFaults s.plat a n
  · cases hu : firstUnmapped s.plat a n with
    | none => exact .inr (.inr ⟨rfl, firstUnmapped_none.1 hu, by simp⟩)
    | some b =>
      obtain ⟨i, hi, rfl⟩ := firstUnmapped_some.1 hu
      exact .inr (.inl ⟨i, hi, by simp⟩)
  · exact .inl ⟨by simp, rfl⟩

theorem memWrite_ok {s : State} {a : Word} {n : Nat} (v : Word) (ha : AlignmentOk s a n)
    (hm : AllWritable s a n) : memWrite s a n v = .ok (storeBytes s a (bytesLE n v)) := by
  simp [memWrite, misalignedFaults_eq_false ha, firstUnwritable_none.2 hm]

theorem memWrite_misaligned {s : State} {a : Word} {n : Nat} (v : Word) (hn : 1 < n) (ha : a.toNat % n ≠ 0)
    (hp : s.plat.misaligned = .fault) : memWrite s a n v = .error (.addressMisaligned .store a) := by
  simp [memWrite, misalignedFaults_eq_true hn ha hp]

theorem memWrite_accessFault {s : State} {a : Word} {n i : Nat} (v : Word) (ha : AlignmentOk s a n)
    (hf : FirstFails (isWritable s.plat) a n i) :
    memWrite s a n v = .error (.accessFault .store (nthAddr a i)) := by
  simp [memWrite, misalignedFaults_eq_false ha, firstUnwritable_some.2 ⟨i, hf, rfl⟩]

/-- Everything `MemWrite` can answer (20_memory.md R45). -/
theorem memWrite_cases (s : State) (a : Word) (n : Nat) (v : Word) :
    (memWrite s a n v = .error (.addressMisaligned .store a) ∧ misalignedFaults s.plat a n = true) ∨
    (∃ i, FirstFails (isWritable s.plat) a n i ∧ memWrite s a n v = .error (.accessFault .store (nthAddr a i))) ∨
    (misalignedFaults s.plat a n = false ∧ AllWritable s a n ∧
      memWrite s a n v = .ok (storeBytes s a (bytesLE n v))) := by
  unfold memWrite
  cases hmis : misalignedFaults s.plat a n
  · cases hu : firstUnwritable s.plat a n with
    | none => exact .inr (.inr ⟨rfl, firstUnwritable_none.1 hu, by simp⟩)
    | some b =>
      obtain ⟨i, hi, rfl⟩ := firstUnwritable_some.1 hu
      exact .inr (.inl ⟨i, hi, by simp⟩)
  · exact .inl ⟨by simp, rfl⟩

theorem fetchBytes_ok {s : State} {a : Word} (hm : AllMapped s a 4) :
    fetchBytes s a = .ok (Memory.getBytes s.mem a 4) := by
  simp [fetchBytes, firstUnmapped_none.2 hm]

theorem fetchBytes_accessFault {s : State} {a : Word} {i : Nat} (hf : FirstFails (isMapped s.plat) a 4 i) :
    fetchBytes s a = .error (.accessFault .fetch (nthAddr a i)) := by
  simp [fetchBytes, firstUnmapped_some.2 ⟨i, hf, rfl⟩]

/-- Byte i of a store lies at the i-th address after it. -/
theorem nthByte_storeBytes (s : State) (a : Word) (n : Nat) (v : Word) (i : Nat) (hi : i < n)
    (hn : n ≤ 4294967296) : nthByte (storeBytes s a (bytesLE n v)) a i = byteOf v i := by
  have h := Memory.get_putBytes (bytesLE n v) s.mem a i (by simpa using hi) (by simpa using hn)
  simpa [nthByte, nthAddr, bytesLE] using h

/-- A store leaves every other address as it was. -/
theorem get_storeBytes_of_ne (s : State) (a : Word) (n : Nat) (v : Word) (x : Nat)
    (h : ∀ i, i < n → x ≠ (nthAddr a i).toNat) :
    Memory.get (storeBytes s a (bytesLE n v)).mem x = Memory.get s.mem x := by
  apply Memory.get_putBytes_of_not_mem
  intro b hb
  obtain ⟨i, hi, rfl⟩ := mem_byteAddrs.1 hb
  exact h i (by simpa using hi)

/-! ### The shared meanings -/

theorem loadInto_ok {s : State} {rd rs1 : RegNum} {imm : BitVec 12} {n v : Nat} {ext : Nat → Word}
    (h : memRead s (effectiveAddress (regRead s rs1) imm) n = .ok v) :
    loadInto s rd rs1 imm n ext = .next (writeResult s rd (ext v)) := by
  simp [loadInto, h]

theorem loadInto_error {s : State} {rd rs1 : RegNum} {imm : BitVec 12} {n : Nat} {ext : Nat → Word} {e : Exc}
    (h : memRead s (effectiveAddress (regRead s rs1) imm) n = .error e) :
    loadInto s rd rs1 imm n ext = .next (raise s e) := by
  simp [loadInto, h]

theorem storeFrom_ok {s t : State} {rs1 rs2 : RegNum} {imm : BitVec 12} {n : Nat}
    (h : memWrite s (effectiveAddress (regRead s rs1) imm) n (regRead s rs2) = .ok t) :
    storeFrom s rs1 rs2 imm n = .next (advance t) := by
  simp [storeFrom, h]

theorem storeFrom_error {s : State} {rs1 rs2 : RegNum} {imm : BitVec 12} {n : Nat} {e : Exc}
    (h : memWrite s (effectiveAddress (regRead s rs1) imm) n (regRead s rs2) = .error e) :
    storeFrom s rs1 rs2 imm n = .next (raise s e) := by
  simp [storeFrom, h]

theorem branchIf_cases (s : State) (c : Bool) (imm : BitVec 13) :
    (c = false ∧ branchIf s c imm = .next (advance s)) ∨
    (c = true ∧ wordAligned (relativeTarget s.pc imm) = true ∧
      branchIf s c imm = .next (setPc s (relativeTarget s.pc imm))) ∨
    (c = true ∧ wordAligned (relativeTarget s.pc imm) = false ∧
      branchIf s c imm = .next (raise s (.instructionAddressMisaligned (relativeTarget s.pc imm)))) := by
  cases c <;> cases h : wordAligned (relativeTarget s.pc imm) <;> simp [branchIf, h]

theorem linkAndJump_cases (s : State) (rd : RegNum) (t : Word) :
    (wordAligned t = true ∧ linkAndJump s rd t = .next (setPc (regWrite s rd (s.pc + 4#32)) t)) ∨
    (wordAligned t = false ∧ linkAndJump s rd t = .next (raise s (.instructionAddressMisaligned t))) := by
  cases h : wordAligned t <;> simp [linkAndJump, h]

/-- An address is aligned exactly when it is a multiple of 4. -/
theorem wordAligned_iff (a : Word) : wordAligned a = true ↔ a.toNat % 4 = 0 := by
  simp [wordAligned, ← BitVec.toNat_inj, BitVec.extractLsb'_toNat]

/-- Four bytes after an aligned address comes an aligned address. -/
theorem wordAligned_add_four {a : Word} (h : wordAligned a = true) : wordAligned (a + 4#32) = true := by
  rw [wordAligned_iff] at h ⊢
  have := a.isLt
  rw [BitVec.toNat_add]
  simp only [BitVec.toNat_ofNat]
  omega

end Sys2Proof.Machine
end

