-- ==== Sys2Proof/Laws/Decode.lean ====
section
/-! SUPPORT. The fields of encoded words, the words of fields, and what a row's mask and bits say of the fields
(30_encoding.md R70 to R83). -/

namespace Sys2Proof

theorem toNat_append_eq {m n : Nat} (a : BitVec m) (b : BitVec n) : (a ++ b).toNat = a.toNat * 2 ^ n + b.toNat := by
  rw [BitVec.toNat_append, ← Nat.shiftLeft_add_eq_or_of_lt b.isLt, Nat.shiftLeft_eq]

theorem toNat_extract_eq {m : Nat} (s n : Nat) (a : BitVec m) :
    (a.extractLsb' s n).toNat = a.toNat / 2 ^ s % 2 ^ n := by
  rw [BitVec.extractLsb'_toNat, Nat.shiftRight_eq_div_pow]

/-! ### Fields of an encoded R-type word -/

@[simp] theorem opcodeOf_encodeR (f7 : BitVec 7) (rs2 rs1 : RegNum) (f3 : BitVec 3) (rd : RegNum) (op : BitVec 7) :
    opcodeOf (encodeR f7 rs2 rs1 f3 rd op) = op := by
  apply BitVec.eq_of_toNat_eq
  have := f7.isLt; have := rs2.isLt; have := rs1.isLt; have := f3.isLt; have := rd.isLt; have := op.isLt
  simp only [opcodeOf, encodeR, toNat_extract_eq, toNat_append_eq]
  omega

@[simp] theorem rdOf_encodeR (f7 : BitVec 7) (rs2 rs1 : RegNum) (f3 : BitVec 3) (rd : RegNum) (op : BitVec 7) :
    rdOf (encodeR f7 rs2 rs1 f3 rd op) = rd := by
  apply BitVec.eq_of_toNat_eq
  have := f7.isLt; have := rs2.isLt; have := rs1.isLt; have := f3.isLt; have := rd.isLt; have := op.isLt
  simp only [rdOf, encodeR, toNat_extract_eq, toNat_append_eq]
  omega

@[simp] theorem funct3Of_encodeR (f7 : BitVec 7) (rs2 rs1 : RegNum) (f3 : BitVec 3) (rd : RegNum) (op : BitVec 7) :
    funct3Of (encodeR f7 rs2 rs1 f3 rd op) = f3 := by
  apply BitVec.eq_of_toNat_eq
  have := f7.isLt; have := rs2.isLt; have := rs1.isLt; have := f3.isLt; have := rd.isLt; have := op.isLt
  simp only [funct3Of, encodeR, toNat_extract_eq, toNat_append_eq]
  omega

@[simp] theorem rs1Of_encodeR (f7 : BitVec 7) (rs2 rs1 : RegNum) (f3 : BitVec 3) (rd : RegNum) (op : BitVec 7) :
    rs1Of (encodeR f7 rs2 rs1 f3 rd op) = rs1 := by
  apply BitVec.eq_of_toNat_eq
  have := f7.isLt; have := rs2.isLt; have := rs1.isLt; have := f3.isLt; have := rd.isLt; have := op.isLt
  simp only [rs1Of, encodeR, toNat_extract_eq, toNat_append_eq]
  omega

@[simp] theorem rs2Of_encodeR (f7 : BitVec 7) (rs2 rs1 : RegNum) (f3 : BitVec 3) (rd : RegNum) (op : BitVec 7) :
    rs2Of (encodeR f7 rs2 rs1 f3 rd op) = rs2 := by
  apply BitVec.eq_of_toNat_eq
  have := f7.isLt; have := rs2.isLt; have := rs1.isLt; have := f3.isLt; have := rd.isLt; have := op.isLt
  simp only [rs2Of, encodeR, toNat_extract_eq, toNat_append_eq]
  omega

@[simp] theorem shamtOf_encodeR (f7 : BitVec 7) (rs2 rs1 : RegNum) (f3 : BitVec 3) (rd : RegNum) (op : BitVec 7) :
    shamtOf (encodeR f7 rs2 rs1 f3 rd op) = rs2 := by
  apply BitVec.eq_of_toNat_eq
  have := f7.isLt; have := rs2.isLt; have := rs1.isLt; have := f3.isLt; have := rd.isLt; have := op.isLt
  simp only [shamtOf, encodeR, toNat_extract_eq, toNat_append_eq]
  omega

@[simp] theorem funct7Of_encodeR (f7 : BitVec 7) (rs2 rs1 : RegNum) (f3 : BitVec 3) (rd : RegNum) (op : BitVec 7) :
    funct7Of (encodeR f7 rs2 rs1 f3 rd op) = f7 := by
  apply BitVec.eq_of_toNat_eq
  have := f7.isLt; have := rs2.isLt; have := rs1.isLt; have := f3.isLt; have := rd.isLt; have := op.isLt
  simp only [funct7Of, encodeR, toNat_extract_eq, toNat_append_eq]
  omega

/-! ### Fields of an encoded I-type word -/

@[simp] theorem opcodeOf_encodeI (imm : BitVec 12) (rs1 : RegNum) (f3 : BitVec 3) (rd : RegNum) (op : BitVec 7) :
    opcodeOf (encodeI imm rs1 f3 rd op) = op := by
  apply BitVec.eq_of_toNat_eq
  have := imm.isLt; have := rs1.isLt; have := f3.isLt; have := rd.isLt; have := op.isLt
  simp only [opcodeOf, encodeI, toNat_extract_eq, toNat_append_eq]
  omega

@[simp] theorem rdOf_encodeI (imm : BitVec 12) (rs1 : RegNum) (f3 : BitVec 3) (rd : RegNum) (op : BitVec 7) :
    rdOf (encodeI imm rs1 f3 rd op) = rd := by
  apply BitVec.eq_of_toNat_eq
  have := imm.isLt; have := rs1.isLt; have := f3.isLt; have := rd.isLt; have := op.isLt
  simp only [rdOf, encodeI, toNat_extract_eq, toNat_append_eq]
  omega

@[simp] theorem funct3Of_encodeI (imm : BitVec 12) (rs1 : RegNum) (f3 : BitVec 3) (rd : RegNum) (op : BitVec 7) :
    funct3Of (encodeI imm rs1 f3 rd op) = f3 := by
  apply BitVec.eq_of_toNat_eq
  have := imm.isLt; have := rs1.isLt; have := f3.isLt; have := rd.isLt; have := op.isLt
  simp only [funct3Of, encodeI, toNat_extract_eq, toNat_append_eq]
  omega

@[simp] theorem rs1Of_encodeI (imm : BitVec 12) (rs1 : RegNum) (f3 : BitVec 3) (rd : RegNum) (op : BitVec 7) :
    rs1Of (encodeI imm rs1 f3 rd op) = rs1 := by
  apply BitVec.eq_of_toNat_eq
  have := imm.isLt; have := rs1.isLt; have := f3.isLt; have := rd.isLt; have := op.isLt
  simp only [rs1Of, encodeI, toNat_extract_eq, toNat_append_eq]
  omega

@[simp] theorem immIOf_encodeI (imm : BitVec 12) (rs1 : RegNum) (f3 : BitVec 3) (rd : RegNum) (op : BitVec 7) :
    immIOf (encodeI imm rs1 f3 rd op) = imm := by
  apply BitVec.eq_of_toNat_eq
  have := imm.isLt; have := rs1.isLt; have := f3.isLt; have := rd.isLt; have := op.isLt
  simp only [immIOf, encodeI, toNat_extract_eq, toNat_append_eq]
  omega

/-! ### Fields of an encoded S-type word -/

@[simp] theorem opcodeOf_encodeS (imm : BitVec 12) (rs2 rs1 : RegNum) (f3 : BitVec 3) (op : BitVec 7) :
    opcodeOf (encodeS imm rs2 rs1 f3 op) = op := by
  apply BitVec.eq_of_getLsbD_eq
  intro i hi
  interval_cases i <;>
    simp only [opcodeOf, encodeS, BitVec.getLsbD_append, BitVec.getLsbD_extractLsb'] <;>
    simp [-BitVec.getLsbD_eq_getElem]

@[simp] theorem funct3Of_encodeS (imm : BitVec 12) (rs2 rs1 : RegNum) (f3 : BitVec 3) (op : BitVec 7) :
    funct3Of (encodeS imm rs2 rs1 f3 op) = f3 := by
  apply BitVec.eq_of_getLsbD_eq
  intro i hi
  interval_cases i <;>
    simp only [funct3Of, encodeS, BitVec.getLsbD_append, BitVec.getLsbD_extractLsb'] <;>
    simp [-BitVec.getLsbD_eq_getElem]

@[simp] theorem rs1Of_encodeS (imm : BitVec 12) (rs2 rs1 : RegNum) (f3 : BitVec 3) (op : BitVec 7) :
    rs1Of (encodeS imm rs2 rs1 f3 op) = rs1 := by
  apply BitVec.eq_of_getLsbD_eq
  intro i hi
  interval_cases i <;>
    simp only [rs1Of, encodeS, BitVec.getLsbD_append, BitVec.getLsbD_extractLsb'] <;>
    simp [-BitVec.getLsbD_eq_getElem]

@[simp] theorem rs2Of_encodeS (imm : BitVec 12) (rs2 rs1 : RegNum) (f3 : BitVec 3) (op : BitVec 7) :
    rs2Of (encodeS imm rs2 rs1 f3 op) = rs2 := by
  apply BitVec.eq_of_getLsbD_eq
  intro i hi
  interval_cases i <;>
    simp only [rs2Of, encodeS, BitVec.getLsbD_append, BitVec.getLsbD_extractLsb'] <;>
    simp [-BitVec.getLsbD_eq_getElem]

/-! ### Fields of an encoded B-type word -/

@[simp] theorem opcodeOf_encodeB (imm : BitVec 13) (rs2 rs1 : RegNum) (f3 : BitVec 3) (op : BitVec 7) :
    opcodeOf (encodeB imm rs2 rs1 f3 op) = op := by
  apply BitVec.eq_of_getLsbD_eq
  intro i hi
  interval_cases i <;>
    simp only [opcodeOf, encodeB, BitVec.getLsbD_append, BitVec.getLsbD_extractLsb'] <;>
    simp [-BitVec.getLsbD_eq_getElem]

@[simp] theorem funct3Of_encodeB (imm : BitVec 13) (rs2 rs1 : RegNum) (f3 : BitVec 3) (op : BitVec 7) :
    funct3Of (encodeB imm rs2 rs1 f3 op) = f3 := by
  apply BitVec.eq_of_getLsbD_eq
  intro i hi
  interval_cases i <;>
    simp only [funct3Of, encodeB, BitVec.getLsbD_append, BitVec.getLsbD_extractLsb'] <;>
    simp [-BitVec.getLsbD_eq_getElem]

@[simp] theorem rs1Of_encodeB (imm : BitVec 13) (rs2 rs1 : RegNum) (f3 : BitVec 3) (op : BitVec 7) :
    rs1Of (encodeB imm rs2 rs1 f3 op) = rs1 := by
  apply BitVec.eq_of_getLsbD_eq
  intro i hi
  interval_cases i <;>
    simp only [rs1Of, encodeB, BitVec.getLsbD_append, BitVec.getLsbD_extractLsb'] <;>
    simp [-BitVec.getLsbD_eq_getElem]

@[simp] theorem rs2Of_encodeB (imm : BitVec 13) (rs2 rs1 : RegNum) (f3 : BitVec 3) (op : BitVec 7) :
    rs2Of (encodeB imm rs2 rs1 f3 op) = rs2 := by
  apply BitVec.eq_of_getLsbD_eq
  intro i hi
  interval_cases i <;>
    simp only [rs2Of, encodeB, BitVec.getLsbD_append, BitVec.getLsbD_extractLsb'] <;>
    simp [-BitVec.getLsbD_eq_getElem]

/-! ### Fields of an encoded U-type word -/

@[simp] theorem opcodeOf_encodeU (imm : BitVec 20) (rd : RegNum) (op : BitVec 7) :
    opcodeOf (encodeU imm rd op) = op := by
  apply BitVec.eq_of_toNat_eq
  have := imm.isLt; have := rd.isLt; have := op.isLt
  simp only [opcodeOf, encodeU, toNat_extract_eq, toNat_append_eq]
  omega

@[simp] theorem rdOf_encodeU (imm : BitVec 20) (rd : RegNum) (op : BitVec 7) :
    rdOf (encodeU imm rd op) = rd := by
  apply BitVec.eq_of_toNat_eq
  have := imm.isLt; have := rd.isLt; have := op.isLt
  simp only [rdOf, encodeU, toNat_extract_eq, toNat_append_eq]
  omega

@[simp] theorem imm20Of_encodeU (imm : BitVec 20) (rd : RegNum) (op : BitVec 7) :
    imm20Of (encodeU imm rd op) = imm := by
  apply BitVec.eq_of_toNat_eq
  have := imm.isLt; have := rd.isLt; have := op.isLt
  simp only [imm20Of, encodeU, toNat_extract_eq, toNat_append_eq]
  omega

/-! ### Fields of an encoded J-type word -/

@[simp] theorem opcodeOf_encodeJ (imm : BitVec 21) (rd : RegNum) (op : BitVec 7) :
    opcodeOf (encodeJ imm rd op) = op := by
  apply BitVec.eq_of_toNat_eq
  have := imm.isLt; have := rd.isLt; have := op.isLt
  simp only [opcodeOf, encodeJ, toNat_extract_eq, toNat_append_eq]
  omega

@[simp] theorem rdOf_encodeJ (imm : BitVec 21) (rd : RegNum) (op : BitVec 7) :
    rdOf (encodeJ imm rd op) = rd := by
  apply BitVec.eq_of_toNat_eq
  have := imm.isLt; have := rd.isLt; have := op.isLt
  simp only [rdOf, encodeJ, toNat_extract_eq, toNat_append_eq]
  omega

/-! ### Immediates of encoded words -/

@[simp] theorem immSOf_encodeS (imm : BitVec 12) (rs2 rs1 : RegNum) (f3 : BitVec 3) (op : BitVec 7) :
    immSOf (encodeS imm rs2 rs1 f3 op) = imm := by
  apply BitVec.eq_of_getLsbD_eq
  intro i hi
  interval_cases i <;>
    simp only [immSOf, encodeS, BitVec.getLsbD_append, BitVec.getLsbD_extractLsb'] <;>
    simp [-BitVec.getLsbD_eq_getElem]

theorem immBOf_encodeB {imm : BitVec 13} (h : immBOk imm = true) (rs2 rs1 : RegNum) (f3 : BitVec 3)
    (op : BitVec 7) : immBOf (encodeB imm rs2 rs1 f3 op) = imm := by
  have h0 : imm.getLsbD 0 = false := by simpa [immBOk] using h
  apply BitVec.eq_of_getLsbD_eq
  intro i hi
  interval_cases i <;>
    simp only [immBOf, encodeB, BitVec.getLsbD_append, BitVec.getLsbD_extractLsb', h0] <;>
    simp [-BitVec.getLsbD_eq_getElem]

theorem immJOf_encodeJ {imm : BitVec 21} (h : immJOk imm = true) (rd : RegNum) (op : BitVec 7) :
    immJOf (encodeJ imm rd op) = imm := by
  have h0 : imm.getLsbD 0 = false := by simpa [immJOk] using h
  apply BitVec.eq_of_getLsbD_eq
  intro i hi
  interval_cases i <;>
    simp only [immJOf, encodeJ, BitVec.getLsbD_append, BitVec.getLsbD_extractLsb', h0] <;>
    simp [-BitVec.getLsbD_eq_getElem]

/-- The decoder's B immediates have their implied zero (30_encoding.md R76). -/
@[simp] theorem immBOk_immBOf (w : Word) : immBOk (immBOf w) = true := by
  simp only [immBOk, immBOf, BitVec.getLsbD_append]
  simp

/-- The decoder's J immediates have their implied zero (30_encoding.md R78). -/
@[simp] theorem immJOk_immJOf (w : Word) : immJOk (immJOf w) = true := by
  simp only [immJOk, immJOf, BitVec.getLsbD_append]
  simp

/-! ### A word from its fields -/

theorem encodeR_fields (w : Word) :
    encodeR (funct7Of w) (rs2Of w) (rs1Of w) (funct3Of w) (rdOf w) (opcodeOf w) = w := by
  apply BitVec.eq_of_toNat_eq
  have := w.isLt
  simp only [encodeR, funct7Of, rs2Of, rs1Of, funct3Of, rdOf, opcodeOf, toNat_extract_eq, toNat_append_eq]
  omega

theorem encodeI_fields (w : Word) : encodeI (immIOf w) (rs1Of w) (funct3Of w) (rdOf w) (opcodeOf w) = w := by
  apply BitVec.eq_of_toNat_eq
  have := w.isLt
  simp only [encodeI, immIOf, rs1Of, funct3Of, rdOf, opcodeOf, toNat_extract_eq, toNat_append_eq]
  omega

theorem encodeS_fields (w : Word) : encodeS (immSOf w) (rs2Of w) (rs1Of w) (funct3Of w) (opcodeOf w) = w := by
  apply BitVec.eq_of_getLsbD_eq
  intro i hi
  interval_cases i <;>
    simp only [immSOf, encodeS, rs2Of, rs1Of, funct3Of, opcodeOf, BitVec.getLsbD_append,
      BitVec.getLsbD_extractLsb'] <;>
    simp [-BitVec.getLsbD_eq_getElem]

theorem encodeB_fields (w : Word) : encodeB (immBOf w) (rs2Of w) (rs1Of w) (funct3Of w) (opcodeOf w) = w := by
  apply BitVec.eq_of_getLsbD_eq
  intro i hi
  interval_cases i <;>
    simp only [immBOf, encodeB, rs2Of, rs1Of, funct3Of, opcodeOf, BitVec.getLsbD_append,
      BitVec.getLsbD_extractLsb'] <;>
    simp [-BitVec.getLsbD_eq_getElem]

theorem encodeU_fields (w : Word) : encodeU (imm20Of w) (rdOf w) (opcodeOf w) = w := by
  apply BitVec.eq_of_toNat_eq
  have := w.isLt
  simp only [encodeU, imm20Of, rdOf, opcodeOf, toNat_extract_eq, toNat_append_eq]
  omega

theorem encodeJ_fields (w : Word) : encodeJ (immJOf w) (rdOf w) (opcodeOf w) = w := by
  apply BitVec.eq_of_getLsbD_eq
  intro i hi
  interval_cases i <;>
    simp only [immJOf, encodeJ, rdOf, opcodeOf, BitVec.getLsbD_append, BitVec.getLsbD_extractLsb'] <;>
    simp [-BitVec.getLsbD_eq_getElem]

/-! ### What a row's mask keeps of a word (30_encoding.md R83) -/

/-- The mask of rows with opcode, funct3 and funct7. -/
theorem and_mask_funct7 (w : Word) :
    w &&& 0xFE00707F#32 = encodeR (funct7Of w) 0#5 0#5 (funct3Of w) 0#5 (opcodeOf w) := by
  apply BitVec.eq_of_getLsbD_eq
  intro i hi
  interval_cases i <;>
    simp only [encodeR, funct7Of, funct3Of, opcodeOf, BitVec.getLsbD_append, BitVec.getLsbD_and,
      BitVec.getLsbD_extractLsb'] <;>
    simp [-BitVec.getLsbD_eq_getElem]

/-- The mask of rows with opcode and funct3. -/
theorem and_mask_funct3 (w : Word) :
    w &&& 0x0000707F#32 = encodeR 0#7 0#5 0#5 (funct3Of w) 0#5 (opcodeOf w) := by
  apply BitVec.eq_of_getLsbD_eq
  intro i hi
  interval_cases i <;>
    simp only [encodeR, funct3Of, opcodeOf, BitVec.getLsbD_append, BitVec.getLsbD_and,
      BitVec.getLsbD_extractLsb'] <;>
    simp [-BitVec.getLsbD_eq_getElem]

/-- The mask of rows with the opcode alone. -/
theorem and_mask_opcode (w : Word) : w &&& 0x0000007F#32 = encodeR 0#7 0#5 0#5 0#3 0#5 (opcodeOf w) := by
  apply BitVec.eq_of_getLsbD_eq
  intro i hi
  interval_cases i <;>
    simp only [encodeR, opcodeOf, BitVec.getLsbD_append, BitVec.getLsbD_and, BitVec.getLsbD_extractLsb'] <;>
    simp [-BitVec.getLsbD_eq_getElem]

theorem encodeR_inj {f7 f7' : BitVec 7} {f3 f3' : BitVec 3} {op op' : BitVec 7} :
    encodeR f7 0#5 0#5 f3 0#5 op = encodeR f7' 0#5 0#5 f3' 0#5 op' ↔ f7 = f7' ∧ f3 = f3' ∧ op = op' := by
  constructor
  · intro h
    have h1 := congrArg funct7Of h
    have h2 := congrArg funct3Of h
    have h3 := congrArg opcodeOf h
    simp only [funct7Of_encodeR, funct3Of_encodeR, opcodeOf_encodeR] at h1 h2 h3
    exact ⟨h1, h2, h3⟩
  · rintro ⟨rfl, rfl, rfl⟩
    rfl

/-- A word matches a row with funct7 exactly when its three code fields are the row's. -/
theorem matches_funct7 {w bits : Word} {f7 : BitVec 7} {f3 : BitVec 3} {op : BitVec 7}
    (hb : bits = encodeR f7 0#5 0#5 f3 0#5 op) :
    w &&& 0xFE00707F#32 = bits ↔ funct7Of w = f7 ∧ funct3Of w = f3 ∧ opcodeOf w = op := by
  rw [and_mask_funct7, hb, encodeR_inj]

/-- A word matches a row with funct3 exactly when its two code fields are the row's. -/
theorem matches_funct3 {w bits : Word} {f3 : BitVec 3} {op : BitVec 7}
    (hb : bits = encodeR 0#7 0#5 0#5 f3 0#5 op) :
    w &&& 0x0000707F#32 = bits ↔ funct3Of w = f3 ∧ opcodeOf w = op := by
  rw [and_mask_funct3, hb, encodeR_inj]
  simp

/-- A word matches a row of the opcode alone exactly when its opcode is the row's. -/
theorem matches_opcode {w bits : Word} {op : BitVec 7} (hb : bits = encodeR 0#7 0#5 0#5 0#3 0#5 op) :
    w &&& 0x0000007F#32 = bits ↔ opcodeOf w = op := by
  rw [and_mask_opcode, hb, encodeR_inj]
  simp

end Sys2Proof
end

