-- ==== Sys2Proof/Laws/Services.lean ====
section
/-! SUPPORT. What an added service can do (47_system.md R198). -/

namespace Sys2Proof.Machine

/-! ### Stores of single bytes -/

section
variable (s : State) (cells : List (Word × Byte))

@[simp] theorem storeCells_regs : (storeCells s cells).regs = s.regs := rfl
@[simp] theorem storeCells_pc : (storeCells s cells).pc = s.pc := rfl
@[simp] theorem storeCells_status : (storeCells s cells).status = s.status := rfl
@[simp] theorem storeCells_out : (storeCells s cells).out = s.out := rfl
@[simp] theorem storeCells_plat : (storeCells s cells).plat = s.plat := rfl
@[simp] theorem storeCells_calls : (storeCells s cells).calls = s.calls := rfl
@[simp] theorem regRead_storeCells (r : RegNum) : regRead (storeCells s cells) r = regRead s r := rfl

end

theorem storeCells_cons (s : State) (c : Word × Byte) (rest : List (Word × Byte)) :
    storeCells s (c :: rest) = storeCells (storeBytes s c.1 [c.2]) rest := rfl

/-- Storing bytes keeps the canonical form of memory. -/
theorem wf_storeCells (cells : List (Word × Byte)) {s : State} (h : Memory.wf s.mem = true) :
    Memory.wf (storeCells s cells).mem = true := by
  induction cells generalizing s with
  | nil => exact h
  | cons c rest ih => rw [storeCells_cons]; exact ih (Memory.wf_put _ (word_lt_addressSpace _) h)

/-- Every entry of memory after storing bytes lies at one of their addresses or is an old one. -/
theorem mem_storeCells (cells : List (Word × Byte)) {s : State} {e : Host.Cell} (h : e ∈ (storeCells s cells).mem) :
    (∃ c ∈ cells, e.1 = c.1.toNat) ∨ e ∈ s.mem := by
  induction cells generalizing s with
  | nil => exact .inr h
  | cons c rest ih =>
    rcases ih (s := storeBytes s c.1 [c.2]) h with ⟨d, hd, he⟩ | h
    · exact .inl ⟨d, by simp [hd], he⟩
    · rcases Memory.mem_put h with h | h
      · exact .inl ⟨c, by simp, by rw [h]⟩
      · exact .inr h

/-- Storing bytes leaves every other address as it was. -/
theorem get_storeCells_of_ne (cells : List (Word × Byte)) (s : State) (x : Nat) (h : ∀ c ∈ cells, x ≠ c.1.toNat) :
    Memory.get (storeCells s cells).mem x = Memory.get s.mem x := by
  induction cells generalizing s with
  | nil => rfl
  | cons c rest ih =>
    rw [storeCells_cons, ih _ (fun d hd => h d (by simp [hd]))]
    exact Memory.get_put_ne _ _ (h c (by simp))

/-- The last byte stored at an address is the one that stands there. -/
theorem get_storeCells (pre : List (Word × Byte)) (a : Word) (v : Byte) (post : List (Word × Byte)) (s : State)
    (h : ∀ c ∈ post, a ≠ c.1) : Memory.get (storeCells s (pre ++ (a, v) :: post)).mem a.toNat = v := by
  induction pre generalizing s with
  | nil =>
    rw [List.nil_append, storeCells_cons,
      get_storeCells_of_ne _ _ _ (fun c hc e => h c hc (BitVec.eq_of_toNat_eq e))]
    exact Memory.get_put_self _ _ _
  | cons c rest ih => exact ih (storeBytes s c.1 [c.2])

/-! ### The service -/

section
variable (s : State) (stores : List (Word × Byte)) (events : List Event)

@[simp] theorem completeService_regs : (completeService s stores events).regs = s.regs := rfl
@[simp] theorem completeService_pc : (completeService s stores events).pc = s.pc + 4#32 := rfl
@[simp] theorem completeService_mem : (completeService s stores events).mem = (storeCells s stores).mem := rfl
@[simp] theorem completeService_status : (completeService s stores events).status = s.status := rfl
@[simp] theorem completeService_out : (completeService s stores events).out = s.out ++ events := rfl
@[simp] theorem completeService_plat : (completeService s stores events).plat = s.plat := rfl
@[simp] theorem completeService_calls : (completeService s stores events).calls = s.calls + 1 := rfl
@[simp] theorem regRead_completeService (r : RegNum) :
    regRead (completeService s stores events) r = regRead s r := rfl

end

/-- Everything that can come of an added service's result. -/
theorem performResult_cases (s : State) (r : ServiceResult) :
    (∃ a, r = .loadFault a ∧ performResult s r = raise s (.accessFault .load a)) ∨
    (r = .exits ∧ performResult s r = halt s .exit) ∨
    (∃ c, r = .exitsWithCode c ∧ performResult s r = halt s (.exitCode c)) ∨
    (∃ stores events, r = .goesOn stores events ∧
      ((∃ c, stores.find? (fun c => !isWritable s.plat c.1) = some c ∧
          performResult s r = raise s (.accessFault .store c.1)) ∨
        ((∀ c ∈ stores, isWritable s.plat c.1 = true) ∧ performResult s r = completeService s stores events))) := by
  cases r with
  | loadFault a => exact .inl ⟨a, rfl, rfl⟩
  | exits => exact .inr (.inl ⟨rfl, rfl⟩)
  | exitsWithCode c => exact .inr (.inr (.inl ⟨c, rfl, rfl⟩))
  | goesOn stores events =>
    refine .inr (.inr (.inr ⟨stores, events, rfl, ?_⟩))
    cases hw : stores.find? (fun c => !isWritable s.plat c.1) with
    | some c => exact .inl ⟨c, rfl, by simp [performResult, hw]⟩
    | none => exact .inr ⟨by simpa using hw, by simp [performResult, hw]⟩

end Sys2Proof.Machine
end

