-- ==== Sys2Proof/Laws/Exec.lean ====
section
/-! SUPPORT. Everything an instruction can do to the state, and everything a step can do: the inversion lemmas from which
claims about all instructions are derived. -/

namespace Sys2Proof.Machine

/-! ### The string read of ECALL service 4 (47_system.md R193) -/

theorem nthAddr_zero (a : Word) : nthAddr a 0 = a := by simp [nthAddr]

theorem nthAddr_succ (a : Word) (i : Nat) : nthAddr (a + 1#32) i = nthAddr a (i + 1) := by
  simp only [nthAddr, BitVec.add_assoc]
  rw [Nat.add_comm i 1, BitVec.ofNat_add]

theorem nthByte_succ (s : State) (a : Word) (i : Nat) : nthByte s (a + 1#32) i = nthByte s a (i + 1) := by
  rw [nthByte, nthAddr_succ, nthByte]

theorem memRead_one_ok {s : State} {a : Word} (h : isMapped s.plat a = true) :
    memRead s a 1 = .ok (Memory.get s.mem a.toNat).toNat := by
  rw [memRead_ok (alignmentOk_one s a)]
  · simp [Memory.getBytes, byteAddrs, valueLE]
  · intro i hi
    obtain rfl : i = 0 := by omega
    rwa [nthAddr_zero]

theorem memRead_one_error {s : State} {a : Word} (h : isMapped s.plat a = false) :
    memRead s a 1 = .error (.accessFault .load a) := by
  have := memRead_accessFault (alignmentOk_one s a)
    (⟨by omega, by rwa [nthAddr_zero], fun j hj => absurd hj (by omega)⟩ : FirstFails (isMapped s.plat) a 1 0)
  rwa [nthAddr_zero] at this

/-- A string that ends within the bytes left is read up to its zero byte. -/
theorem readString_ok (s : State) (p : Word) (left : Nat) (a : Word) (k : Nat) (hk : k < left)
    (hm : ∀ j, j ≤ k → isMapped s.plat (nthAddr a j) = true) (hne : ∀ j, j < k → nthByte s a j ≠ 0#8)
    (hz : nthByte s a k = 0#8) : readString s p left a = .ok ((List.range k).map (nthByte s a)) := by
  induction left generalizing a k with
  | zero => omega
  | succ left ih =>
    have h0 : isMapped s.plat a = true := by simpa [nthAddr_zero] using hm 0 (by omega)
    have hb : nthByte s a 0 = Memory.get s.mem a.toNat := by rw [nthByte, nthAddr_zero]
    rw [readString, memRead_one_ok h0]
    cases k with
    | zero =>
      rw [hb] at hz
      simp [hz]
    | succ k =>
      have hn0 : (Memory.get s.mem a.toNat).toNat ≠ 0 := by
        rw [← hb]
        intro e
        exact hne 0 (by omega) (BitVec.eq_of_toNat_eq (by simpa using e))
      have hrec := ih (a + 1#32) k (by omega) (fun j hj => by rw [nthAddr_succ]; exact hm _ (by omega))
        (fun j hj => by rw [nthByte_succ]; exact hne _ (by omega)) (by rw [nthByte_succ]; exact hz)
      simp only [hn0, if_false, hrec]
      rw [List.range_succ_eq_map]
      simp [hb, nthByte_succ, Function.comp_def]

/-- A string whose first byte outside `MAPPED` comes before a zero byte raises there. -/
theorem readString_unmapped (s : State) (p : Word) (left : Nat) (a : Word) (k : Nat) (hk : k < left)
    (hm : ∀ j, j < k → isMapped s.plat (nthAddr a j) = true) (hne : ∀ j, j < k → nthByte s a j ≠ 0#8)
    (hu : isMapped s.plat (nthAddr a k) = false) :
    readString s p left a = .error (.accessFault .load (nthAddr a k)) := by
  induction left generalizing a k with
  | zero => omega
  | succ left ih =>
    rw [readString]
    cases k with
    | zero =>
      rw [nthAddr_zero] at hu ⊢
      simp [memRead_one_error hu]
    | succ k =>
      have h0 : isMapped s.plat a = true := by simpa [nthAddr_zero] using hm 0 (by omega)
      have hb : nthByte s a 0 = Memory.get s.mem a.toNat := by rw [nthByte, nthAddr_zero]
      have hn0 : (Memory.get s.mem a.toNat).toNat ≠ 0 := by
        rw [← hb]
        intro e
        exact hne 0 (by omega) (BitVec.eq_of_toNat_eq (by simpa using e))
      have hrec := ih (a + 1#32) k (by omega) (fun j hj => by rw [nthAddr_succ]; exact hm _ (by omega))
        (fun j hj => by rw [nthByte_succ]; exact hne _ (by omega)) (by rw [nthAddr_succ]; exact hu)
      simp only [memRead_one_ok h0, hn0, if_false, hrec, nthAddr_succ]

/-- A string without a zero byte in all the bytes left raises at its start p. -/
theorem readString_unterminated (s : State) (p : Word) (left : Nat) (a : Word)
    (hm : ∀ j, j < left → isMapped s.plat (nthAddr a j) = true) (hne : ∀ j, j < left → nthByte s a j ≠ 0#8) :
    readString s p left a = .error (.accessFault .load p) := by
  induction left generalizing a with
  | zero => rfl
  | succ left ih =>
    have h0 : isMapped s.plat a = true := by simpa [nthAddr_zero] using hm 0 (by omega)
    have hb : nthByte s a 0 = Memory.get s.mem a.toNat := by rw [nthByte, nthAddr_zero]
    have hn0 : (Memory.get s.mem a.toNat).toNat ≠ 0 := by
      rw [← hb]
      intro e
      exact hne 0 (by omega) (BitVec.eq_of_toNat_eq (by simpa using e))
    have hrec := ih (a + 1#32) (fun j hj => by rw [nthAddr_succ]; exact hm _ (by omega))
      (fun j hj => by rw [nthByte_succ]; exact hne _ (by omega))
    rw [readString]
    simp only [memRead_one_ok h0, hn0, if_false, hrec]

/-! ### The effects of an instruction -/

/-- The effects an instruction can have: every state its meaning answers is one of these. -/
inductive Effect (i : Instr) (s : State) : State → Prop where
  /-- an exception was taken -/
  | raised (e : Exc) : Effect i s (raise s e)
  /-- a result went to rd -/
  | result (rd : RegNum) (v : Word) (h : destination i = some rd) : Effect i s (writeResult s rd v)
  /-- a jump linked through rd -/
  | linked (rd : RegNum) (t : Word) (h : destination i = some rd) (ht : wordAligned t = true) :
      Effect i s (setPc (regWrite s rd (s.pc + 4#32)) t)
  /-- a store instruction's bytes went to memory, all of them writable -/
  | stored (a : Word) (n : Nat) (v : Word) (hi : i ≠ .ecall) (hn : n ≤ 4) (h : AllWritable s a n) :
      Effect i s (advance (storeBytes s a (bytesLE n v)))
  /-- a branch was taken -/
  | jumped (t : Word) (ht : wordAligned t = true) : Effect i s (setPc s t)
  /-- a branch was not taken -/
  | advanced : Effect i s (advance s)
  /-- the environment printed -/
  | printed (e : Event) (h : i = .ecall) : Effect i s (advance (emit s e))
  /-- an added service wrote bytes, all of them writable, and printed -/
  | served (d : AddedService) (stores : List (Word × Byte)) (events : List Event) (h : i = .ecall)
      (hl : lookupService s.plat.syscalls (regRead s regA0) = some (.added d))
      (he : resultOf s d = .goesOn stores events) (hw : ∀ c ∈ stores, isWritable s.plat c.1 = true) :
      Effect i s (completeService s stores events)
  /-- the run ended -/
  | ended (r : HaltReason) (h : i = .ecall ∨ i = .ebreak) : Effect i s (halt s r)

theorem loadInto_effect (i : Instr) (s : State) (rd rs1 : RegNum) (imm : BitVec 12) (n : Nat) (ext : Nat → Word)
    (h : destination i = some rd) : ∃ t, loadInto s rd rs1 imm n ext = .next t ∧ Effect i s t := by
  cases hm : memRead s (effectiveAddress (regRead s rs1) imm) n with
  | error e => exact ⟨_, loadInto_error hm, .raised e⟩
  | ok v => exact ⟨_, loadInto_ok hm, .result rd _ h⟩

theorem storeFrom_effect (i : Instr) (s : State) (rs1 rs2 : RegNum) (imm : BitVec 12) (n : Nat) (hi : i ≠ .ecall)
    (hn : n ≤ 4) : ∃ t, storeFrom s rs1 rs2 imm n = .next t ∧ Effect i s t := by
  rcases memWrite_cases s (effectiveAddress (regRead s rs1) imm) n (regRead s rs2) with h | ⟨_, _, h⟩ | ⟨_, hw, h⟩
  · exact ⟨_, storeFrom_error h.1, .raised _⟩
  · exact ⟨_, storeFrom_error h, .raised _⟩
  · exact ⟨_, storeFrom_ok h, .stored _ n _ hi hn hw⟩

theorem branchIf_effect (i : Instr) (s : State) (c : Bool) (imm : BitVec 13) :
    ∃ t, branchIf s c imm = .next t ∧ Effect i s t := by
  rcases branchIf_cases s c imm with ⟨_, h⟩ | ⟨_, ha, h⟩ | ⟨_, _, h⟩
  · exact ⟨_, h, .advanced⟩
  · exact ⟨_, h, .jumped _ ha⟩
  · exact ⟨_, h, .raised _⟩

theorem linkAndJump_effect (i : Instr) (s : State) (rd : RegNum) (t : Word) (h : destination i = some rd) :
    ∃ u, linkAndJump s rd t = .next u ∧ Effect i s u := by
  rcases linkAndJump_cases s rd t with ⟨ha, e⟩ | ⟨_, e⟩
  · exact ⟨_, e, .linked rd t h ha⟩
  · exact ⟨_, e, .raised _⟩

theorem serve_effect (s : State) (v : Service) (hl : lookupService s.plat.syscalls (regRead s regA0) = some v) :
    Effect .ecall s (serve s v) := by
  cases v with
  | printInteger => exact .printed _ rfl
  | printString =>
    simp only [serve, servicePrintString]
    split
    · exact .raised _
    · exact .printed _ rfl
  | exit => exact .ended _ (.inl rfl)
  | exitWithCode => exact .ended _ (.inl rfl)
  | added d =>
    simp only [serve, serviceAdded]
    rcases performResult_cases s (resultOf s d) with ⟨a, _, h⟩ | ⟨_, h⟩ | ⟨c, _, h⟩ | ⟨stores, events, he, ⟨c, _, h⟩ | ⟨hw, h⟩⟩
    · exact h ▸ .raised _
    · exact h ▸ .ended _ (.inl rfl)
    · exact h ▸ .ended _ (.inl rfl)
    · exact h ▸ .raised _
    · exact h ▸ .served d stores events rfl hl he hw

/-- Every instruction answers a next state, and its effect is one of the nine. -/
theorem exec_effect (i : Instr) (s : State) : ∃ t, exec i s = .next t ∧ Effect i s t := by
  cases i with
  | add | sub | and | or | xor | sll | srl | sra | slt | sltu => exact ⟨_, rfl, .result _ _ rfl⟩
  | addi | andi | ori | xori | slti | sltiu | slli | srli | srai => exact ⟨_, rfl, .result _ _ rfl⟩
  | lui | auipc => exact ⟨_, rfl, .result _ _ rfl⟩
  | lw | lh | lb | lhu | lbu => exact loadInto_effect _ _ _ _ _ _ _ rfl
  | sw | sh | sb => exact storeFrom_effect _ _ _ _ _ _ nofun (by omega)
  | beq | bne | blt | bge | bltu | bgeu => exact branchIf_effect _ _ _ _
  | jal | jalr => exact linkAndJump_effect _ _ _ _ rfl
  | ecall =>
    simp only [exec, execEcall]
    split
    · exact ⟨_, rfl, .raised _⟩
    · next v hv => exact ⟨_, rfl, serve_effect s v hv⟩
  | ebreak => exact ⟨_, rfl, .ended _ (.inr rfl)⟩

/-- The effect of an instruction that answered a next state. -/
theorem effect_of_exec {i : Instr} {s t : State} (h : exec i s = .next t) : Effect i s t := by
  obtain ⟨u, hu, he⟩ := exec_effect i s
  rw [hu] at h
  cases h
  exact he

/-! ### The step -/

/-- Everything a step that answers a next state can be. -/
theorem step_cases {s t : State} (h : step s = .next t) :
    s.status = .running ∧
      ((∃ e, fetchInstr s = .error e ∧ t = raise s e) ∨ (∃ i, fetchInstr s = .ok i ∧ exec i s = .next t)) := by
  unfold step at h
  split at h
  · next hs =>
    refine ⟨hs, ?_⟩
    split at h
    · next e he => exact .inl ⟨e, he, by cases h; rfl⟩
    · next i hi => exact .inr ⟨i, hi, h⟩
  · cases h
  · cases h

/-- What a step does in terms of effects: an exception before any instruction ran, or an instruction's effect. -/
theorem step_effect {s t : State} (h : step s = .next t) :
    s.status = .running ∧ ((∃ e, t = raise s e) ∨ ∃ i, fetchInstr s = .ok i ∧ Effect i s t) := by
  obtain ⟨hs, ⟨e, _, ht⟩ | ⟨i, hi, he⟩⟩ := step_cases h
  · exact ⟨hs, .inl ⟨e, ht⟩⟩
  · exact ⟨hs, .inr ⟨i, hi, effect_of_exec he⟩⟩

theorem step_of_fetch_ok {s : State} {i : Instr} (hs : s.status = .running) (hi : fetchInstr s = .ok i) :
    step s = exec i s := by
  simp [step, hs, hi]

theorem step_of_fetch_error {s : State} {e : Exc} (hs : s.status = .running) (he : fetchInstr s = .error e) :
    step s = .next (raise s e) := by
  simp [step, hs, he]

/-- When the instruction at `pc` can be fetched and decoded. -/
theorem fetchInstr_ok {s : State} {i : Instr} {rest : List Byte} (ha : wordAligned s.pc = true)
    (hm : AllMapped s s.pc 4) (hd : decode (Memory.getBytes s.mem s.pc 4) = .ok (i, rest)) :
    fetchInstr s = .ok i := by
  simp [fetchInstr, ha, fetchBytes_ok hm, hd]

end Sys2Proof.Machine
end

