-- ==== Sys2Proof/Laws/PerInstr.lean ====
section
/-! SUPPORT. The per-instruction families: for every instruction, the encoded word matches the instruction's row of the
opcode table (30_encoding.md R83). -/

namespace Sys2Proof.Laws

/-- The encoded word matches the row of the opcode table that has the instruction's mnemonic. -/
def EncodedInRow.Statement (i : Instr) : Prop :=
  ∃ row ∈ opcodeTable, row.name = mnemonic i ∧ encode i &&& row.mask = row.bits

/-- The first three bits of a shape: an R-type word under the mask of its row. -/
theorem encodeR_and_mask (f7 : BitVec 7) (rs2 rs1 : RegNum) (f3 : BitVec 3) (rd : RegNum) (op : BitVec 7) :
    encodeR f7 rs2 rs1 f3 rd op &&& 0xFE00707F#32 = encodeR f7 0#5 0#5 f3 0#5 op := by
  simp [and_mask_funct7]

theorem encodeI_and_mask (imm : BitVec 12) (rs1 : RegNum) (f3 : BitVec 3) (rd : RegNum) (op : BitVec 7) :
    encodeI imm rs1 f3 rd op &&& 0x0000707F#32 = encodeR 0#7 0#5 0#5 f3 0#5 op := by
  simp [and_mask_funct3]

theorem encodeS_and_mask (imm : BitVec 12) (rs2 rs1 : RegNum) (f3 : BitVec 3) (op : BitVec 7) :
    encodeS imm rs2 rs1 f3 op &&& 0x0000707F#32 = encodeR 0#7 0#5 0#5 f3 0#5 op := by
  simp [and_mask_funct3]

theorem encodeB_and_mask (imm : BitVec 13) (rs2 rs1 : RegNum) (f3 : BitVec 3) (op : BitVec 7) :
    encodeB imm rs2 rs1 f3 op &&& 0x0000707F#32 = encodeR 0#7 0#5 0#5 f3 0#5 op := by
  simp [and_mask_funct3]

theorem encodeU_and_mask (imm : BitVec 20) (rd : RegNum) (op : BitVec 7) :
    encodeU imm rd op &&& 0x0000007F#32 = encodeR 0#7 0#5 0#5 0#3 0#5 op := by
  simp [and_mask_opcode]

theorem encodeJ_and_mask (imm : BitVec 21) (rd : RegNum) (op : BitVec 7) :
    encodeJ imm rd op &&& 0x0000007F#32 = encodeR 0#7 0#5 0#5 0#3 0#5 op := by
  simp [and_mask_opcode]

theorem EncodedInRow.add (rd rs1 rs2 : RegNum) : EncodedInRow.Statement (.add rd rs1 rs2) :=
  ⟨⟨"ADD", 0x00000033#32, 0xFE00707F#32⟩, by decide, rfl, (encodeR_and_mask _ _ _ _ _ _).trans (by decide)⟩

theorem EncodedInRow.sub (rd rs1 rs2 : RegNum) : EncodedInRow.Statement (.sub rd rs1 rs2) :=
  ⟨⟨"SUB", 0x40000033#32, 0xFE00707F#32⟩, by decide, rfl, (encodeR_and_mask _ _ _ _ _ _).trans (by decide)⟩

theorem EncodedInRow.and (rd rs1 rs2 : RegNum) : EncodedInRow.Statement (.and rd rs1 rs2) :=
  ⟨⟨"AND", 0x00007033#32, 0xFE00707F#32⟩, by decide, rfl, (encodeR_and_mask _ _ _ _ _ _).trans (by decide)⟩

theorem EncodedInRow.or (rd rs1 rs2 : RegNum) : EncodedInRow.Statement (.or rd rs1 rs2) :=
  ⟨⟨"OR", 0x00006033#32, 0xFE00707F#32⟩, by decide, rfl, (encodeR_and_mask _ _ _ _ _ _).trans (by decide)⟩

theorem EncodedInRow.xor (rd rs1 rs2 : RegNum) : EncodedInRow.Statement (.xor rd rs1 rs2) :=
  ⟨⟨"XOR", 0x00004033#32, 0xFE00707F#32⟩, by decide, rfl, (encodeR_and_mask _ _ _ _ _ _).trans (by decide)⟩

theorem EncodedInRow.sll (rd rs1 rs2 : RegNum) : EncodedInRow.Statement (.sll rd rs1 rs2) :=
  ⟨⟨"SLL", 0x00001033#32, 0xFE00707F#32⟩, by decide, rfl, (encodeR_and_mask _ _ _ _ _ _).trans (by decide)⟩

theorem EncodedInRow.srl (rd rs1 rs2 : RegNum) : EncodedInRow.Statement (.srl rd rs1 rs2) :=
  ⟨⟨"SRL", 0x00005033#32, 0xFE00707F#32⟩, by decide, rfl, (encodeR_and_mask _ _ _ _ _ _).trans (by decide)⟩

theorem EncodedInRow.sra (rd rs1 rs2 : RegNum) : EncodedInRow.Statement (.sra rd rs1 rs2) :=
  ⟨⟨"SRA", 0x40005033#32, 0xFE00707F#32⟩, by decide, rfl, (encodeR_and_mask _ _ _ _ _ _).trans (by decide)⟩

theorem EncodedInRow.slt (rd rs1 rs2 : RegNum) : EncodedInRow.Statement (.slt rd rs1 rs2) :=
  ⟨⟨"SLT", 0x00002033#32, 0xFE00707F#32⟩, by decide, rfl, (encodeR_and_mask _ _ _ _ _ _).trans (by decide)⟩

theorem EncodedInRow.sltu (rd rs1 rs2 : RegNum) : EncodedInRow.Statement (.sltu rd rs1 rs2) :=
  ⟨⟨"SLTU", 0x00003033#32, 0xFE00707F#32⟩, by decide, rfl, (encodeR_and_mask _ _ _ _ _ _).trans (by decide)⟩

theorem EncodedInRow.addi (rd rs1 : RegNum) (imm : BitVec 12) : EncodedInRow.Statement (.addi rd rs1 imm) :=
  ⟨⟨"ADDI", 0x00000013#32, 0x0000707F#32⟩, by decide, rfl, (encodeI_and_mask _ _ _ _ _).trans (by decide)⟩

theorem EncodedInRow.andi (rd rs1 : RegNum) (imm : BitVec 12) : EncodedInRow.Statement (.andi rd rs1 imm) :=
  ⟨⟨"ANDI", 0x00007013#32, 0x0000707F#32⟩, by decide, rfl, (encodeI_and_mask _ _ _ _ _).trans (by decide)⟩

theorem EncodedInRow.ori (rd rs1 : RegNum) (imm : BitVec 12) : EncodedInRow.Statement (.ori rd rs1 imm) :=
  ⟨⟨"ORI", 0x00006013#32, 0x0000707F#32⟩, by decide, rfl, (encodeI_and_mask _ _ _ _ _).trans (by decide)⟩

theorem EncodedInRow.xori (rd rs1 : RegNum) (imm : BitVec 12) : EncodedInRow.Statement (.xori rd rs1 imm) :=
  ⟨⟨"XORI", 0x00004013#32, 0x0000707F#32⟩, by decide, rfl, (encodeI_and_mask _ _ _ _ _).trans (by decide)⟩

theorem EncodedInRow.slti (rd rs1 : RegNum) (imm : BitVec 12) : EncodedInRow.Statement (.slti rd rs1 imm) :=
  ⟨⟨"SLTI", 0x00002013#32, 0x0000707F#32⟩, by decide, rfl, (encodeI_and_mask _ _ _ _ _).trans (by decide)⟩

theorem EncodedInRow.sltiu (rd rs1 : RegNum) (imm : BitVec 12) : EncodedInRow.Statement (.sltiu rd rs1 imm) :=
  ⟨⟨"SLTIU", 0x00003013#32, 0x0000707F#32⟩, by decide, rfl, (encodeI_and_mask _ _ _ _ _).trans (by decide)⟩

theorem EncodedInRow.slli (rd rs1 : RegNum) (shamt : BitVec 5) : EncodedInRow.Statement (.slli rd rs1 shamt) :=
  ⟨⟨"SLLI", 0x00001013#32, 0xFE00707F#32⟩, by decide, rfl, (encodeR_and_mask _ _ _ _ _ _).trans (by decide)⟩

theorem EncodedInRow.srli (rd rs1 : RegNum) (shamt : BitVec 5) : EncodedInRow.Statement (.srli rd rs1 shamt) :=
  ⟨⟨"SRLI", 0x00005013#32, 0xFE00707F#32⟩, by decide, rfl, (encodeR_and_mask _ _ _ _ _ _).trans (by decide)⟩

theorem EncodedInRow.srai (rd rs1 : RegNum) (shamt : BitVec 5) : EncodedInRow.Statement (.srai rd rs1 shamt) :=
  ⟨⟨"SRAI", 0x40005013#32, 0xFE00707F#32⟩, by decide, rfl, (encodeR_and_mask _ _ _ _ _ _).trans (by decide)⟩

theorem EncodedInRow.lui (rd : RegNum) (imm20 : BitVec 20) : EncodedInRow.Statement (.lui rd imm20) :=
  ⟨⟨"LUI", 0x00000037#32, 0x0000007F#32⟩, by decide, rfl, (encodeU_and_mask _ _ _).trans (by decide)⟩

theorem EncodedInRow.auipc (rd : RegNum) (imm20 : BitVec 20) : EncodedInRow.Statement (.auipc rd imm20) :=
  ⟨⟨"AUIPC", 0x00000017#32, 0x0000007F#32⟩, by decide, rfl, (encodeU_and_mask _ _ _).trans (by decide)⟩

theorem EncodedInRow.lw (rd rs1 : RegNum) (imm : BitVec 12) : EncodedInRow.Statement (.lw rd rs1 imm) :=
  ⟨⟨"LW", 0x00002003#32, 0x0000707F#32⟩, by decide, rfl, (encodeI_and_mask _ _ _ _ _).trans (by decide)⟩

theorem EncodedInRow.lh (rd rs1 : RegNum) (imm : BitVec 12) : EncodedInRow.Statement (.lh rd rs1 imm) :=
  ⟨⟨"LH", 0x00001003#32, 0x0000707F#32⟩, by decide, rfl, (encodeI_and_mask _ _ _ _ _).trans (by decide)⟩

theorem EncodedInRow.lb (rd rs1 : RegNum) (imm : BitVec 12) : EncodedInRow.Statement (.lb rd rs1 imm) :=
  ⟨⟨"LB", 0x00000003#32, 0x0000707F#32⟩, by decide, rfl, (encodeI_and_mask _ _ _ _ _).trans (by decide)⟩

theorem EncodedInRow.lhu (rd rs1 : RegNum) (imm : BitVec 12) : EncodedInRow.Statement (.lhu rd rs1 imm) :=
  ⟨⟨"LHU", 0x00005003#32, 0x0000707F#32⟩, by decide, rfl, (encodeI_and_mask _ _ _ _ _).trans (by decide)⟩

theorem EncodedInRow.lbu (rd rs1 : RegNum) (imm : BitVec 12) : EncodedInRow.Statement (.lbu rd rs1 imm) :=
  ⟨⟨"LBU", 0x00004003#32, 0x0000707F#32⟩, by decide, rfl, (encodeI_and_mask _ _ _ _ _).trans (by decide)⟩

theorem EncodedInRow.sw (rs1 rs2 : RegNum) (imm : BitVec 12) : EncodedInRow.Statement (.sw rs1 rs2 imm) :=
  ⟨⟨"SW", 0x00002023#32, 0x0000707F#32⟩, by decide, rfl, (encodeS_and_mask _ _ _ _ _).trans (by decide)⟩

theorem EncodedInRow.sh (rs1 rs2 : RegNum) (imm : BitVec 12) : EncodedInRow.Statement (.sh rs1 rs2 imm) :=
  ⟨⟨"SH", 0x00001023#32, 0x0000707F#32⟩, by decide, rfl, (encodeS_and_mask _ _ _ _ _).trans (by decide)⟩

theorem EncodedInRow.sb (rs1 rs2 : RegNum) (imm : BitVec 12) : EncodedInRow.Statement (.sb rs1 rs2 imm) :=
  ⟨⟨"SB", 0x00000023#32, 0x0000707F#32⟩, by decide, rfl, (encodeS_and_mask _ _ _ _ _).trans (by decide)⟩

theorem EncodedInRow.beq (rs1 rs2 : RegNum) (imm : BitVec 13) : EncodedInRow.Statement (.beq rs1 rs2 imm) :=
  ⟨⟨"BEQ", 0x00000063#32, 0x0000707F#32⟩, by decide, rfl, (encodeB_and_mask _ _ _ _ _).trans (by decide)⟩

theorem EncodedInRow.bne (rs1 rs2 : RegNum) (imm : BitVec 13) : EncodedInRow.Statement (.bne rs1 rs2 imm) :=
  ⟨⟨"BNE", 0x00001063#32, 0x0000707F#32⟩, by decide, rfl, (encodeB_and_mask _ _ _ _ _).trans (by decide)⟩

theorem EncodedInRow.blt (rs1 rs2 : RegNum) (imm : BitVec 13) : EncodedInRow.Statement (.blt rs1 rs2 imm) :=
  ⟨⟨"BLT", 0x00004063#32, 0x0000707F#32⟩, by decide, rfl, (encodeB_and_mask _ _ _ _ _).trans (by decide)⟩

theorem EncodedInRow.bge (rs1 rs2 : RegNum) (imm : BitVec 13) : EncodedInRow.Statement (.bge rs1 rs2 imm) :=
  ⟨⟨"BGE", 0x00005063#32, 0x0000707F#32⟩, by decide, rfl, (encodeB_and_mask _ _ _ _ _).trans (by decide)⟩

theorem EncodedInRow.bltu (rs1 rs2 : RegNum) (imm : BitVec 13) : EncodedInRow.Statement (.bltu rs1 rs2 imm) :=
  ⟨⟨"BLTU", 0x00006063#32, 0x0000707F#32⟩, by decide, rfl, (encodeB_and_mask _ _ _ _ _).trans (by decide)⟩

theorem EncodedInRow.bgeu (rs1 rs2 : RegNum) (imm : BitVec 13) : EncodedInRow.Statement (.bgeu rs1 rs2 imm) :=
  ⟨⟨"BGEU", 0x00007063#32, 0x0000707F#32⟩, by decide, rfl, (encodeB_and_mask _ _ _ _ _).trans (by decide)⟩

theorem EncodedInRow.jal (rd : RegNum) (imm : BitVec 21) : EncodedInRow.Statement (.jal rd imm) :=
  ⟨⟨"JAL", 0x0000006F#32, 0x0000007F#32⟩, by decide, rfl, (encodeJ_and_mask _ _ _).trans (by decide)⟩

theorem EncodedInRow.jalr (rd rs1 : RegNum) (imm : BitVec 12) : EncodedInRow.Statement (.jalr rd rs1 imm) :=
  ⟨⟨"JALR", 0x00000067#32, 0x0000707F#32⟩, by decide, rfl, (encodeI_and_mask _ _ _ _ _).trans (by decide)⟩

theorem EncodedInRow.ecall : EncodedInRow.Statement (.ecall) :=
  ⟨⟨"ECALL", 0x00000073#32, 0xFFFFFFFF#32⟩, by decide, rfl, by decide⟩

theorem EncodedInRow.ebreak : EncodedInRow.Statement (.ebreak) :=
  ⟨⟨"EBREAK", 0x00100073#32, 0xFFFFFFFF#32⟩, by decide, rfl, by decide⟩

end Sys2Proof.Laws
end

