-- ==== Sys2Proof/Tests/Slice0.lean ====
section
/-! SUPPORT. Tests on fixed values, taken from the vectors of 95_test_vectors.md and the examples of the rules, and for
every obligation with hypotheses a witness that they can be met. -/

namespace Sys2Proof.Tests

open Sys2Proof Sys2Proof.Machine

/-! ### Helpers -/

/-- The state of a vector: the code bytes at `pc` and the page at 0x00020000 exist and are writable, every register not
listed is zero (95_test_vectors.md section 2). -/
def vector (policy : MisalignedPolicy) (pc w : Word) (regs : List (RegNum × Word)) (data : List Host.Cell) : State :=
  let p : Platform := ⟨[⟨pc.toNat, 4, true⟩, ⟨0x20000, 0x1000, true⟩], policy, Config.defaultSyscalls⟩
  let s : State :=
    { regs := Vector.replicate 31 0#32, pc := pc, status := .running, out := [], plat := p, calls := 0
      mem := Memory.putBytes (Memory.load p data) pc (bytesLE 4 w) }
  regs.foldl (fun s r => regWrite s r.1 r.2) s

/-- A vector under the policy fault at `pc = 0x00010000`. -/
def vec (w : Word) (regs : List (RegNum × Word)) (data : List Host.Cell) : State := vector .fault 0x10000#32 w regs data

/-- A vector at `pc = 0x00010004`, for branches and jumps. -/
def vec4 (w : Word) (regs : List (RegNum × Word)) : State := vector .fault 0x10004#32 w regs []

/-- The data bytes of section 2.4. -/
def bytes24 : List Host.Cell :=
  [(0x20000, 0x78#8), (0x20001, 0x56#8), (0x20002, 0x34#8), (0x20003, 0x92#8), (0x20004, 0xFF#8), (0x20005, 0x80#8),
   (0x20006, 0x7F#8), (0x20007, 0x00#8)]

/-- The string bytes of section 2.8. -/
def bytes28 : List Host.Cell := [(0x20000, 0x48#8), (0x20001, 0x69#8), (0x20FFE, 0x41#8), (0x20FFF, 0x42#8)]

/-- A field of the state after an outcome that is a next state. -/
def after {α : Type} (o : Host.Outcome State Fault Refusal) (f : State → α) : Option α :=
  match o with
  | .next t => some (f t)
  | .fault _ => none
  | .refused _ => none

/-- `pc`, status and one register after one step. -/
def run (s : State) (r : RegNum) : Option (Word × Status × Word) := after (step s) (fun t => (t.pc, t.status, regRead t r))

/-- `pc`, status and some bytes after one step. -/
def runMem (s : State) (a : Word) (n : Nat) : Option (Word × Status × List Byte) :=
  after (step s) (fun t => (t.pc, t.status, Memory.getBytes t.mem a n))

/-- `pc`, status and output after one step. -/
def runOut (s : State) : Option (Word × Status × List Event) := after (step s) (fun t => (t.pc, t.status, t.out))

/-! ### WellFormed refuses what has no encoding (30_encoding.md R79) -/

theorem test_odd_branch_offsets_refused :
    wellFormed (.beq 1#5 2#5 0x0003#13) = false ∧ wellFormed (.bne 1#5 2#5 0x1FFF#13) = false ∧
    wellFormed (.blt 1#5 2#5 0x0001#13) = false ∧ wellFormed (.bge 1#5 2#5 0x1001#13) = false ∧
    wellFormed (.bltu 1#5 2#5 0x0801#13) = false ∧ wellFormed (.bgeu 1#5 2#5 0x0FFF#13) = false := by decide

theorem test_odd_jump_offset_refused : wellFormed (.jal 1#5 0x000001#21) = false := by decide

theorem test_even_offsets_accepted :
    wellFormed (.beq 1#5 2#5 0x1000#13) = true ∧ wellFormed (.jal 1#5 0x100000#21) = true := by decide

/-! ### Words written out from their encodings (30_encoding.md R70 to R83), fields from the left -/

theorem test_decode_reg_reg :
    decodeWord 0b00000000001000001000000110110011#32 = .ok (.add 3#5 1#5 2#5) ∧
    decodeWord 0b01000000001000001000000110110011#32 = .ok (.sub 3#5 1#5 2#5) ∧
    decodeWord 0b00000000001000001111000110110011#32 = .ok (.and 3#5 1#5 2#5) ∧
    decodeWord 0b00000000001000001110000110110011#32 = .ok (.or 3#5 1#5 2#5) ∧
    decodeWord 0b00000000001000001100000110110011#32 = .ok (.xor 3#5 1#5 2#5) ∧
    decodeWord 0b00000000001000001001000110110011#32 = .ok (.sll 3#5 1#5 2#5) ∧
    decodeWord 0b00000000001000001101000110110011#32 = .ok (.srl 3#5 1#5 2#5) ∧
    decodeWord 0b01000000001000001101000110110011#32 = .ok (.sra 3#5 1#5 2#5) ∧
    decodeWord 0b00000000001000001010000110110011#32 = .ok (.slt 3#5 1#5 2#5) ∧
    decodeWord 0b00000000001000001011000110110011#32 = .ok (.sltu 3#5 1#5 2#5) := by decide

theorem test_decode_reg_imm :
    decodeWord 0b10100101101100001000000110010011#32 = .ok (.addi 3#5 1#5 0xA5B#12) ∧
    decodeWord 0b10100101101100001111000110010011#32 = .ok (.andi 3#5 1#5 0xA5B#12) ∧
    decodeWord 0b10100101101100001110000110010011#32 = .ok (.ori 3#5 1#5 0xA5B#12) ∧
    decodeWord 0b10100101101100001100000110010011#32 = .ok (.xori 3#5 1#5 0xA5B#12) ∧
    decodeWord 0b10100101101100001010000110010011#32 = .ok (.slti 3#5 1#5 0xA5B#12) ∧
    decodeWord 0b10100101101100001011000110010011#32 = .ok (.sltiu 3#5 1#5 0xA5B#12) ∧
    decodeWord 0b00000001010100001001000110010011#32 = .ok (.slli 3#5 1#5 21#5) ∧
    decodeWord 0b00000001010100001101000110010011#32 = .ok (.srli 3#5 1#5 21#5) ∧
    decodeWord 0b01000001010100001101000110010011#32 = .ok (.srai 3#5 1#5 21#5) := by decide

theorem test_decode_upper_imm :
    decodeWord 0b11011110101011011011001010110111#32 = .ok (.lui 5#5 0xDEADB#20) ∧
    decodeWord 0b11011110101011011011001010010111#32 = .ok (.auipc 5#5 0xDEADB#20) := by decide

theorem test_decode_loads :
    decodeWord 0b11111111110000001010000110000011#32 = .ok (.lw 3#5 1#5 0xFFC#12) ∧
    decodeWord 0b11111111110000001001000110000011#32 = .ok (.lh 3#5 1#5 0xFFC#12) ∧
    decodeWord 0b11111111110000001000000110000011#32 = .ok (.lb 3#5 1#5 0xFFC#12) ∧
    decodeWord 0b11111111110000001101000110000011#32 = .ok (.lhu 3#5 1#5 0xFFC#12) ∧
    decodeWord 0b11111111110000001100000110000011#32 = .ok (.lbu 3#5 1#5 0xFFC#12) := by decide

theorem test_decode_stores :
    decodeWord 0b10100100001000001010110110100011#32 = .ok (.sw 1#5 2#5 0xA5B#12) ∧
    decodeWord 0b10100100001000001001110110100011#32 = .ok (.sh 1#5 2#5 0xA5B#12) ∧
    decodeWord 0b10100100001000001000110110100011#32 = .ok (.sb 1#5 2#5 0xA5B#12) := by decide

theorem test_decode_branches :
    decodeWord 0b10100100001000001000110101100011#32 = .ok (.beq 1#5 2#5 0x125A#13) ∧
    decodeWord 0b00100100001000001001110111100011#32 = .ok (.bne 1#5 2#5 0x0A5A#13) ∧
    decodeWord 0b10100100001000001100110101100011#32 = .ok (.blt 1#5 2#5 0x125A#13) ∧
    decodeWord 0b00100100001000001101110111100011#32 = .ok (.bge 1#5 2#5 0x0A5A#13) ∧
    decodeWord 0b10100100001000001110110101100011#32 = .ok (.bltu 1#5 2#5 0x125A#13) ∧
    decodeWord 0b00100100001000001111110111100011#32 = .ok (.bgeu 1#5 2#5 0x0A5A#13) := by decide

theorem test_decode_jumps :
    decodeWord 0b11011010010010100101000011101111#32 = .ok (.jal 1#5 0x1A55A4#21) ∧
    decodeWord 0b10000000010000010000000011100111#32 = .ok (.jalr 1#5 2#5 0x804#12) := by decide

theorem test_decode_system :
    decodeWord 0b00000000000000000000000001110011#32 = .ok (.ecall) ∧
    decodeWord 0b00000000000100000000000001110011#32 = .ok (.ebreak) := by decide

theorem test_encode_pieces :
    encode (.sw 1#5 2#5 0x7FF#12) = 0x7E20AFA3#32 ∧ encode (.bne 5#5 0#5 0x1FF8#13) = 0xFE029CE3#32 ∧
    encode (.jal 1#5 0x0FFFFE#21) = 0x7FFFF0EF#32 ∧ encode (.lui 5#5 0xDEADB#20) = 0xDEADB2B7#32 := by decide

/-- One word of each of the cases of 30_encoding.md R84 (95_test_vectors.md section 2.9). -/
theorem test_illegal_words :
    decodeWord 0x00000000#32 = .error .opcode ∧ decodeWord 0x0000000F#32 = .error .opcode ∧
    decodeWord 0x022081B3#32 = .error .regRegFunct ∧ decodeWord 0x40001033#32 = .error .regRegFunct ∧
    decodeWord 0x02009193#32 = .error .shiftFunct7 ∧ decodeWord 0x2010D193#32 = .error .shiftFunct7 ∧
    decodeWord 0x00003003#32 = .error .loadFunct3 ∧ decodeWord 0x00003023#32 = .error .storeFunct3 ∧
    decodeWord 0x00002063#32 = .error .branchFunct3 ∧ decodeWord 0x00001067#32 = .error .jalrFunct3 ∧
    decodeWord 0x000000F3#32 = .error .system ∧ decodeWord 0x30529073#32 = .error .system := by decide

theorem test_short_code_is_truncated : decode [0x13#8, 0x00#8, 0x00#8] = .error .truncated := by decide

/-- Assembler syntax as the source prints it (30_encoding.md R87). -/
theorem test_assembler_syntax :
    asm (.lw 3#5 1#5 0xFFC#12) = "LW x3, -4(x1)" ∧ asm (.sw 1#5 2#5 0x7FF#12) = "SW x2, 2047(x1)" ∧
    asm (.lui 5#5 0xDEADB#20) = "LUI x5, 0xDEADB" ∧ asm .ecall = "ECALL" := by decide

/-! ### One step of each instruction (95_test_vectors.md sections 2.1 to 2.8) -/

theorem test_add_overflow :
    run (vec 0x002081B3#32 [(1#5, 0x7FFFFFFF#32), (2#5, 0x00000001#32)] []) 3#5 = some (0x00010004#32, .running, 0x80000000#32) := by decide

theorem test_add_to_zero_register :
    run (vec 0x00208033#32 [(1#5, 0x00000005#32), (2#5, 0x00000006#32)] []) 0#5 = some (0x00010004#32, .running, 0x00000000#32) := by decide

theorem test_sub_borrow :
    run (vec 0x402081B3#32 [(1#5, 0x00000000#32), (2#5, 0x00000001#32)] []) 3#5 = some (0x00010004#32, .running, 0xFFFFFFFF#32) := by decide

theorem test_and :
    run (vec 0x0020F1B3#32 [(1#5, 0xF0F0F0F0#32), (2#5, 0x0FF00FF0#32)] []) 3#5 = some (0x00010004#32, .running, 0x00F000F0#32) := by decide

theorem test_or :
    run (vec 0x0020E1B3#32 [(1#5, 0xF0F0F0F0#32), (2#5, 0x0FF00FF0#32)] []) 3#5 = some (0x00010004#32, .running, 0xFFF0FFF0#32) := by decide

theorem test_xor :
    run (vec 0x0020C1B3#32 [(1#5, 0xF0F0F0F0#32), (2#5, 0x0FF00FF0#32)] []) 3#5 = some (0x00010004#32, .running, 0xFF00FF00#32) := by decide

theorem test_sll_by_low_bits :
    run (vec 0x002091B3#32 [(1#5, 0x00000001#32), (2#5, 0x0000003F#32)] []) 3#5 = some (0x00010004#32, .running, 0x80000000#32) := by decide

theorem test_srl_by_low_bits :
    run (vec 0x0020D1B3#32 [(1#5, 0x80000000#32), (2#5, 0x00000021#32)] []) 3#5 = some (0x00010004#32, .running, 0x40000000#32) := by decide

theorem test_sra_negative :
    run (vec 0x4020D1B3#32 [(1#5, 0x80000000#32), (2#5, 0x00000004#32)] []) 3#5 = some (0x00010004#32, .running, 0xF8000000#32) := by decide

theorem test_slt_signed :
    run (vec 0x0020A1B3#32 [(1#5, 0xFFFFFFFF#32), (2#5, 0x00000001#32)] []) 3#5 = some (0x00010004#32, .running, 0x00000001#32) := by decide

theorem test_sltu_unsigned :
    run (vec 0x0020B1B3#32 [(1#5, 0xFFFFFFFF#32), (2#5, 0x00000001#32)] []) 3#5 = some (0x00010004#32, .running, 0x00000000#32) := by decide

theorem test_addi_negative :
    run (vec 0x80008293#32 [(1#5, 0x00000800#32)] []) 5#5 = some (0x00010004#32, .running, 0x00000000#32) := by decide

theorem test_andi_sign_extends :
    run (vec 0xF0F0F193#32 [(1#5, 0x12345678#32)] []) 3#5 = some (0x00010004#32, .running, 0x12345608#32) := by decide

theorem test_ori_sign_extends :
    run (vec 0x8000E193#32 [(1#5, 0x00000001#32)] []) 3#5 = some (0x00010004#32, .running, 0xFFFFF801#32) := by decide

theorem test_xori_inverts :
    run (vec 0xFFF0C193#32 [(1#5, 0x12345678#32)] []) 3#5 = some (0x00010004#32, .running, 0xEDCBA987#32) := by decide

theorem test_slti :
    run (vec 0xFFF0A193#32 [(1#5, 0xFFFFFFFE#32)] []) 3#5 = some (0x00010004#32, .running, 0x00000001#32) := by decide

theorem test_sltiu_sign_extends_first :
    run (vec 0xFFF0B193#32 [(1#5, 0xFFFFFFFE#32)] []) 3#5 = some (0x00010004#32, .running, 0x00000001#32) := by decide

theorem test_slli :
    run (vec 0x01F09193#32 [(1#5, 0x00000003#32)] []) 3#5 = some (0x00010004#32, .running, 0x80000000#32) := by decide

theorem test_srli :
    run (vec 0x0040D193#32 [(1#5, 0x89ABCDEF#32)] []) 3#5 = some (0x00010004#32, .running, 0x089ABCDE#32) := by decide

theorem test_srai :
    run (vec 0x4040D193#32 [(1#5, 0x89ABCDEF#32)] []) 3#5 = some (0x00010004#32, .running, 0xF89ABCDE#32) := by decide

theorem test_lui :
    run (vec 0xDEADB2B7#32 [] []) 5#5 = some (0x00010004#32, .running, 0xDEADB000#32) := by decide

theorem test_auipc_wraps :
    run (vec 0xFFFF0297#32 [] []) 5#5 = some (0x00010004#32, .running, 0x00000000#32) := by decide

theorem test_lw :
    run (vec 0xFFC0A183#32 [(1#5, 0x00020004#32)] bytes24) 3#5 = some (0x00010004#32, .running, 0x92345678#32) := by decide

theorem test_lw_misaligned :
    run (vec 0x0010A183#32 [(1#5, 0x00020000#32)] bytes24) 3#5 = some (0x00010000#32, .faulted (.addressMisaligned .load 0x00020001#32), 0x00000000#32) := by decide

theorem test_lh_negative :
    run (vec 0x00209183#32 [(1#5, 0x00020000#32)] bytes24) 3#5 = some (0x00010004#32, .running, 0xFFFF9234#32) := by decide

theorem test_lb_negative :
    run (vec 0x00308183#32 [(1#5, 0x00020000#32)] bytes24) 3#5 = some (0x00010004#32, .running, 0xFFFFFF92#32) := by decide

theorem test_lhu :
    run (vec 0x0020D183#32 [(1#5, 0x00020000#32)] bytes24) 3#5 = some (0x00010004#32, .running, 0x00009234#32) := by decide

theorem test_lhu_bytewise :
    run (vector .bytewise 0x10000#32 0x0030D183#32 [(1#5, 0x00020000#32)] bytes24) 3#5 = some (0x00010004#32, .running, 0x0000FF92#32) := by decide

theorem test_lbu :
    run (vec 0x0030C183#32 [(1#5, 0x00020000#32)] bytes24) 3#5 = some (0x00010004#32, .running, 0x00000092#32) := by decide

theorem test_lbu_unmapped :
    run (vec 0xFFF0C183#32 [(1#5, 0x00020000#32)] bytes24) 3#5 = some (0x00010000#32, .faulted (.accessFault .load 0x0001FFFF#32), 0x00000000#32) := by decide

theorem test_sw_little_endian :
    runMem (vec 0x0020A023#32 [(1#5, 0x00020008#32), (2#5, 0xA1B2C3D4#32)] []) 0x00020008#32 5 =
      some (0x00010004#32, .running, [0xD4#8, 0xC3#8, 0xB2#8, 0xA1#8, 0x00#8]) := by decide

theorem test_sw_unwritable :
    runMem (vec 0x0020A023#32 [(1#5, 0x00030000#32), (2#5, 0x00000001#32)] []) 0x00020000#32 1 =
      some (0x00010000#32, .faulted (.accessFault .store 0x00030000#32), [0x00#8]) := by decide

theorem test_sh_keeps_neighbours :
    runMem (vec 0x00209123#32 [(1#5, 0x00020000#32), (2#5, 0xA1B2C3D4#32)] bytes24) 0x00020001#32 4 =
      some (0x00010004#32, .running, [0x56#8, 0xD4#8, 0xC3#8, 0xFF#8]) := by decide

theorem test_sh_misaligned :
    runMem (vec 0x002090A3#32 [(1#5, 0x00020008#32), (2#5, 0xA1B2C3D4#32)] []) 0x00020008#32 3 =
      some (0x00010000#32, .faulted (.addressMisaligned .store 0x00020009#32), [0x00#8, 0x00#8, 0x00#8]) := by decide

theorem test_sb :
    runMem (vec 0xFE208FA3#32 [(1#5, 0x0002000C#32), (2#5, 0xA1B2C3D4#32)] []) 0x00020008#32 5 =
      some (0x00010004#32, .running, [0x00#8, 0x00#8, 0x00#8, 0xD4#8, 0x00#8]) := by decide

theorem test_beq_taken :
    run (vec4 0x00208463#32 [(1#5, 0x00000005#32), (2#5, 0x00000005#32)]) 1#5 = some (0x0001000C#32, .running, 0x00000005#32) := by decide

theorem test_beq_misaligned :
    run (vec4 0x00000363#32 []) 0#5 = some (0x00010004#32, .faulted (.instructionAddressMisaligned 0x0001000A#32), 0x00000000#32) := by decide

theorem test_bne_backward :
    run (vec4 0xFE209EE3#32 [(1#5, 0x00000005#32), (2#5, 0x00000006#32)]) 1#5 = some (0x00010000#32, .running, 0x00000005#32) := by decide

theorem test_blt_signed :
    run (vec4 0x0020C463#32 [(1#5, 0xFFFFFFFF#32), (2#5, 0x00000001#32)]) 2#5 = some (0x0001000C#32, .running, 0x00000001#32) := by decide

theorem test_bge_not_taken :
    run (vec4 0x0020D463#32 [(1#5, 0x80000000#32), (2#5, 0x00000000#32)]) 2#5 = some (0x00010008#32, .running, 0x00000000#32) := by decide

theorem test_bltu_not_taken :
    run (vec4 0x0020E463#32 [(1#5, 0xFFFFFFFF#32), (2#5, 0x00000001#32)]) 2#5 = some (0x00010008#32, .running, 0x00000001#32) := by decide

theorem test_bgeu_taken :
    run (vec4 0x0020F463#32 [(1#5, 0x80000000#32), (2#5, 0x00000000#32)]) 2#5 = some (0x0001000C#32, .running, 0x00000000#32) := by decide

theorem test_jal_wraps :
    run (vec4 0x800000EF#32 []) 1#5 = some (0xFFF10004#32, .running, 0x00010008#32) := by decide

theorem test_jal_misaligned :
    run (vec4 0x002000EF#32 [(1#5, 0xAAAAAAAA#32)]) 1#5 = some (0x00010004#32, .faulted (.instructionAddressMisaligned 0x00010006#32), 0xAAAAAAAA#32) := by decide

theorem test_jalr_uses_old_register :
    run (vec4 0x004080E7#32 [(1#5, 0x00010009#32)]) 1#5 = some (0x0001000C#32, .running, 0x00010008#32) := by decide

theorem test_jalr_misaligned :
    run (vec4 0xFFF100E7#32 [(2#5, 0x00000000#32)]) 1#5 = some (0x00010004#32, .faulted (.instructionAddressMisaligned 0xFFFFFFFE#32), 0x00000000#32) := by decide

theorem test_ecall_print_string :
    runOut (vec 0x00000073#32 [(10#5, 0x00000004#32), (11#5, 0x00020000#32)] bytes28) = some (0x00010004#32, .running, [.printString [0x48#8, 0x69#8]]) := by decide

theorem test_ecall_string_unmapped :
    runOut (vec 0x00000073#32 [(10#5, 0x00000004#32), (11#5, 0x00020FFE#32)] bytes28) = some (0x00010000#32, .faulted (.accessFault .load 0x00021000#32), []) := by decide

theorem test_ebreak :
    runOut (vec 0x00100073#32 [(10#5, 0x00000001#32), (11#5, 0x00000005#32)] []) = some (0x00010000#32, .halted .break_, []) := by decide

/-! ### The step rule (95_test_vectors.md sections 2.9 and 2.10) -/

theorem test_illegal_word_raises :
    run (vec 0x022081B3#32 [] []) 3#5 = some (0x10000#32, .faulted (.illegalInstruction 0x022081B3#32), 0#32) := by decide

theorem test_misaligned_pc_raises :
    run (vector .fault 0x10002#32 0x00000013#32 [] []) 0#5 =
      some (0x10002#32, .faulted (.instructionAddressMisaligned 0x10002#32), 0#32) := by decide

theorem test_no_step_after_the_end : step { vec 0x00000013#32 [] [] with status := .halted .exit } = .fault .notRunning :=
  rfl

/-- From reset with nothing placed the first word is zero, which is no instruction (log entry 8). -/
theorem test_reset_fetches_illegal_word :
    run State.reset 0#5 = some (0x00010000#32, .faulted (.illegalInstruction 0#32), 0#32) := by decide

theorem test_placed_word_runs :
    run (State.reset.withFetchWord 32 0xFFF00293) 5#5 = some (0x00010004#32, .running, 0xFFFFFFFF#32) := by decide

/-! ### Witnesses: the hypotheses of each obligation can be met, at boundary values

A witness is named after its obligation. The state `wide` has every address mapped and writable, `narrow` only the page
at 0x00020000 and the code bytes at 0x00010000. -/

/-- Every address exists; the byte at 0x00020000 is 0x41. -/
def wide (policy : MisalignedPolicy) (n : Nat) (a0 a1 : Word) : State :=
  { State.reset with
    regs := (State.reset.regs.set 9 a0).set 10 a1
    pc := BitVec.ofNat 32 n
    mem := [(0x20000, 0x41#8)]
    plat := ⟨Config.defaultRegions, policy, Config.defaultSyscalls⟩ }

/-- Only the code bytes and the page at 0x00020000 exist. -/
def narrow (a0 a1 : Word) : State := vec 0x00000073#32 [(10#5, a0), (11#5, a1)] []

theorem witness_EncodedInstrDecodesBack :
    wellFormed (.bgeu 31#5 31#5 0x1FFE#13) = true ∧ wellFormed (.jal 31#5 0x1FFFFE#21) = true ∧ wellFormed .ecall = true := by decide

theorem witness_DecodedWordEncodesBack :
    decodeWord 0xFFFFFFE3#32 = .ok (.bgeu 31#5 31#5 0x1FFE#13) := by decide

theorem witness_DecoderFollowsOpcodeTable :
    (⟨"SRAI", 0x40005013#32, 0xFE00707F#32⟩ : OpcodeRow) ∈ opcodeTable ∧
    0x41F0D193#32 &&& 0xFE00707F#32 = 0x40005013#32 ∧ decodeWord 0x41F0D193#32 = .ok (.srai 3#5 1#5 31#5) := by decide

theorem witness_FieldsStandAtTheirBits :
    decodeWord 0x01FFBFB3#32 = .ok (.sltu 31#5 31#5 31#5) ∧
    destination (.sltu 31#5 31#5 31#5) = some 31#5 ∧ Instr.sltu 31#5 31#5 31#5 ≠ .ecall := by decide

/-- Each clause at the ends of its immediate's range. -/
theorem witness_ImmediatesAreTheSourceExpressions :
    (decodeWord 0x80000003#32 = .ok (.lb 0#5 0#5 0x800#12) ∧ opcodeOf 0x80000003#32 = 0x03#7) ∧
    (decodeWord 0x7FF00013#32 = .ok (.addi 0#5 0#5 0x7FF#12) ∧ opcodeOf 0x7FF00013#32 = 0x13#7 ∧
      funct3Of 0x7FF00013#32 = 0x0#3) ∧
    (decodeWord 0x80000067#32 = .ok (.jalr 0#5 0#5 0x800#12) ∧ opcodeOf 0x80000067#32 = 0x67#7) ∧
    (decodeWord 0x7E000FA3#32 = .ok (.sb 0#5 0#5 0x7FF#12) ∧ opcodeOf 0x7E000FA3#32 = 0x23#7) ∧
    (decodeWord 0x80000063#32 = .ok (.beq 0#5 0#5 0x1000#13) ∧ opcodeOf 0x80000063#32 = 0x63#7) ∧
    (decodeWord 0x7E000FE3#32 = .ok (.beq 0#5 0#5 0x0FFE#13)) ∧
    (decodeWord 0xFFFFF037#32 = .ok (.lui 0#5 0xFFFFF#20) ∧ opcodeOf 0xFFFFF037#32 = 0x37#7) ∧
    (decodeWord 0x00000017#32 = .ok (.auipc 0#5 0x00000#20) ∧ opcodeOf 0x00000017#32 = 0x17#7) ∧
    (decodeWord 0x8000006F#32 = .ok (.jal 0#5 0x100000#21) ∧ opcodeOf 0x8000006F#32 = 0x6F#7) ∧
    (decodeWord 0x7FFFF06F#32 = .ok (.jal 0#5 0x0FFFFE#21)) := by decide

theorem witness_ExtensionCopiesTheSignBit :
    (0 < 1 ∧ 1 ≤ 32 ∧ sext 1#1 = 0xFFFFFFFF#32 ∧ zext 1#1 = 1#32) ∧ (0 < 32 ∧ 32 ≤ 32 ∧ sext 0x80000000#32 = 0x80000000#32) := by decide

theorem witness_ZeroRegisterAndRegisterFile :
    1#5 ≠ 0#5 ∧ 31#5 ≠ 0#5 ∧ 1#5 ≠ 31#5 ∧ destination (.lbu 31#5 0#5 0#12) ≠ none ∧ destination (.jal 0#5 0#21) ≠ none := by decide

theorem witness_ShiftsByImmediate :
    (opcodeOf 0x02009193#32 = 0x13#7 ∧ funct3Of 0x02009193#32 = 0x1#3 ∧ funct7Of 0x02009193#32 ≠ 0x00#7) ∧
    (opcodeOf 0xFE00D193#32 = 0x13#7 ∧ funct3Of 0xFE00D193#32 = 0x5#3 ∧ funct7Of 0xFE00D193#32 ≠ 0x00#7 ∧
      funct7Of 0xFE00D193#32 ≠ 0x20#7) := by decide

/-- At the top of the address space, and across it under bytewise. -/
theorem witness_LoadWordResult :
    (AlignmentOk (wide .fault 0 0 0) 0xFFFFFFFC#32 4 ∧ AllMapped (wide .fault 0 0 0) 0xFFFFFFFC#32 4 ∧
      0xFFFFFFFC#32 = effectiveAddress (regRead (wide .fault 0 0 0) 0#5) 0xFFC#12) ∧
    (AlignmentOk (wide .bytewise 0 0 0) 0xFFFFFFFE#32 4 ∧ AllMapped (wide .bytewise 0 0 0) 0xFFFFFFFE#32 4) := by
  simp only [AlignmentOk, AllMapped]
  decide

theorem witness_LoadHalfwordResults :
    AlignmentOk (narrow 0 0x20FFE#32) 0x20FFE#32 2 ∧ AllMapped (narrow 0 0x20FFE#32) 0x20FFE#32 2 ∧
      0x20FFE#32 = effectiveAddress (regRead (narrow 0 0x20FFE#32) 11#5) 0#12 := by
  simp only [AlignmentOk, AllMapped]
  decide

theorem witness_LoadByteResults :
    isMapped (narrow 0 0x20FFF#32).plat 0x20FFF#32 = true ∧
      0x20FFF#32 = effectiveAddress (regRead (narrow 0 0x20FFF#32) 11#5) 0#12 := by decide

theorem witness_StoreResults :
    (AlignmentOk (narrow 0 0x20000#32) 0x20FFC#32 4 ∧ AllWritable (narrow 0 0x20000#32) 0x20FFC#32 4) ∧
    (AlignmentOk (narrow 0 0x20000#32) 0x20FFE#32 2 ∧ AllWritable (narrow 0 0x20000#32) 0x20FFE#32 2) ∧
    isWritable (narrow 0 0x20000#32).plat 0x20FFF#32 = true ∧
    0x1F800#32 = effectiveAddress (regRead (narrow 0 0x20000#32) 11#5) 0x800#12 := by
  simp only [AlignmentOk, AllWritable]
  decide

theorem witness_MisalignedAccessRaises :
    (narrow 0 0x20003#32).plat.misaligned = .fault ∧ (0x20003#32).toNat % 4 ≠ 0 ∧ (0x20003#32).toNat % 2 ≠ 0 ∧
    0x20003#32 = effectiveAddress (regRead (narrow 0 0x20003#32) 11#5) 0#12 := by decide

/-- The first failing byte is the first of an access, or a later one. -/
theorem witness_AccessOutsideMemoryRaises :
    (AlignmentOk (vector .bytewise 0x10000#32 0#32 [] []) 0x20FFE#32 4 ∧
      FirstFails (isMapped (vector .bytewise 0x10000#32 0#32 [] []).plat) 0x20FFE#32 4 2) ∧
    (AlignmentOk (narrow 0 0) 0x21000#32 2 ∧ FirstFails (isMapped (narrow 0 0).plat) 0x21000#32 2 0) ∧
    isMapped (narrow 0 0).plat 0x1FFFF#32 = false ∧
    (AlignmentOk (narrow 0 0) 0x21000#32 4 ∧ FirstFails (isWritable (narrow 0 0).plat) 0x21000#32 4 0) ∧
    (AlignmentOk (vector .bytewise 0x10000#32 0#32 [] []) 0x20FFF#32 2 ∧
      FirstFails (isWritable (vector .bytewise 0x10000#32 0#32 [] []).plat) 0x20FFF#32 2 1) ∧
    isWritable (narrow 0 0).plat 0x21000#32 = false := by
  simp only [AlignmentOk, FirstFails]
  decide

theorem witness_DataIsLittleEndian :
    (AlignmentOk (wide .fault 0 0 0) 0xFFFFFFFE#32 2 ∧ AllWritable (wide .fault 0 0 0) 0xFFFFFFFE#32 2 ∧
      AllMapped (wide .fault 0 0 0) 0xFFFFFFFE#32 2) ∧
    (AlignmentOk (wide .fault 0 0 0) 0x00000000#32 4 ∧ AllWritable (wide .fault 0 0 0) 0x00000000#32 4 ∧
      AllMapped (wide .fault 0 0 0) 0x00000000#32 4) := by
  simp only [AlignmentOk, AllMapped, AllWritable]
  decide

theorem witness_MixedWidthsSeeTheSameBytes :
    AlignmentOk (wide .bytewise 0 0 0) 0xFFFFFFFF#32 4 ∧ AllWritable (wide .bytewise 0 0 0) 0xFFFFFFFF#32 4 := by
  simp only [AlignmentOk, AllWritable]
  decide

/-- Taken and not taken, to both ends of the range of aligned offsets. -/
theorem witness_EqualityBranches :
    (regRead (narrow 5 5) 10#5 = regRead (narrow 5 5) 11#5 ∧
      (BitVec.ofInt 32 ((narrow 5 5).pc.toInt + (0x1000#13).toInt)).toNat % 4 = 0) ∧
    (regRead (narrow 5 6) 10#5 ≠ regRead (narrow 5 6) 11#5 ∧
      (BitVec.ofInt 32 ((narrow 5 6).pc.toInt + (0x0FFC#13).toInt)).toNat % 4 = 0) := by decide

theorem witness_SignedBranches :
    (regRead (narrow 0x80000000#32 0x7FFFFFFF#32) 10#5).toInt < (regRead (narrow 0x80000000#32 0x7FFFFFFF#32) 11#5).toInt ∧
    (regRead (narrow 5 5) 10#5).toInt ≥ (regRead (narrow 5 5) 11#5).toInt ∧
    (BitVec.ofInt 32 ((narrow 5 5).pc.toInt + (0x1000#13).toInt)).toNat % 4 = 0 := by decide

theorem witness_UnsignedBranches :
    (regRead (narrow 0 0xFFFFFFFF#32) 10#5).toNat < (regRead (narrow 0 0xFFFFFFFF#32) 11#5).toNat ∧
    (regRead (narrow 5 5) 10#5).toNat ≥ (regRead (narrow 5 5) 11#5).toNat ∧
    (BitVec.ofInt 32 ((narrow 5 5).pc.toInt + (0x0FFC#13).toInt)).toNat % 4 = 0 := by decide

theorem witness_JumpAndLinkResult :
    0xFFF10000#32 = BitVec.ofInt 32 ((narrow 0 0).pc.toInt + (0x100000#21).toInt) ∧ (0xFFF10000#32).toNat % 4 = 0 := by decide

theorem witness_JumpAndLinkRegisterResult :
    (0x00000000#32).toNat =
      (BitVec.ofInt 32 ((regRead (narrow 0 0xFFFFFFFF#32) 11#5).toInt + (2#12).toInt)).toNat / 2 * 2 ∧
    (0x00000000#32).toNat % 4 = 0 := by decide

theorem witness_MisalignedTargetRaises :
    (0x00010002#32).toNat % 4 ≠ 0 ∧
    0x00010002#32 = BitVec.ofInt 32 ((narrow 0x10002#32 0x10003#32).pc.toInt + (0x0002#13).toInt) ∧
    0x00010002#32 = BitVec.ofInt 32 ((narrow 0x10002#32 0x10003#32).pc.toInt + (0x000002#21).toInt) ∧
    (0x00010002#32).toNat =
      (BitVec.ofInt 32 ((regRead (narrow 0x10002#32 0x10003#32) 11#5).toInt + (0#12).toInt)).toNat / 2 * 2 ∧
    regRead (narrow 0x10002#32 0x10003#32) 10#5 ≠ regRead (narrow 0x10002#32 0x10003#32) 11#5 ∧
    regRead (narrow 0x10002#32 0x10003#32) 10#5 = regRead (narrow 0x10002#32 0x10003#32) 10#5 ∧
    (regRead (narrow 0x10002#32 0x10003#32) 10#5).toInt < (regRead (narrow 0x10002#32 0x10003#32) 11#5).toInt ∧
    (regRead (narrow 0x10002#32 0x10003#32) 11#5).toInt ≥ (regRead (narrow 0x10002#32 0x10003#32) 10#5).toInt ∧
    (regRead (narrow 0x10002#32 0x10003#32) 10#5).toNat < (regRead (narrow 0x10002#32 0x10003#32) 11#5).toNat ∧
    (regRead (narrow 0x10002#32 0x10003#32) 11#5).toNat ≥ (regRead (narrow 0x10002#32 0x10003#32) 10#5).toNat := by decide

theorem witness_EcallPrintInteger :
    lookupService (narrow 1 0).plat.syscalls (regRead (narrow 1 0) 10#5) = some .printInteger := by decide

/-- The empty string at the last mapped byte, and a string of one byte. -/
theorem witness_EcallPrintString :
    lookupService (narrow 4 0x20FFF#32).plat.syscalls (regRead (narrow 4 0x20FFF#32) 10#5) = some .printString ∧
    (∀ j, j ≤ 0 → isMapped (narrow 4 0x20FFF#32).plat (nthAddr 0x20FFF#32 j) = true) ∧
    (∀ j, j < 0 → nthByte (narrow 4 0x20FFF#32) 0x20FFF#32 j ≠ 0x00#8) ∧
    nthByte (narrow 4 0x20FFF#32) 0x20FFF#32 0 = 0x00#8 ∧
    (∀ j, j ≤ 1 → isMapped (wide .fault 0 4 0x20000).plat (nthAddr 0x20000#32 j) = true) ∧
    (∀ j, j < 1 → nthByte (wide .fault 0 4 0x20000) 0x20000#32 j ≠ 0x00#8) ∧
    nthByte (wide .fault 0 4 0x20000) 0x20000#32 1 = 0x00#8 := by
  refine ⟨by decide, ?_, by omega, by decide, ?_, ?_, by decide⟩ <;> intro j hj <;> interval_cases j <;> decide

/-- A memory in which every one of the first n addresses holds 0x41. -/
def allOnes (n : Nat) : Memory := (List.range n).map (fun a => (a, 0x41#8))

theorem get_allOnes (n a : Nat) (h : a < n) : Memory.get (allOnes n) a = 0x41#8 := by
  have key : ∀ l : List Nat, a ∈ l → Memory.get (l.map (fun b => (b, 0x41#8))) a = 0x41#8 := by
    intro l
    induction l with
    | nil => simp
    | cons b rest ih =>
      intro hm
      by_cases hb : b = a
      · simp [Memory.get, hb]
      · have hr : a ∈ rest := by simpa [Ne.symm hb] using hm
        simp [Memory.get, hb, ih hr]
  exact key _ (by simpa using h)

/-- A state with no zero byte anywhere, whose `a0` asks for a string. -/
def endless : State := { wide .fault 0 4 0 with mem := allOnes 4294967296 }

/-- Unmapped at once, and a memory without any zero byte. -/
theorem witness_EcallPrintStringRaises :
    (lookupService (narrow 4 0x21000#32).plat.syscalls (regRead (narrow 4 0x21000#32) 10#5) = some .printString ∧
      isMapped (narrow 4 0x21000#32).plat (nthAddr 0x21000#32 0) = false) ∧
    lookupService endless.plat.syscalls (regRead endless 10#5) = some .printString ∧
    (∀ a : Word, isMapped endless.plat a = true ∧ Memory.get endless.mem a.toNat ≠ 0x00#8) := by
  refine ⟨by decide, by decide, ?_⟩
  intro a
  have ha : a.toNat < 4294967296 := a.isLt
  refine ⟨?_, ?_⟩
  · simp [endless, wide, isMapped, Config.defaultRegions, regionHas, addressSpace, ha]
  · rw [endless, get_allOnes _ _ ha]
    decide

theorem witness_EcallExits :
    lookupService (narrow 10 0).plat.syscalls (regRead (narrow 10 0) 10#5) = some .exit ∧
    lookupService (narrow 93 0xFFFFFFFF#32).plat.syscalls (regRead (narrow 93 0xFFFFFFFF#32) 10#5) = some .exitWithCode := by decide

/-- A running state at an ECALL in which service 7, added by the platform, is asked for; a1 holds an address. -/
def serving (d : AddedService) (a1 : Word) : State :=
  let s := narrow 7 a1
  { s with plat := { s.plat with syscalls := [(7#32, .added d)] } }

/-- An added service that reads a2 and memory. -/
def editing : AddedService := ⟨0, [12#5], true⟩

/-- Whatever an added service does, no register changes (47_system.md R191). -/
theorem test_added_service_writes_no_register (d : AddedService) (a1 : Word) (r : RegNum) :
    after (exec .ecall (serving d a1)) (fun t => regRead t r) = some (regRead (serving d a1) r) := by
  obtain ⟨t, ht, he⟩ := exec_effect .ecall (serving d a1)
  rw [ht, after]
  cases he with
  | result rd v h => cases h
  | linked rd p h => cases h
  | _ => rfl

/-- An added service reads the registers it says it reads, and the listed bytes of `MAPPED`. -/
theorem test_added_service_reads :
    editing.readsRegs.map (regRead (serving editing 7)) = [0#32] ∧
    memoryFor { serving editing 7 with mem := [(0x20000, 1#8), (0x30000, 2#8)] } editing = [(0x20000, 1#8)] := by decide

theorem test_added_service_faults_before_it_writes :
    (performResult (narrow 7 0) (.goesOn [(0x20FFF#32, 1#8), (0x21000#32, 2#8)] [.printInt 3#32])).status =
      .faulted (.accessFault .store 0x21000#32) ∧
    Memory.get (performResult (narrow 7 0) (.goesOn [(0x20FFF#32, 1#8), (0x21000#32, 2#8)] [])).mem 0x20FFF =
      0x00#8 := by decide

/-- An unknown number, an added service, and stores at and beyond the last writable byte. -/
theorem witness_EcallBeyondTheFourServices :
    lookupService (narrow 0x8000000A#32 0).plat.syscalls (regRead (narrow 0x8000000A#32 0) 10#5) = none ∧
    lookupService (serving editing 0).plat.syscalls (regRead (serving editing 0) 10#5) = some (.added editing) ∧
    (isWritable (narrow 7 0).plat 0x20FFF#32 = true ∧ isWritable (narrow 7 0).plat 0x21000#32 = false) ∧
    (∀ c ∈ [(0x20FFF#32, 1#8), (0x20FFF#32, 2#8)], isWritable (narrow 7 0).plat c.1 = true) ∧
    Memory.get (performResult (narrow 7 0) (.goesOn [(0x20FFF#32, 1#8), (0x20FFF#32, 2#8)] [])).mem 0x20FFF = 2#8 ∧
    [(0x20FFF#32, 1#8), (0x20FFF#32, 2#8)] = [(0x20FFF#32, 1#8)] ++ (0x20FFF#32, 2#8) :: [] := by
  refine ⟨by decide, by decide, by decide, ?_, by decide, rfl⟩
  simp only [List.forall_mem_cons]
  exact ⟨by decide, by decide, nofun⟩

theorem witness_StepRunsDecodedInstruction :
    (narrow 0 0).status = .running ∧ (narrow 0 0).pc.toNat % 4 = 0 ∧ AllMapped (narrow 0 0) (narrow 0 0).pc 4 ∧
    decodeWord (nthByte (narrow 0 0) (narrow 0 0).pc 3 ++ nthByte (narrow 0 0) (narrow 0 0).pc 2 ++
      nthByte (narrow 0 0) (narrow 0 0).pc 1 ++ nthByte (narrow 0 0) (narrow 0 0).pc 0) = .ok .ecall := by
  simp only [AllMapped]
  decide

theorem witness_StepExceptionsInOrder :
    ((wide .fault 3 0 0).status = .running ∧ (wide .fault 3 0 0).pc.toNat % 4 ≠ 0) ∧
    ({ narrow 0 0 with pc := 0x21000#32 }.pc.toNat % 4 = 0 ∧
      FirstFails (isMapped { narrow 0 0 with pc := 0x21000#32 }.plat) 0x21000#32 4 0) ∧
    ((wide .fault 0xFFFFFFFC 0 0).pc.toNat % 4 = 0 ∧
      AllMapped (wide .fault 0xFFFFFFFC 0 0) (wide .fault 0xFFFFFFFC 0 0).pc 4 ∧
      nthByte (wide .fault 0xFFFFFFFC 0 0) 0xFFFFFFFC#32 3 ++ nthByte (wide .fault 0xFFFFFFFC 0 0) 0xFFFFFFFC#32 2 ++
        nthByte (wide .fault 0xFFFFFFFC 0 0) 0xFFFFFFFC#32 1 ++
        nthByte (wide .fault 0xFFFFFFFC 0 0) 0xFFFFFFFC#32 0 = 0#32 ∧
      decodeWord 0#32 = .error .opcode) := by
  simp only [AllMapped, FirstFails]
  decide

theorem witness_StepExactlyWhileRunning :
    (narrow 0 0).status = .running ∧ (raise (narrow 0 0) (.illegalInstruction 0)).status ≠ .running := by decide

theorem witness_ExceptionsArePrecise :
    after (step (narrow 2 0)) (fun t => t.status) = some (.faulted (.unknownEnvironmentCall 2#32)) := by decide

theorem witness_OnlyEndingServicesAndEbreakHalt :
    after (step (narrow 93 7)) (fun t => t.status) = some (.halted (.exitCode 7#32)) ∧
    after (step (narrow 10 7)) (fun t => t.status) = some (.halted .exit) ∧
    after (step (vec 0x00100073#32 [] [])) (fun t => t.status) = some (.halted .break_) := by decide

theorem witness_StepKeepsInv :
    WfState (narrow 1 7) = true ∧ after (step (narrow 1 7)) (fun t => t.pc) = some 0x10004#32 := by decide

theorem witness_StartOfARun :
    1#5 ≠ 0#5 ∧ isMapped Config.defaultPlatform 0xFFFFFFFF#32 = true ∧
    (⟨Config.defaultPlatform, [(0, 1#8), (0xFFFFFFFF, 2#8), (0xFFFFFFFF, 3#8)], fun _ => 0x55#8, 0#32, Vector.replicate 31 0#32⟩ : Launch).image =
      [(0, 1#8)] ++ ((0xFFFFFFFF#32).toNat, 2#8) :: [(0xFFFFFFFF, 3#8)] ∧
    (∀ c ∈ ([(0, 1#8)] : List Host.Cell), c.1 ≠ (0xFFFFFFFF#32).toNat) ∧
    isMapped Config.defaultPlatform 0xFFFFFFFE#32 = true ∧
    (∀ c ∈ ([(0, 1#8), (0xFFFFFFFF, 2#8)] : List Host.Cell), c.1 ≠ (0xFFFFFFFE#32).toNat) ∧
    (0xFFFFFFFC#32).toNat % 4 = 0 ∧ (0x00000001#32).toNat % 4 ≠ 0 := by decide

/-- The last byte of a word store changes. -/
theorem witness_OnlyStoresAndAddedServicesChangeMemory :
    after (step (vec 0x0020A023#32 [(1#5, 0x20FFC#32), (2#5, 0x01000000#32)] [])) (fun t => Memory.get t.mem 0x20FFF) =
      some 0x01#8 ∧
    Memory.get (vec 0x0020A023#32 [(1#5, 0x20FFC#32), (2#5, 0x01000000#32)] []).mem 0x20FFF = 0x00#8 := by decide

/-- A run of one step, and an ended run. -/
theorem witness_RunsOnlyAppendOutput :
    (∃ t, Reaches (narrow 1 7) t ∧ t.out = [.printInt 7#32]) ∧
    Reaches (halt (narrow 1 7) .exit) (halt (narrow 1 7) .exit) ∧ (halt (narrow 1 7) .exit).status ≠ .running :=
  ⟨⟨{ narrow 1 7 with out := [.printInt 7#32], pc := 0x10004#32 },
    Reaches.tail _ _ _ (Reaches.refl _) rfl, rfl⟩, Reaches.refl _, by decide⟩

theorem witness_OutputIsNeverRead :
    after (step (narrow 1 7)) (fun t => t.out) = some ((narrow 1 7).out ++ [.printInt 7#32]) := by decide

theorem witness_BytewiseAgreesWithFault :
    (narrow 1 7).plat.misaligned = .fault ∧ after (step (narrow 1 7)) (fun t => t.status) = some .running ∧
    ∀ (k : DataKind) (a : Word), Status.running ≠ .faulted (.addressMisaligned k a) := ⟨by decide, by decide, fun _ _ h => nomatch h⟩

theorem witness_OnlyDestinationRegisterChanges :
    after (exec (.jal 31#5 8#21) (narrow 1 7)) (fun t => t.pc) = some 0x10008#32 ∧
    destination (.jal 31#5 8#21) ≠ some 30#5 ∧ destination (.sw 1#5 2#5 0#12) ≠ some 1#5 := by decide

/-- Two states that differ in a register that is no source. -/
theorem witness_OnlySourceRegistersAreRead :
    (narrow 1 8).pc = (narrow 1 7).pc ∧ (narrow 1 8).mem = (narrow 1 7).mem ∧ (narrow 1 8).status = (narrow 1 7).status ∧
    (narrow 1 8).out = (narrow 1 7).out ∧ (narrow 1 8).plat = (narrow 1 7).plat ∧
    (narrow 1 8).calls = (narrow 1 7).calls ∧ (∀ r ∈ sourcesIn (narrow 1 7) (.addi 5#5 10#5 1#12), regRead (narrow 1 8) r = regRead (narrow 1 7) r) ∧
    regRead (narrow 1 8) 11#5 ≠ regRead (narrow 1 7) 11#5 ∧ destination (.addi 5#5 10#5 1#12) = some 5#5 := by decide

theorem witness_StoreIsSeenByNextFetch :
    (0x20FFC#32 = effectiveAddress (regRead (narrow 0x13 0x20FFC#32) 11#5) 0#12 ∧ (0x20FFC#32).toNat % 4 = 0 ∧
      AllWritable (narrow 0x13 0x20FFC#32) 0x20FFC#32 4) ∧
    decodeWord (regRead (narrow 0x13 0x20FFC#32) 10#5) = .ok (.addi 0#5 0#5 0#12) ∧
    decodeWord (regRead (narrow 0x13 0x20FFC#32) 0#5) = .error .opcode := by
  simp only [AllWritable]
  decide

theorem witness_IdiomsDoWhatTheSourceSays :
    (0x00010004#32 = BitVec.ofInt 32 ((narrow 0 0).pc.toInt + (4#21).toInt) ∧ (0x00010004#32).toNat % 4 = 0) ∧
    ((0x00010000#32).toNat = (regRead (vec 0#32 [(1#5, 0x10001#32)] []) 1#5).toNat / 2 * 2 ∧
      (0x00010000#32).toNat % 4 = 0) := by decide

theorem witness_LuiAddiBuildsAnyConstant :
    31#5 ≠ 0#5 ∧ constantHigh 0xFFFFF800#32 = 0x00000#20 ∧ constantHigh 0x7FFFF7FF#32 = 0x7FFFF#20 := by decide

theorem witness_CallThenReturnComesBack :
    (0x00010000#32 = BitVec.ofInt 32 ((narrow 0 0).pc.toInt + (0#21).toInt) ∧ (narrow 0 0).pc.toNat % 4 = 0 ∧
      (0x00010000#32).toNat % 4 = 0) ∧
    after (exec (idiomCall 0#21) (narrow 0 0)) (fun t => regRead t 1#5) =
      some (regRead (vec 0#32 [(1#5, 0x10004#32)] []) 1#5) := by decide

theorem witness_CanonicalMemoriesWithEqualBytesAreEqual :
    Memory.wf [(0, 1#8), (0xFFFFFFFF, 2#8)] = true ∧ Memory.put (Memory.put [] 0xFFFFFFFF 2#8) 0 1#8 = [(0, 1#8), (0xFFFFFFFF, 2#8)] := by decide

end Sys2Proof.Tests
end

section
/-! PROOF. The extensions of 00_scope.md R9: one lemma per bit rule and the signed value, and the statement from them. -/

namespace Sys2Proof.Machine

/-- The sign bit of a nonempty value is its bit `n - 1`, and it fills every bit of the word from `n` up. -/
theorem getLsbD_sext {n k : Nat} (v : BitVec n) (hk : k < 32) :
    (sext v).getLsbD k = if k < n then v.getLsbD k else v.getLsbD (n - 1) := by
  rw [sext, BitVec.getLsbD_signExtend, BitVec.msb_eq_getLsbD_last]
  simp only [hk, decide_true, Bool.true_and]

/-- Bits of a value past its width read as 0, so widening puts zeros there. -/
theorem getLsbD_zext {n k : Nat} (v : BitVec n) (hk : k < 32) :
    (zext v).getLsbD k = if k < n then v.getLsbD k else false := by
  rw [zext, BitVec.getLsbD_setWidth]
  simp only [hk, decide_true, Bool.true_and]
  split
  case isTrue => rfl
  case isFalse hkn => exact BitVec.getLsbD_of_ge v k (Nat.le_of_not_lt hkn)

/-- Only widening keeps the signed value: a value wider than the word would be cut. -/
theorem toInt_sext {n : Nat} (v : BitVec n) (hn : n ≤ 32) : (sext v).toInt = v.toInt :=
  BitVec.toInt_signExtend_of_le hn

/-- Settles O8, from the bits of the two extensions and the signed value of `sext`. -/
theorem extensionCopiesTheSignBit : Obligations.ExtensionCopiesTheSignBit := by
  intro n v _ hn
  exact ⟨fun _ => getLsbD_sext v, fun _ => getLsbD_zext v, toInt_sext v hn⟩

end Sys2Proof.Machine
end

section
/-! PROOF. The zero register and the register file of 10_state.md R21: what a write with rd = x0 leaves out is one rule
of `regWrite`, which each shared meaning with a destination (a result, a load, a link) inherits. -/

namespace Sys2Proof.Machine

/-- The outcomes of an instruction in s, with its own rd (`o`) and with rd = x0 (`o0`): both answer a next state, and
the second is the first with the registers of s. -/
def DropsResult (s : State) (o o0 : Host.Outcome State Fault Refusal) : Prop :=
  ∃ t t0, o = .next t ∧ o0 = .next t0 ∧ t0 = { t with regs := s.regs }

/-- A register write reaches nothing but the registers, so putting the old ones back undoes it. -/
theorem regWrite_restore_regs (s : State) (rd : RegNum) (v : Word) :
    { regWrite s rd v with regs := s.regs } = s := by
  simp

/-- An exception discards the write whatever its destination (60_exceptions.md R203). -/
theorem dropsResult_raise (s : State) (e : Exc) : DropsResult s (.next (raise s e)) (.next (raise s e)) :=
  ⟨_, _, rfl, rfl, rfl⟩

/-- What happens to the `pc` after a register write is the same for x0. -/
theorem dropsResult_setPc_regWrite (s : State) (rd : RegNum) (v t : Word) :
    DropsResult s (.next (setPc (regWrite s rd v) t)) (.next (setPc (regWrite s 0#5 v) t)) := by
  refine ⟨_, _, rfl, rfl, ?_⟩
  calc setPc (regWrite s 0#5 v) t
    _ = setPc s t := by rw [regWrite_zero]
    _ = setPc { regWrite s rd v with regs := s.regs } t := by rw [regWrite_restore_regs]
    _ = { setPc (regWrite s rd v) t with regs := s.regs } := rfl

theorem dropsResult_writeResult (s : State) (rd : RegNum) (v : Word) :
    DropsResult s (.next (writeResult s rd v)) (.next (writeResult s 0#5 v)) := by
  have h := dropsResult_setPc_regWrite s rd v (s.pc + 4#32)
  simpa only [writeResult, advance, regWrite_pc] using h

/-- A load to x0 still reads, and still raises what the read raises (43_loads.md R150). -/
theorem dropsResult_loadInto (s : State) (rd rs1 : RegNum) (imm : BitVec 12) (n : Nat) (ext : Nat → Word) :
    DropsResult s (loadInto s rd rs1 imm n ext) (loadInto s 0#5 rs1 imm n ext) := by
  cases hm : memRead s (effectiveAddress (regRead s rs1) imm) n with
  | error e =>
    rw [loadInto_error hm, loadInto_error hm]
    exact dropsResult_raise s e
  | ok v =>
    rw [loadInto_ok hm, loadInto_ok hm]
    exact dropsResult_writeResult s rd (ext v)

/-- A jump that links through x0 goes to the same target, or raises for the same target (46_jumps.md R180). -/
theorem dropsResult_linkAndJump (s : State) (rd : RegNum) (t : Word) :
    DropsResult s (linkAndJump s rd t) (linkAndJump s 0#5 t) := by
  unfold linkAndJump
  split
  · exact dropsResult_setPc_regWrite s rd _ t
  · exact dropsResult_raise s _

/-- Sorted by what the instruction shares with others: one result, a load, a link, or no destination at all. -/
theorem dropsResult_exec (i : Instr) (s : State) (h : destination i ≠ none) :
    DropsResult s (exec i s) (exec (withDestination i 0#5) s) := by
  cases i with
  | add | sub | and | or | xor | sll | srl | sra | slt | sltu => exact dropsResult_writeResult s _ _
  | addi | andi | ori | xori | slti | sltiu | slli | srli | srai => exact dropsResult_writeResult s _ _
  | lui | auipc => exact dropsResult_writeResult s _ _
  | lw | lh | lb | lhu | lbu => exact dropsResult_loadInto s _ _ _ _ _
  | jal | jalr => exact dropsResult_linkAndJump s _ _
  | sw | sh | sb | beq | bne | blt | bge | bltu | bgeu | ecall | ebreak => exact absurd rfl h

/-- A write is read back from every register but x0. -/
theorem regRead_regWrite_same (s : State) {r : RegNum} (v : Word) (h : r ≠ 0#5) : regRead (regWrite s r v) r = v := by
  rw [regRead_regWrite, if_pos ⟨rfl, h⟩]

/-- A write reaches no register but the one it names. -/
theorem regRead_regWrite_ne (s : State) {r q : RegNum} (v : Word) (h : q ≠ r) :
    regRead (regWrite s r v) q = regRead s q := by
  rw [regRead_regWrite, if_neg (fun hq => h hq.1)]

/-- Settles O9: the register laws, and for the instructions with an rd the case split of `dropsResult_exec`. -/
theorem zeroRegisterAndRegisterFile : Obligations.ZeroRegisterAndRegisterFile :=
  ⟨regRead_zero, regWrite_zero, fun s _ v h => regRead_regWrite_same s v h, fun s _ _ v h => regRead_regWrite_ne s v h,
    dropsResult_exec⟩

end Sys2Proof.Machine
end

section
/-! PROOF. Byte order of data accesses (20_memory.md R41). A write is settled by the byte rule of `storeBytes`; a read by
one rule of `valueLE`: the byte at the lowest address goes below all the bytes after it. -/

namespace Sys2Proof.Machine

/-- `MemWrite` places byte i of the value at the i-th address, for every width (20_memory.md R41, R45). -/
theorem memWrite_places_bytes {s : State} {a : Word} {n : Nat} (v : Word) (hn : n ≤ 4294967296)
    (ha : AlignmentOk s a n) (hw : AllWritable s a n) :
    ∃ t, memWrite s a n v = .ok t ∧ ∀ i, i < n → nthByte t a i = v.extractLsb' (8 * i) 8 :=
  ⟨_, memWrite_ok v ha hw, fun i hi => nthByte_storeBytes s a n v i hi hn⟩

/-- The first byte is the least significant: the rest, as a number of any width, stands above it. -/
theorem valueLE_cons {w : Nat} {hi : BitVec w} {bs : List Byte} (b : Byte) (h : valueLE bs = hi.toNat) :
    valueLE (b :: bs) = (hi ++ b).toNat := by
  calc valueLE (b :: bs)
    _ = 2 ^ 8 * hi.toNat + b.toNat := by rw [valueLE, h]; omega
    _ = (hi ++ b).toNat := by
      rw [BitVec.toNat_append, Nat.mul_comm, ← Nat.shiftLeft_eq, Nat.shiftLeft_add_eq_or_of_lt b.isLt]

theorem valueLE_singleton (b : Byte) : valueLE [b] = b.toNat := by simp [valueLE]

theorem valueLE_pair (b0 b1 : Byte) : valueLE [b0, b1] = (b1 ++ b0).toNat :=
  valueLE_cons b0 (valueLE_singleton b1)

theorem valueLE_four (b0 b1 b2 b3 : Byte) : valueLE [b0, b1, b2, b3] = (b3 ++ b2 ++ b1 ++ b0).toNat :=
  valueLE_cons b0 (valueLE_cons b1 (valueLE_pair b2 b3))

/-- A read wherever it is allowed answers the number its bytes denote, lowest address first (20_memory.md R44). -/
theorem memRead_eq_valueLE {s : State} {a : Word} {n : Nat} (ha : AlignmentOk s a n) (hm : AllMapped s a n) :
    memRead s a n = .ok (valueLE ((List.range n).map (nthByte s a))) := by
  rw [memRead_ok ha hm, getBytes_eq_map]

/-- Settles O27: both writes from `memWrite_places_bytes`, each read from `valueLE` of its bytes in order. -/
theorem dataIsLittleEndian : Obligations.DataIsLittleEndian := by
  intro s a v
  refine ⟨fun ha hw => ?halfWrite, fun ha hw => ?wordWrite, fun ha hm => ?halfRead, fun ha hm => ?wordRead⟩
  case halfWrite =>
    obtain ⟨t, ht, hbytes⟩ := memWrite_places_bytes v (by decide) ha hw
    exact ⟨t, ht, hbytes 0 (by decide), hbytes 1 (by decide)⟩
  case wordWrite =>
    obtain ⟨t, ht, hbytes⟩ := memWrite_places_bytes v (by decide) ha hw
    exact ⟨t, ht, hbytes 0 (by decide), hbytes 1 (by decide), hbytes 2 (by decide), hbytes 3 (by decide)⟩
  case halfRead =>
    rw [memRead_eq_valueLE ha hm, ← valueLE_pair]
    rfl
  case wordRead =>
    rw [memRead_eq_valueLE ha hm, ← valueLE_four]
    rfl

end Sys2Proof.Machine
end

section
/-! SUPPORT. The formats of 30_encoding.md R70 and R73: which fields of a word the decoder hands to the instruction, said
once for each sub-decoder and then for `decodeWord`. Claims about operands follow from the word's format alone. -/

namespace Sys2Proof.Machine

/-- The six formats of R70, the I-type with a shift amount (R73), and the two words without operands (D5). -/
inductive Format where
  | r | i | shift | s | b | u | j | system

/-- The destination that a format takes from a word. -/
def Format.rd (f : Format) (w : Word) : Option RegNum :=
  match f with
  | .r | .i | .shift | .u | .j => some (rdOf w)
  | .s | .b | .system => none

/-- The source registers that a format takes from a word. -/
def Format.srcs (f : Format) (w : Word) : List RegNum :=
  match f with
  | .r | .s | .b => [rs1Of w, rs2Of w]
  | .i | .shift => [rs1Of w]
  | .u | .j | .system => []

/-- The immediate operand that a format takes from a word (30_encoding.md R74 to R78). -/
def Format.imm (f : Format) (w : Word) : Option Word :=
  match f with
  | .i => some (sext (immIOf w))
  | .s => some (sext (immSOf w))
  | .b => some (sext (immBOf w))
  | .u => some (immU (imm20Of w))
  | .j => some (sext (immJOf w))
  | .r | .shift | .system => none

/-- The instruction's operands are those that the format takes from the word. ECALL reads `a0` and `a1` without having
fields for them, so its sources are left open. -/
structure HasFormat (w : Word) (i : Instr) (f : Format) : Prop where
  dest : destination i = f.rd w
  srcs : i ≠ .ecall → sources i = f.srcs w
  imm : immOperand i = f.imm w

/-- Opcode 0x13: the two funct3 values of the shifts, the plain I-type otherwise (30_encoding.md R73). -/
def regImmFormat (w : Word) : Format := if funct3Of w = 0x1#3 ∨ funct3Of w = 0x5#3 then .shift else .i

/-- The format of an opcode (30_encoding.md R82). -/
def formatOf (w : Word) : Format :=
  match opcodeOf w with
  | 0x33#7 => .r
  | 0x13#7 => regImmFormat w
  | 0x03#7 | 0x67#7 => .i
  | 0x23#7 => .s
  | 0x63#7 => .b
  | 0x37#7 | 0x17#7 => .u
  | 0x6F#7 => .j
  | _ => .system

section
variable {w : Word} {i : Instr}

theorem hasFormat_of_decodeRegReg (h : decodeRegReg w = .ok i) : HasFormat w i .r := by
  unfold decodeRegReg at h
  split at h <;> cases h <;> exact ⟨rfl, fun _ => rfl, rfl⟩

theorem funct3_cases (w : Word) :
    funct3Of w = 0x0#3 ∨ funct3Of w = 0x1#3 ∨ funct3Of w = 0x2#3 ∨ funct3Of w = 0x3#3 ∨ funct3Of w = 0x4#3 ∨
      funct3Of w = 0x5#3 ∨ funct3Of w = 0x6#3 ∨ funct3Of w = 0x7#3 := by
  generalize funct3Of w = f
  revert f
  decide

theorem regImmFormat_of_shift (hf : funct3Of w = 0x1#3 ∨ funct3Of w = 0x5#3) : regImmFormat w = .shift := if_pos hf

theorem regImmFormat_of_not_shift (h1 : funct3Of w ≠ 0x1#3) (h5 : funct3Of w ≠ 0x5#3) : regImmFormat w = .i :=
  if_neg (not_or.2 ⟨h1, h5⟩)

theorem hasFormat_of_decodeRegImm (h : decodeRegImm w = .ok i) : HasFormat w i (regImmFormat w) := by
  unfold decodeRegImm at h
  split at h
  case h_7 hf =>
    rw [regImmFormat_of_shift (.inl hf)]
    split at h <;> cases h
    exact ⟨rfl, fun _ => rfl, rfl⟩
  case h_8 =>
    have hf : funct3Of w = 0x5#3 := by have := funct3_cases w; tauto
    rw [regImmFormat_of_shift (.inr hf)]
    split at h
    case isTrue => cases h; exact ⟨rfl, fun _ => rfl, rfl⟩
    case isFalse => split at h <;> cases h; exact ⟨rfl, fun _ => rfl, rfl⟩
  all_goals
    next hf =>
      rw [regImmFormat_of_not_shift (by rw [hf]; decide) (by rw [hf]; decide)]
      cases h
      exact ⟨rfl, fun _ => rfl, rfl⟩

theorem hasFormat_of_decodeLoad (h : decodeLoad w = .ok i) : HasFormat w i .i := by
  unfold decodeLoad at h
  split at h <;> cases h <;> exact ⟨rfl, fun _ => rfl, rfl⟩

theorem hasFormat_of_decodeStore (h : decodeStore w = .ok i) : HasFormat w i .s := by
  unfold decodeStore at h
  split at h <;> cases h <;> exact ⟨rfl, fun _ => rfl, rfl⟩

theorem hasFormat_of_decodeBranch (h : decodeBranch w = .ok i) : HasFormat w i .b := by
  unfold decodeBranch at h
  split at h <;> cases h <;> exact ⟨rfl, fun _ => rfl, rfl⟩

theorem hasFormat_of_decodeJalr (h : decodeJalr w = .ok i) : HasFormat w i .i := by
  unfold decodeJalr at h
  split at h <;> cases h
  exact ⟨rfl, fun _ => rfl, rfl⟩

theorem hasFormat_of_decodeSystem (h : decodeSystem w = .ok i) : HasFormat w i .system := by
  unfold decodeSystem at h
  split at h
  case isTrue => cases h; exact ⟨rfl, fun hne => absurd rfl hne, rfl⟩
  case isFalse => split at h <;> cases h; exact ⟨rfl, fun _ => rfl, rfl⟩

/-- What the decoder accepts has the operands of its opcode's format. -/
theorem hasFormat_of_decodeWord (h : decodeWord w = .ok i) : HasFormat w i (formatOf w) := by
  unfold decodeWord at h
  unfold formatOf
  split at h
  case h_1 hop => rw [hop]; exact hasFormat_of_decodeRegReg h
  case h_2 hop => rw [hop]; exact hasFormat_of_decodeRegImm h
  case h_3 hop => rw [hop]; exact hasFormat_of_decodeLoad h
  case h_4 hop => rw [hop]; exact hasFormat_of_decodeStore h
  case h_5 hop => rw [hop]; exact hasFormat_of_decodeBranch h
  case h_7 hop => rw [hop]; exact hasFormat_of_decodeJalr h
  case h_6 hop | h_8 hop | h_9 hop => rw [hop]; cases h; exact ⟨rfl, fun _ => rfl, rfl⟩
  case h_10 hop => rw [hop]; exact hasFormat_of_decodeSystem h
  case h_11 => cases h

end

end Sys2Proof.Machine
end

section
/-! PROOF. The fields as shifts and masks (30_encoding.md R72). A mask of n ones is a remainder modulo 2^n, so one lemma
serves all six fields; the registers of an instruction come from its format. -/

namespace Sys2Proof.Machine

/-- A field of n bits from bit s up is the word shifted right by s under n ones. -/
theorem toNat_field (w : Word) (s : Nat) {n : Nat} (hn : n ≤ 32) :
    (w.extractLsb' s n).toNat = ((w >>> s) &&& BitVec.ofNat 32 (2 ^ n - 1)).toNat := by
  have hones : 2 ^ n - 1 < 2 ^ 32 := by
    have := Nat.pow_le_pow_right (n := 2) (by decide) hn
    omega
  rw [BitVec.toNat_and, BitVec.toNat_ofNat, Nat.mod_eq_of_lt hones, Nat.and_two_pow_sub_one_eq_mod,
    BitVec.toNat_ushiftRight, BitVec.extractLsb'_toNat]

theorem HasFormat.eq_rdOf {w : Word} {i : Instr} {f : Format} (h : HasFormat w i f) {d : RegNum}
    (hd : destination i = some d) : d = rdOf w := by
  rw [h.dest] at hd
  cases f <;> cases hd <;> rfl

theorem HasFormat.sources_cases {w : Word} {i : Instr} {f : Format} (h : HasFormat w i f) (hi : i ≠ .ecall) :
    sources i = [] ∨ sources i = [rs1Of w] ∨ sources i = [rs1Of w, rs2Of w] := by
  rw [h.srcs hi]
  cases f <;> simp [Format.srcs]

/-- Settles O5: `toNat_field` for each field, and the registers by the format of the word. -/
theorem fieldsStandAtTheirBits : Obligations.FieldsStandAtTheirBits := by
  intro w
  refine ⟨?opcode, toNat_field w 7 (by decide), toNat_field w 12 (by decide), toNat_field w 15 (by decide),
    toNat_field w 20 (by decide), toNat_field w 25 (by decide), fun i h => ?registers⟩
  case opcode => exact toNat_field w 0 (by decide)
  case registers =>
    have hf := hasFormat_of_decodeWord h
    exact ⟨fun d => hf.eq_rdOf, hf.sources_cases⟩

end Sys2Proof.Machine
end

section
/-! PROOF. The immediates as the source's C expressions (30_encoding.md R74 to R78). A mask is a range of bit positions;
with the masks read so, both sides are at each position k the same bit of the word, and past the immediate's top bit its
sign. Range and parity of an operand come from its width and its lowest bit. -/

namespace Sys2Proof.Machine

/-- R74: the field is the top of the word, so an arithmetic shift extends its sign. -/
theorem sext_immIOf (w : Word) : sext (immIOf w) = w.sshiftRight 20 := by
  apply BitVec.eq_of_getLsbD_eq
  intro k hk
  simp only [getLsbD_sext _ hk, immIOf, BitVec.getLsbD_extractLsb', BitVec.getLsbD_sshiftRight,
    BitVec.msb_eq_getLsbD_last]
  grind

/-- R75: the top of the word, with the five bits of `rd`'s place below it. -/
theorem sext_immSOf (w : Word) :
    sext (immSOf w) = ((w.sshiftRight 20) &&& ~~~0x1F#32) ||| ((w >>> 7) &&& 0x1F#32) := by
  have mask_4_0 : ∀ k < 32, (0x1F#32).getLsbD k = decide (k < 5) := by decide
  apply BitVec.eq_of_getLsbD_eq
  intro k hk
  simp only [getLsbD_sext _ hk, immSOf, BitVec.getLsbD_append, BitVec.getLsbD_extractLsb', BitVec.getLsbD_or,
    BitVec.getLsbD_and, BitVec.getLsbD_not, BitVec.getLsbD_sshiftRight, BitVec.getLsbD_ushiftRight,
    BitVec.msb_eq_getLsbD_last, mask_4_0 k hk]
  grind

/-- R76: the masks keep `imm[12]`, `imm[11]`, `imm[10:5]` and `imm[4:1]`, and bit 0 is under none of them. -/
theorem sext_immBOf (w : Word) :
    sext (immBOf w) = ((w &&& 0x80000000#32).sshiftRight 19) ||| ((w &&& 0x00000080#32) <<< 4) |||
      ((w >>> 20) &&& 0x7E0#32) ||| ((w >>> 7) &&& 0x1E#32) := by
  have mask_31 : ∀ k < 32, (0x80000000#32).getLsbD k = decide (k = 31) := by decide
  have mask_7 : ∀ k < 32, (0x00000080#32).getLsbD k = decide (k = 7) := by decide
  have mask_10_5 : ∀ k < 32, (0x7E0#32).getLsbD k = decide (5 ≤ k ∧ k < 11) := by decide
  have mask_4_1 : ∀ k < 32, (0x1E#32).getLsbD k = decide (1 ≤ k ∧ k < 5) := by decide
  apply BitVec.eq_of_getLsbD_eq
  intro k hk
  simp only [getLsbD_sext _ hk, immBOf, BitVec.getLsbD_append, BitVec.getLsbD_extractLsb', BitVec.getLsbD_or,
    BitVec.getLsbD_and, BitVec.getLsbD_sshiftRight, BitVec.getLsbD_ushiftRight, BitVec.getLsbD_shiftLeft,
    BitVec.msb_eq_getLsbD_last, mask_10_5 k hk, mask_4_1 k hk]
  grind

/-- R78: the masks keep `imm[20]`, `imm[19:12]`, `imm[11]` and `imm[10:1]`, and bit 0 is under none of them. -/
theorem sext_immJOf (w : Word) :
    sext (immJOf w) = ((w &&& 0x80000000#32).sshiftRight 11) ||| (w &&& 0x000FF000#32) |||
      ((w >>> 9) &&& 0x800#32) ||| ((w >>> 20) &&& 0x7FE#32) := by
  have mask_31 : ∀ k < 32, (0x80000000#32).getLsbD k = decide (k = 31) := by decide
  have mask_19_12 : ∀ k < 32, (0x000FF000#32).getLsbD k = decide (12 ≤ k ∧ k < 20) := by decide
  have mask_11 : ∀ k < 32, (0x800#32).getLsbD k = decide (k = 11) := by decide
  have mask_10_1 : ∀ k < 32, (0x7FE#32).getLsbD k = decide (1 ≤ k ∧ k < 11) := by decide
  apply BitVec.eq_of_getLsbD_eq
  intro k hk
  simp only [getLsbD_sext _ hk, immJOf, BitVec.getLsbD_append, BitVec.getLsbD_extractLsb', BitVec.getLsbD_or,
    BitVec.getLsbD_and, BitVec.getLsbD_sshiftRight, BitVec.getLsbD_ushiftRight, BitVec.msb_eq_getLsbD_last,
    mask_19_12 k hk, mask_11 k hk, mask_10_1 k hk]
  grind

/-- R77: the field in place above twelve zeros. -/
theorem immU_imm20Of (w : Word) : immU (imm20Of w) = w &&& 0xFFFFF000#32 := by
  have mask_31_12 : ∀ k < 32, (0xFFFFF000#32).getLsbD k = decide (12 ≤ k) := by decide
  apply BitVec.eq_of_getLsbD_eq
  intro k hk
  simp only [immU, imm20Of, BitVec.getLsbD_append, BitVec.getLsbD_extractLsb', BitVec.getLsbD_and, mask_31_12 k hk]
  grind

theorem toNat_immU_imm20Of (w : Word) : (immU (imm20Of w)).toNat = w.toNat / 4096 * 4096 := by
  have := w.isLt
  rw [immU, imm20Of, toNat_append_eq, toNat_extract_eq]
  simp only [BitVec.toNat_ofNat]
  omega

/-- A sign-extended value keeps the range of its width, written without halving the power. -/
theorem sext_bounds {n : Nat} (v : BitVec n) (hn : n ≤ 32) :
    -2 ^ n ≤ 2 * (sext v).toInt ∧ 2 * (sext v).toInt < 2 ^ n := by
  rw [toInt_sext v hn]
  exact ⟨BitVec.le_two_mul_toInt, BitVec.two_mul_toInt_lt⟩

/-- The implied zero of the B and J immediates makes the operand even (30_encoding.md R79). -/
theorem sext_even {n : Nat} (v : BitVec n) (hn : 0 < n) (h0 : v.getLsbD 0 = false) : (sext v).toInt % 2 = 0 := by
  have hbit : (sext v).getLsbD 0 = false := by rw [getLsbD_sext v (by decide), if_pos hn, h0]
  have heven : (sext v).toNat % 2 = 0 := by simpa [BitVec.getLsbD, -BitVec.getLsbD_eq_getElem] using hbit
  rw [BitVec.toInt_eq_toNat_cond]
  split <;> omega

/-- The immediate operand of a decoded instruction, by the format of its word. -/
theorem immOperand_of_format {w : Word} {i : Instr} {f : Format} (h : decodeWord w = .ok i) (hf : formatOf w = f) :
    immOperand i = f.imm w := hf ▸ (hasFormat_of_decodeWord h).imm

/-- Settles O6: per format, the operand by `immOperand_of_format`, its expression, and its bounds from the width. -/
theorem immediatesAreTheSourceExpressions : Obligations.ImmediatesAreTheSourceExpressions := by
  intro w i h
  refine ⟨fun hop => ?iType, fun hop => ⟨_, sext_immSOf w, ?sType⟩, fun hop => ⟨_, sext_immBOf w, ?bType⟩,
    fun hop => ?uType, fun hop => ⟨_, sext_immJOf w, ?jType⟩⟩
  case iType =>
    have hf : formatOf w = .i := by
      rcases hop with hop | hop | ⟨hop, h1, h5⟩
      · simp only [formatOf, hop]
      · simp only [formatOf, hop]
      · simp only [formatOf, hop, regImmFormat_of_not_shift h1 h5]
    have hb := sext_bounds (immIOf w) (by decide)
    rw [← sext_immIOf]
    exact ⟨immOperand_of_format h hf, by omega, by omega⟩
  case sType =>
    have hb := sext_bounds (immSOf w) (by decide)
    exact ⟨immOperand_of_format (f := .s) h (by simp only [formatOf, hop]), by omega, by omega⟩
  case bType =>
    have hb := sext_bounds (immBOf w) (by decide)
    have he := sext_even (immBOf w) (by decide) (by simpa [immBOk] using immBOk_immBOf w)
    exact ⟨immOperand_of_format (f := .b) h (by simp only [formatOf, hop]), by omega, by omega, he⟩
  case uType =>
    have hf : formatOf w = .u := by rcases hop with hop | hop <;> simp only [formatOf, hop]
    have hn := toNat_immU_imm20Of w
    rw [← immU_imm20Of]
    exact ⟨immOperand_of_format h hf, by omega, hn⟩
  case jType =>
    have hb := sext_bounds (immJOf w) (by decide)
    have he := sext_even (immJOf w) (by decide) (by simpa [immJOk] using immJOk_immJOf w)
    exact ⟨immOperand_of_format (f := .j) h (by simp only [formatOf, hop]), by omega, by omega, he⟩

end Sys2Proof.Machine
end

section
/-! SUPPORT. The instructions whose one effect is a result in rd (00_scope.md R13), and the words of the rows of
40_reg_reg.md. Only the R-type hands out a destination and two sources, so a decoded instruction with these has opcode
0x33, and its word is the one it encodes to: that is what puts it in its row. -/

namespace Sys2Proof.Machine

/-! ### One result in rd -/

theorem writesOnly_writeResult (s : State) (rd : RegNum) (v : Word) : WritesOnly s (writeResult s rd v) rd v := by
  refine ⟨?result, fun r hr => ?otherRegister, fun a => ?memory, ?run⟩
  case result =>
    rw [regRead_writeResult]
    by_cases hd : rd = 0#5
    · rw [if_pos hd, if_neg (fun h => h.2 hd), hd, regRead_zero]
    · rw [if_neg hd, if_pos ⟨rfl, hd⟩]
  case otherRegister => rw [regRead_writeResult, if_neg (fun h => hr h.1)]
  case memory => rw [writeResult_mem]
  case run =>
    exact ⟨writeResult_status s rd v, writeResult_out s rd v, writeResult_plat s rd v, writeResult_calls s rd v⟩

/-- An instruction that ends in `writeResult` meets every clause of `WritesResult`; what is left to show is that the
model's result is the claimed one. -/
theorem writesResult_of_exec {i : Instr} {s : State} {rd : RegNum} {v result : Word}
    (hexec : exec i s = .next (writeResult s rd v)) (hv : v = result) : WritesResult i s rd result :=
  ⟨_, hexec, writeResult_pc s rd v, hv ▸ writesOnly_writeResult s rd v⟩

/-! ### The opcode of the R-type -/

theorem decodeWord_of_regReg {w : Word} (hop : opcodeOf w = 0x33#7) : decodeWord w = decodeRegReg w := by
  simp only [decodeWord, hop]

/-- A format with a destination and two sources is the R-type. -/
theorem Format.eq_r {f : Format} {w : Word} {rd rs1 rs2 : RegNum} (hrd : f.rd w = some rd)
    (hsrcs : f.srcs w = [rs1, rs2]) : f = .r := by
  cases f with
  | r => rfl
  | s | b | system => cases hrd
  | i | shift | u | j => cases hsrcs

theorem regImmFormat_ne_r (w : Word) : regImmFormat w ≠ .r := by
  unfold regImmFormat
  split <;> nofun

theorem opcode_of_format_r {w : Word} (h : formatOf w = .r) : opcodeOf w = 0x33#7 := by
  unfold formatOf at h
  split at h
  case h_1 hop => exact hop
  case h_2 => exact absurd h (regImmFormat_ne_r w)
  all_goals cases h

theorem opcode_of_decoded_regReg {w : Word} {i : Instr} {rd rs1 rs2 : RegNum} (h : decodeWord w = .ok i)
    (hdest : destination i = some rd) (hsrcs : sources i = [rs1, rs2]) : opcodeOf w = 0x33#7 := by
  have hf := hasFormat_of_decodeWord h
  have hi : i ≠ .ecall := by rintro rfl; cases hdest
  exact opcode_of_format_r (Format.eq_r (hf.dest ▸ hdest) (hf.srcs hi ▸ hsrcs))

/-! ### The rows of the R-type -/

/-- What `decodeRegReg` accepts encodes to the fields it was read from. -/
theorem encode_of_decodeRegReg {w : Word} {i : Instr} (h : decodeRegReg w = .ok i) :
    encode i = encodeR (funct7Of w) (rs2Of w) (rs1Of w) (funct3Of w) (rdOf w) 0x33#7 := by
  unfold decodeRegReg at h
  split at h
  case h_11 => cases h
  all_goals
    next h7 h3 =>
      cases h
      rw [h7, h3]
      rfl

theorem encode_of_decoded_regReg {w : Word} {i : Instr} {rd rs1 rs2 : RegNum} (h : decodeWord w = .ok i)
    (hdest : destination i = some rd) (hsrcs : sources i = [rs1, rs2]) : encode i = w := by
  have hop := opcode_of_decoded_regReg h hdest hsrcs
  rw [decodeWord_of_regReg hop] at h
  rw [encode_of_decodeRegReg h, ← hop, encodeR_fields]

/-- The constructor mk belongs to the register-register row with codes f7 and f3: the decoder answers it for those
codes, the encoder places them, and it writes its first operand from the other two. For a given constructor all four
hold by computation, so the fields carry that proof. -/
structure RegRegRow (f7 : BitVec 7) (f3 : BitVec 3) (mk : RegNum → RegNum → RegNum → Instr) : Prop where
  decodes : ∀ w, funct7Of w = f7 → funct3Of w = f3 → decodeRegReg w = .ok (mk (rdOf w) (rs1Of w) (rs2Of w)) := by
    intro w h7 h3
    simp only [decodeRegReg, h7, h3]
  encodes : ∀ rd rs1 rs2, encode (mk rd rs1 rs2) = encodeR f7 rs2 rs1 f3 rd 0x33#7 := by intros; rfl
  dest : ∀ rd rs1 rs2, destination (mk rd rs1 rs2) = some rd := by intros; rfl
  srcs : ∀ rd rs1 rs2, sources (mk rd rs1 rs2) = [rs1, rs2] := by intros; rfl

/-- The words under a register-register row are those the decoder reads as its instruction (30_encoding.md R83). -/
theorem RegRegRow.selects {f7 : BitVec 7} {f3 : BitVec 3} {mk : RegNum → RegNum → RegNum → Instr}
    (row : RegRegRow f7 f3 mk) {bits : Word} (hbits : bits = encodeR f7 0#5 0#5 f3 0#5 0x33#7) :
    Selects 0xFE00707F#32 bits (fun w => mk (rdOf w) (rs1Of w) (rs2Of w)) := by
  intro w
  constructor
  · intro hw
    obtain ⟨h7, h3, hop⟩ := (matches_funct7 hbits).1 hw
    rw [decodeWord_of_regReg hop, row.decodes w h7 h3]
  · intro h
    have hw := encode_of_decoded_regReg h (row.dest _ _ _) (row.srcs _ _ _)
    rw [row.encodes] at hw
    rw [hbits, ← hw]
    exact Laws.encodeR_and_mask _ _ _ _ _ _

end Sys2Proof.Machine
end

section
/-! PROOF. The ten register-register instructions (40_reg_reg.md). Each statement is its rows by `RegRegRow.selects`
and, by `writesResult_of_exec`, the arithmetic meaning of the result the model computes on bit vectors. -/

namespace Sys2Proof.Machine

/-! ### Sum, difference and bitwise operations -/

theorem add_eq_ofNat (x y : Word) : x + y = BitVec.ofNat 32 (x.toNat + y.toNat) := by
  rw [BitVec.ofNat_add, BitVec.ofNat_toNat, BitVec.ofNat_toNat, BitVec.setWidth_eq, BitVec.setWidth_eq]

theorem sub_eq_ofInt (x y : Word) : x - y = BitVec.ofInt 32 (x.toInt - y.toInt) := by
  apply BitVec.eq_of_toInt_eq
  rw [BitVec.toInt_sub, BitVec.toInt_ofInt]

/-- Settles O10: the two rows, and the sum and the difference of the numbers. -/
theorem addSubWrapModuloTwoTo32 : Obligations.AddSubWrapModuloTwoTo32 := by
  have addRow : RegRegRow 0x00#7 0x0#3 .add := {}
  have subRow : RegRegRow 0x20#7 0x0#3 .sub := {}
  refine ⟨addRow.selects (by decide), subRow.selects (by decide), fun rd rs1 rs2 s => ⟨?add, ?sub⟩⟩
  case add => exact writesResult_of_exec rfl (add_eq_ofNat _ _)
  case sub => exact writesResult_of_exec rfl (sub_eq_ofInt _ _)

/-- Settles O11: the three rows; bit k of each result is by the bit lemma of its operation. -/
theorem andOrXorActBitByBit : Obligations.AndOrXorActBitByBit := by
  have andRow : RegRegRow 0x00#7 0x7#3 .and := {}
  have orRow : RegRegRow 0x00#7 0x6#3 .or := {}
  have xorRow : RegRegRow 0x00#7 0x4#3 .xor := {}
  refine ⟨andRow.selects (by decide), orRow.selects (by decide), xorRow.selects (by decide),
    fun rd rs1 rs2 s => ⟨?and, ?or, ?xor⟩⟩
  case and => exact ⟨_, fun _ _ => BitVec.getLsbD_and, writesResult_of_exec rfl rfl⟩
  case or => exact ⟨_, fun _ _ => BitVec.getLsbD_or, writesResult_of_exec rfl rfl⟩
  case xor => exact ⟨_, fun _ _ => BitVec.getLsbD_xor, writesResult_of_exec rfl rfl⟩

/-! ### Shifts by the low five bits of rs2 -/

/-- Bits 4 to 0 are the remainder modulo 32. -/
theorem shiftAmount_eq_mod (y : Word) : shiftAmount y = y.toNat % 32 := by
  simp [shiftAmount]

theorem shiftLeft_eq_ofNat (x : Word) (n : Nat) : x <<< n = BitVec.ofNat 32 (x.toNat * 2 ^ n) := by
  apply BitVec.eq_of_toNat_eq
  rw [BitVec.toNat_shiftLeft, Nat.shiftLeft_eq, BitVec.toNat_ofNat]

theorem ushiftRight_eq_ofNat (x : Word) (n : Nat) : x >>> n = BitVec.ofNat 32 (x.toNat / 2 ^ n) := by
  calc x >>> n
    _ = BitVec.ofNat 32 (x >>> n).toNat := by rw [BitVec.ofNat_toNat, BitVec.setWidth_eq]
    _ = BitVec.ofNat 32 (x.toNat / 2 ^ n) := by rw [BitVec.toNat_ushiftRight, Nat.shiftRight_eq_div_pow]

/-- A positive divisor makes the floor of the quotient the arithmetic shift. -/
theorem sshiftRight_eq_ofInt (x : Word) (n : Nat) :
    x.sshiftRight n = BitVec.ofInt 32 (Int.fdiv x.toInt (2 ^ n)) := by
  have hpos : (0 : Int) ≤ 2 ^ n := by positivity
  calc x.sshiftRight n
    _ = BitVec.ofInt 32 (x.sshiftRight n).toInt := (BitVec.ofInt_toInt).symm
    _ = BitVec.ofInt 32 (x.toInt / 2 ^ n) := by
      rw [BitVec.toInt_sshiftRight, Int.shiftRight_eq_div_pow]
      norm_cast
    _ = BitVec.ofInt 32 (Int.fdiv x.toInt (2 ^ n)) := by rw [Int.fdiv_eq_ediv_of_nonneg _ hpos]

/-- Settles O12: the two rows, and the shifts as product and quotient by a power of two. -/
theorem logicalShiftsByLowFiveBits : Obligations.LogicalShiftsByLowFiveBits := by
  have sllRow : RegRegRow 0x00#7 0x1#3 .sll := {}
  have srlRow : RegRegRow 0x00#7 0x5#3 .srl := {}
  refine ⟨sllRow.selects (by decide), srlRow.selects (by decide), fun rd rs1 rs2 s => ?_⟩
  rw [← shiftAmount_eq_mod]
  exact ⟨writesResult_of_exec rfl (shiftLeft_eq_ofNat _ _), writesResult_of_exec rfl (ushiftRight_eq_ofNat _ _)⟩

/-- Settles O13: the row, and the arithmetic shift as floor division of the signed value. -/
theorem arithmeticShiftRoundsDown : Obligations.ArithmeticShiftRoundsDown := by
  have sraRow : RegRegRow 0x20#7 0x5#3 .sra := {}
  refine ⟨sraRow.selects (by decide), fun rd rs1 rs2 s => ?_⟩
  rw [← shiftAmount_eq_mod]
  exact writesResult_of_exec rfl (sshiftRight_eq_ofInt _ _)

/-! ### Comparisons -/

theorem boolWord_decide (p : Prop) [Decidable p] : boolWord (decide p) = if p then 1#32 else 0#32 := by
  simp only [boolWord, decide_eq_true_eq]

/-- Settles O14: the two rows; the model's comparisons are those of the signed and the unsigned values. -/
theorem setLessThanComparesExactly : Obligations.SetLessThanComparesExactly := by
  have sltRow : RegRegRow 0x00#7 0x2#3 .slt := {}
  have sltuRow : RegRegRow 0x00#7 0x3#3 .sltu := {}
  refine ⟨sltRow.selects (by decide), sltuRow.selects (by decide), fun rd rs1 rs2 s => ⟨?signed, ?unsigned⟩⟩
  case signed => exact writesResult_of_exec rfl (boolWord_decide _)
  case unsigned => exact writesResult_of_exec rfl (boolWord_decide _)

end Sys2Proof.Machine
end

section
/-! SUPPORT. A word that the decoder accepts is the encoding of what it reads there (30_encoding.md R80 to R83), one
lemma per sub-decoder. With it a row of the opcode table is two facts: the decoder answers the row's instruction for its
words, and the encoder puts that instruction in the row. -/

namespace Sys2Proof.Machine

section
variable {w : Word} {i : Instr}

/-! ### A word from its codes and its operand fields -/

theorem encodeR_of_codes {f7 : BitVec 7} {f3 : BitVec 3} {op : BitVec 7} (h7 : funct7Of w = f7) (h3 : funct3Of w = f3)
    (hop : opcodeOf w = op) : encodeR f7 (rs2Of w) (rs1Of w) f3 (rdOf w) op = w := by
  rw [← h7, ← h3, ← hop, encodeR_fields]

theorem encodeI_of_codes {f3 : BitVec 3} {op : BitVec 7} (h3 : funct3Of w = f3) (hop : opcodeOf w = op) :
    encodeI (immIOf w) (rs1Of w) f3 (rdOf w) op = w := by
  rw [← h3, ← hop, encodeI_fields]

theorem encodeS_of_codes {f3 : BitVec 3} {op : BitVec 7} (h3 : funct3Of w = f3) (hop : opcodeOf w = op) :
    encodeS (immSOf w) (rs2Of w) (rs1Of w) f3 op = w := by
  rw [← h3, ← hop, encodeS_fields]

theorem encodeB_of_codes {f3 : BitVec 3} {op : BitVec 7} (h3 : funct3Of w = f3) (hop : opcodeOf w = op) :
    encodeB (immBOf w) (rs2Of w) (rs1Of w) f3 op = w := by
  rw [← h3, ← hop, encodeB_fields]

/-! ### The sub-decoders -/

/-- The two shifts stand at the bits of the R-type, with shamt in the place of rs2 (30_encoding.md R73). -/
theorem encode_of_decodeRegImm (hop : opcodeOf w = 0x13#7) (h : decodeRegImm w = .ok i) : encode i = w := by
  unfold decodeRegImm at h
  split at h
  case h_7 h3 =>
    split at h <;> cases h
    next h7 => exact encodeR_of_codes h7 h3 hop
  case h_8 =>
    have h3 : funct3Of w = 0x5#3 := by have := funct3_cases w; tauto
    split at h
    case isTrue h7 => cases h; exact encodeR_of_codes h7 h3 hop
    case isFalse =>
      split at h <;> cases h
      next h7 => exact encodeR_of_codes h7 h3 hop
  all_goals
    next h3 =>
      cases h
      exact encodeI_of_codes h3 hop

theorem encode_of_decodeLoad (hop : opcodeOf w = 0x03#7) (h : decodeLoad w = .ok i) : encode i = w := by
  unfold decodeLoad at h
  split at h <;> cases h
  all_goals
    next h3 => exact encodeI_of_codes h3 hop

theorem encode_of_decodeStore (hop : opcodeOf w = 0x23#7) (h : decodeStore w = .ok i) : encode i = w := by
  unfold decodeStore at h
  split at h <;> cases h
  all_goals
    next h3 => exact encodeS_of_codes h3 hop

theorem encode_of_decodeBranch (hop : opcodeOf w = 0x63#7) (h : decodeBranch w = .ok i) : encode i = w := by
  unfold decodeBranch at h
  split at h <;> cases h
  all_goals
    next h3 => exact encodeB_of_codes h3 hop

theorem encode_of_decodeJalr (hop : opcodeOf w = 0x67#7) (h : decodeJalr w = .ok i) : encode i = w := by
  unfold decodeJalr at h
  split at h <;> cases h
  next h3 => exact encodeI_of_codes h3 hop

theorem encode_of_decodeSystem (h : decodeSystem w = .ok i) : encode i = w := by
  unfold decodeSystem at h
  split at h
  case isTrue hw => cases h; rw [hw]; decide
  case isFalse =>
    split at h <;> cases h
    next hw => rw [hw]; decide

/-- No bit of an accepted word is lost: the opcode chooses the sub-decoder, and each keeps every field. -/
theorem encode_of_decodeWord (h : decodeWord w = .ok i) : encode i = w := by
  unfold decodeWord at h
  split at h
  case h_1 hop => rw [encode_of_decodeRegReg h, ← hop, encodeR_fields]
  case h_2 hop => exact encode_of_decodeRegImm hop h
  case h_3 hop => exact encode_of_decodeLoad hop h
  case h_4 hop => exact encode_of_decodeStore hop h
  case h_5 hop => exact encode_of_decodeBranch hop h
  case h_6 hop => cases h; rw [encode, ← hop, encodeJ_fields]
  case h_7 hop => exact encode_of_decodeJalr hop h
  case h_8 hop | h_9 hop => cases h; rw [encode, ← hop, encodeU_fields]
  case h_10 => exact encode_of_decodeSystem h
  case h_11 => cases h

end

/-! ### Rows of the opcode table -/

/-- A row selects an instruction as soon as the decoder answers it for the row's words and its encoding is one of
them: a word read as that instruction is its encoding. -/
theorem selects_of_decodes {mask bits : Word} {mk : Word → Instr}
    (hdecode : ∀ w : Word, w &&& mask = bits → decodeWord w = .ok (mk w))
    (hencode : ∀ w : Word, encode (mk w) &&& mask = bits) : Selects mask bits mk := by
  intro w
  refine ⟨hdecode w, fun h => ?_⟩
  calc w &&& mask
    _ = encode (mk w) &&& mask := by rw [encode_of_decodeWord h]
    _ = bits := hencode w

theorem decodeWord_of_regImm {w : Word} (hop : opcodeOf w = 0x13#7) : decodeWord w = decodeRegImm w := by
  simp only [decodeWord, hop]

/-- The constructor mk belongs to the register-immediate row with code f3 (the rows that are no shifts): the decoder
answers it for that code, and the encoder places it. For a given constructor both hold by computation, so the fields
carry that proof. -/
structure RegImmRow (f3 : BitVec 3) (mk : RegNum → RegNum → BitVec 12 → Instr) : Prop where
  decodes : ∀ w, funct3Of w = f3 → decodeRegImm w = .ok (mk (rdOf w) (rs1Of w) (immIOf w)) := by
    intro w h3
    simp only [decodeRegImm, h3]
  encodes : ∀ rd rs1 imm, encode (mk rd rs1 imm) = encodeI imm rs1 f3 rd 0x13#7 := by intros; rfl

/-- The words under a register-immediate row are those the decoder reads as its instruction (30_encoding.md R83). -/
theorem RegImmRow.selects {f3 : BitVec 3} {mk : RegNum → RegNum → BitVec 12 → Instr} (row : RegImmRow f3 mk)
    {bits : Word} (hbits : bits = encodeR 0#7 0#5 0#5 f3 0#5 0x13#7) :
    Selects 0x0000707F#32 bits (fun w => mk (rdOf w) (rs1Of w) (immIOf w)) := by
  apply selects_of_decodes
  · intro w hw
    obtain ⟨h3, hop⟩ := (matches_funct3 hbits).1 hw
    rw [decodeWord_of_regImm hop, row.decodes w h3]
  · intro w
    rw [row.encodes, Laws.encodeI_and_mask, hbits]

end Sys2Proof.Machine
end

section
/-! PROOF. The register-immediate instructions that are no shifts (41_reg_imm.md R120 to R126). Each statement is its
rows by `RegImmRow.selects` and, by `writesResult_of_exec`, what the sign-extended immediate denotes under the operation: its
signed value, its bits, or that value modulo 2^32. -/

namespace Sys2Proof.Machine

/-- Adding a sign-extended immediate adds its signed value. -/
theorem add_sext_eq_ofInt {n : Nat} (x : Word) (v : BitVec n) (hn : n ≤ 32) :
    x + sext v = BitVec.ofInt 32 (x.toInt + v.toInt) := by
  apply BitVec.eq_of_toInt_eq
  rw [BitVec.toInt_add, BitVec.toInt_ofInt, toInt_sext v hn]

/-- Settles O15: the row, and the sum of the signed values. -/
theorem addImmediateSignExtends : Obligations.AddImmediateSignExtends := by
  have addiRow : RegImmRow 0x0#3 .addi := {}
  exact ⟨addiRow.selects (by decide), fun rd rs1 imm s =>
    writesResult_of_exec rfl (add_sext_eq_ofInt _ imm (by decide))⟩

/-- Bit 11 is the sign of the field, so every position from 11 up reads it. -/
theorem getLsbD_sext_imm12 {k : Nat} (imm : BitVec 12) (hk : k < 32) :
    (sext imm).getLsbD k = imm.getLsbD (min k 11) := by
  rw [getLsbD_sext imm hk]
  split
  case isTrue hlow => rw [min_eq_left (by omega)]
  case isFalse hhigh => rw [min_eq_right (by omega)]

/-- Settles O16: the three rows; bit k of each result is by the bit lemma of its operation and that of the operand. -/
theorem logicalImmediatesSignExtend : Obligations.LogicalImmediatesSignExtend := by
  have andiRow : RegImmRow 0x7#3 .andi := {}
  have oriRow : RegImmRow 0x6#3 .ori := {}
  have xoriRow : RegImmRow 0x4#3 .xori := {}
  refine ⟨andiRow.selects (by decide), oriRow.selects (by decide), xoriRow.selects (by decide),
    fun rd rs1 imm s => ⟨⟨_, fun k hk => ?andBit, writesResult_of_exec rfl rfl⟩,
      ⟨_, fun k hk => ?orBit, writesResult_of_exec rfl rfl⟩, ⟨_, fun k hk => ?xorBit, writesResult_of_exec rfl rfl⟩⟩⟩
  case andBit => rw [BitVec.getLsbD_and, getLsbD_sext_imm12 imm hk]
  case orBit => rw [BitVec.getLsbD_or, getLsbD_sext_imm12 imm hk]
  case xorBit => rw [BitVec.getLsbD_xor, getLsbD_sext_imm12 imm hk]

/-- Read as unsigned, a sign-extended value is the signed one modulo 2^32. -/
theorem toNat_sext {n : Nat} (v : BitVec n) : ((sext v).toNat : Int) = v.toInt % 2 ^ 32 := by
  have hnonneg : 0 ≤ v.toInt % 2 ^ 32 := Int.emod_nonneg _ (by decide)
  calc ((sext v).toNat : Int)
    _ = ((v.toInt % 2 ^ 32).toNat : Int) := by rw [sext, BitVec.signExtend, BitVec.toNat_ofInt]; norm_cast
    _ = v.toInt % 2 ^ 32 := Int.toNat_of_nonneg hnonneg

theorem boolWord_ltSigned_sext {n : Nat} (x : Word) (v : BitVec n) (hn : n ≤ 32) :
    boolWord (ltSigned x (sext v)) = if x.toInt < v.toInt then 1#32 else 0#32 := by
  rw [ltSigned, boolWord_decide, toInt_sext v hn]

theorem boolWord_ltUnsigned_sext {n : Nat} (x : Word) (v : BitVec n) :
    boolWord (ltUnsigned x (sext v)) = if (x.toNat : Int) < v.toInt % 2 ^ 32 then 1#32 else 0#32 := by
  rw [ltUnsigned, boolWord_decide, ← toNat_sext v]
  simp only [Int.ofNat_lt]

/-- Settles O17: the two rows; both comparisons are with the sign-extended immediate, read as signed or unsigned. -/
theorem setLessThanImmediate : Obligations.SetLessThanImmediate := by
  have sltiRow : RegImmRow 0x2#3 .slti := {}
  have sltiuRow : RegImmRow 0x3#3 .sltiu := {}
  refine ⟨sltiRow.selects (by decide), sltiuRow.selects (by decide), fun rd rs1 imm s => ⟨?signed, ?unsigned⟩⟩
  case signed => exact writesResult_of_exec rfl (boolWord_ltSigned_sext _ imm (by decide))
  case unsigned => exact writesResult_of_exec rfl (boolWord_ltUnsigned_sext _ imm)

end Sys2Proof.Machine
end

section
/-! PROOF. The upper-immediate instructions (42_upper_imm.md R140 to R142). The opcode alone selects them, so their rows
rest on one equation of `decodeWord` per opcode; the operand `imm_u` is the number 4096 times the field, and that gives
both results their arithmetic meaning. -/

namespace Sys2Proof.Machine

theorem decodeWord_of_lui {w : Word} (hop : opcodeOf w = 0x37#7) : decodeWord w = .ok (.lui (rdOf w) (imm20Of w)) := by
  simp only [decodeWord, hop]

theorem decodeWord_of_auipc {w : Word} (hop : opcodeOf w = 0x17#7) :
    decodeWord w = .ok (.auipc (rdOf w) (imm20Of w)) := by
  simp only [decodeWord, hop]

/-- The words under a U-type row are those the decoder reads as its instruction, when it answers that instruction for
the row's opcode and the encoder places it there (30_encoding.md R83). -/
theorem selects_of_upperImm {op : BitVec 7} {mk : RegNum → BitVec 20 → Instr} {bits : Word}
    (hdecode : ∀ w, opcodeOf w = op → decodeWord w = .ok (mk (rdOf w) (imm20Of w)))
    (hencode : ∀ rd imm20, encode (mk rd imm20) = encodeU imm20 rd op)
    (hbits : bits = encodeR 0#7 0#5 0#5 0#3 0#5 op) :
    Selects 0x0000007F#32 bits (fun w => mk (rdOf w) (imm20Of w)) := by
  apply selects_of_decodes
  · intro w hw
    exact hdecode w ((matches_opcode hbits).1 hw)
  · intro w
    rw [hencode, Laws.encodeU_and_mask, hbits]

theorem toNat_immU (imm20 : BitVec 20) : (immU imm20).toNat = imm20.toNat * 4096 := by
  simp only [immU, toNat_append_eq, BitVec.toNat_zero, Nat.add_zero, Nat.reducePow]

theorem immU_eq_ofNat (imm20 : BitVec 20) : immU imm20 = BitVec.ofNat 32 (imm20.toNat * 4096) := by
  rw [← toNat_immU, BitVec.ofNat_toNat, BitVec.setWidth_eq]

theorem add_immU_eq_ofNat (pc : Word) (imm20 : BitVec 20) :
    pc + immU imm20 = BitVec.ofNat 32 (pc.toNat + imm20.toNat * 4096) := by
  rw [add_eq_ofNat, toNat_immU]

/-- Settles O19: the two rows; the results are `imm_u` and its sum with the address of the instruction, as numbers. -/
theorem upperImmediateResults : Obligations.UpperImmediateResults := by
  refine ⟨?luiRow, ?auipcRow, fun rd imm20 s => ⟨?lui, ?auipc⟩⟩
  case luiRow => exact selects_of_upperImm (fun _ => decodeWord_of_lui) (fun _ _ => rfl) (by decide)
  case auipcRow => exact selects_of_upperImm (fun _ => decodeWord_of_auipc) (fun _ _ => rfl) (by decide)
  case lui => exact writesResult_of_exec rfl (immU_eq_ofNat imm20)
  case auipc => exact writesResult_of_exec rfl (add_immU_eq_ofNat s.pc imm20)

end Sys2Proof.Machine
end

section
/-! PROOF. The decoder and the encoder are inverse to each other (30_encoding.md R70 to R83). One direction is
`encode_of_decodeWord`; the other reads the fields of each format back. -/

namespace Sys2Proof.Machine

/-! ### Encode, then decode -/

/-- The decoder of bytes is that of their word, and leaves what comes after (20_memory.md R42). -/
theorem decode_bytesLE_of_decodeWord {w : Word} {i : Instr} (h : decodeWord w = .ok i) (rest : List Byte) :
    decode (bytesLE 4 w ++ rest) = .ok (i, rest) := by
  have hbytes : bytesLE 4 w = [byteOf w 0, byteOf w 1, byteOf w 2, byteOf w 3] := rfl
  have hword : wordLE [byteOf w 0, byteOf w 1, byteOf w 2, byteOf w 3] = w := by rw [← hbytes, wordLE_bytesLE]
  simp only [hbytes, List.cons_append, List.nil_append, decode, hword, h]

/-- The fields of each format come back; of the immediates with an implied zero only when it is there. -/
theorem decodeWord_encode {i : Instr} (h : wellFormed i = true) : decodeWord (encode i) = .ok i := by
  cases i with
  | add | sub | and | or | xor | sll | srl | sra | slt | sltu => simp [encode, decodeWord, decodeRegReg]
  | addi | andi | ori | xori | slti | sltiu | slli | srli | srai => simp [encode, decodeWord, decodeRegImm]
  | lui | auipc => simp [encode, decodeWord]
  | lw | lh | lb | lhu | lbu => simp [encode, decodeWord, decodeLoad]
  | sw | sh | sb => simp [encode, decodeWord, decodeStore]
  | beq | bne | blt | bge | bltu | bgeu => simp [encode, decodeWord, decodeBranch, immBOf_encodeB h]
  | jal => simp [encode, decodeWord, immJOf_encodeJ h]
  | jalr => simp [encode, decodeWord, decodeJalr]
  | ecall | ebreak => rfl

/-- Settles O1: the word of the four bytes is the encoding, and its fields are the operands. -/
theorem encodedInstrDecodesBack : Obligations.EncodedInstrDecodesBack :=
  fun _ rest h => decode_bytesLE_of_decodeWord (decodeWord_encode h) rest

/-- Settles O7: ten closed equations of the decoder. -/
theorem writtenOutWordsDecode : Obligations.WrittenOutWordsDecode := by
  unfold Obligations.WrittenOutWordsDecode
  decide

/-! ### Decode, then encode -/

theorem decodeWord_of_branch {w : Word} (hop : opcodeOf w = 0x63#7) : decodeWord w = decodeBranch w := by
  simp only [decodeWord, hop]

theorem decodeWord_of_jal {w : Word} (hop : opcodeOf w = 0x6F#7) : decodeWord w = .ok (.jal (rdOf w) (immJOf w)) := by
  simp only [decodeWord, hop]

theorem wellFormed_of_decodeBranch {w : Word} {i : Instr} (h : decodeBranch w = .ok i) : wellFormed i = true := by
  unfold decodeBranch at h
  split at h <;> cases h
  all_goals exact immBOk_immBOf w

/-- Only a branch or a JAL can be ill-formed, and its encoding shows that the word went to the decoder that puts the
implied zero in place (30_encoding.md R79). -/
theorem wellFormed_of_decodeWord {w : Word} {i : Instr} (h : decodeWord w = .ok i) : wellFormed i = true := by
  have hw := encode_of_decodeWord h
  cases i with
  | beq | bne | blt | bge | bltu | bgeu =>
    have hop : opcodeOf w = 0x63#7 := hw ▸ opcodeOf_encodeB _ _ _ _ _
    exact wellFormed_of_decodeBranch (decodeWord_of_branch hop ▸ h)
  | jal =>
    have hop : opcodeOf w = 0x6F#7 := hw ▸ opcodeOf_encodeJ _ _ _
    rw [decodeWord_of_jal hop] at h
    cases h
    exact immJOk_immJOf w
  | _ => rfl

/-- Settles O2: the encoding by `encode_of_decodeWord`, and what the decoder makes is well-formed. -/
theorem decodedWordEncodesBack : Obligations.DecodedWordEncodesBack :=
  fun _ _ h => ⟨wellFormed_of_decodeWord h, encode_of_decodeWord h⟩

end Sys2Proof.Machine
end

section
/-! PROOF. The eight reasons for which a word is illegal (30_encoding.md R84): what each sub-decoder rejects, one
equation each, and `decodeWord` rejects what the sub-decoder of its opcode does, or the opcode itself. -/

namespace Sys2Proof.Machine

section
variable {w : Word} {e : Reject}

theorem decodeRegReg_of_other_funct7 (h0 : funct7Of w ≠ 0x00#7) (h20 : funct7Of w ≠ 0x20#7) :
    decodeRegReg w = .error .regRegFunct := by
  unfold decodeRegReg
  split
  case h_11 => rfl
  case h_2 h7 _ | h_8 h7 _ => exact absurd h7 h20
  all_goals
    next h7 _ => exact absurd h7 h0

theorem decodeRegReg_error : decodeRegReg w = .error e ↔ e = .regRegFunct ∧
    ((funct7Of w ≠ 0x00#7 ∧ funct7Of w ≠ 0x20#7) ∨
      (funct7Of w = 0x20#7 ∧ funct3Of w ≠ 0x0#3 ∧ funct3Of w ≠ 0x5#3)) := by
  by_cases h0 : funct7Of w = 0x00#7
  · rcases funct3_cases w with h | h | h | h | h | h | h | h <;> simp [decodeRegReg, h, h0]
  · by_cases h20 : funct7Of w = 0x20#7
    · rcases funct3_cases w with h | h | h | h | h | h | h | h <;> simp [decodeRegReg, h, h20, eq_comm]
    · simp [decodeRegReg_of_other_funct7 h0 h20, h0, h20, eq_comm]

theorem decodeRegImm_error : decodeRegImm w = .error e ↔ e = .shiftFunct7 ∧
    ((funct3Of w = 0x1#3 ∧ funct7Of w ≠ 0x00#7) ∨
      (funct3Of w = 0x5#3 ∧ funct7Of w ≠ 0x00#7 ∧ funct7Of w ≠ 0x20#7)) := by
  by_cases h0 : funct7Of w = 0x00#7
  · rcases funct3_cases w with h | h | h | h | h | h | h | h <;> simp [decodeRegImm, h, h0]
  · by_cases h20 : funct7Of w = 0x20#7
    · rcases funct3_cases w with h | h | h | h | h | h | h | h <;> simp [decodeRegImm, h, h20, eq_comm]
    · rcases funct3_cases w with h | h | h | h | h | h | h | h <;> simp [decodeRegImm, h, h0, h20, eq_comm]

theorem decodeLoad_error : decodeLoad w = .error e ↔ e = .loadFunct3 ∧
    (funct3Of w = 0x3#3 ∨ funct3Of w = 0x6#3 ∨ funct3Of w = 0x7#3) := by
  rcases funct3_cases w with h | h | h | h | h | h | h | h <;> simp [decodeLoad, h, eq_comm]

theorem decodeStore_error : decodeStore w = .error e ↔ e = .storeFunct3 ∧ 3 ≤ (funct3Of w).toNat := by
  rcases funct3_cases w with h | h | h | h | h | h | h | h <;> simp [decodeStore, h, eq_comm]

theorem decodeBranch_error : decodeBranch w = .error e ↔ e = .branchFunct3 ∧
    (funct3Of w = 0x2#3 ∨ funct3Of w = 0x3#3) := by
  rcases funct3_cases w with h | h | h | h | h | h | h | h <;> simp [decodeBranch, h, eq_comm]

theorem decodeJalr_error : decodeJalr w = .error e ↔ e = .jalrFunct3 ∧ funct3Of w ≠ 0x0#3 := by
  by_cases h : funct3Of w = 0x0#3 <;> simp [decodeJalr, h, eq_comm]

theorem decodeSystem_error : decodeSystem w = .error e ↔
    e = .system ∧ w ≠ 0x00000073#32 ∧ w ≠ 0x00100073#32 := by
  unfold decodeSystem
  split_ifs <;> simp [*, eq_comm]

/-- The opcode is none of the ten that R82 lists. -/
def UnlistedOpcode (op : BitVec 7) : Prop :=
  op ≠ 0x33#7 ∧ op ≠ 0x13#7 ∧ op ≠ 0x03#7 ∧ op ≠ 0x23#7 ∧ op ≠ 0x63#7 ∧ op ≠ 0x6F#7 ∧ op ≠ 0x67#7 ∧ op ≠ 0x37#7 ∧
    op ≠ 0x17#7 ∧ op ≠ 0x73#7

/-- Everything the decoder rejects: the opcode chooses who rejects. -/
theorem decodeWord_error : decodeWord w = .error e ↔
    (UnlistedOpcode (opcodeOf w) ∧ e = .opcode) ∨
    (opcodeOf w = 0x33#7 ∧ decodeRegReg w = .error e) ∨ (opcodeOf w = 0x13#7 ∧ decodeRegImm w = .error e) ∨
    (opcodeOf w = 0x03#7 ∧ decodeLoad w = .error e) ∨ (opcodeOf w = 0x23#7 ∧ decodeStore w = .error e) ∨
    (opcodeOf w = 0x63#7 ∧ decodeBranch w = .error e) ∨ (opcodeOf w = 0x67#7 ∧ decodeJalr w = .error e) ∨
    (opcodeOf w = 0x73#7 ∧ decodeSystem w = .error e) := by
  unfold decodeWord UnlistedOpcode
  split
  case h_11 h33 h13 h03 h23 h63 h6F h67 h37 h17 h73 =>
    have unlisted : UnlistedOpcode (opcodeOf w) := ⟨h33, h13, h03, h23, h63, h6F, h67, h37, h17, h73⟩
    obtain ⟨n33, n13, n03, n23, n63, n6F, n67, n37, n17, n73⟩ := unlisted
    simp [n33, n13, n03, n23, n63, n6F, n67, n37, n17, n73, eq_comm (a := e)]
  all_goals
    next hop => simp [hop]

end

/-- Settles O4: each case picks out the one sub-decoder that answers its rejection. -/
theorem illegalWordsByCase : Obligations.IllegalWordsByCase := by
  intro w
  simp [decodeWord_error, decodeRegReg_error, decodeRegImm_error, decodeLoad_error, decodeStore_error,
    decodeBranch_error, decodeJalr_error, decodeSystem_error, UnlistedOpcode]

end Sys2Proof.Machine
end

section
/-! PROOF. The shifts by an immediate (41_reg_imm.md R127 to R129): their rows, which also fix funct7, the shifts of the
register-register family as numbers, and the words that R84 (c) takes out. -/

namespace Sys2Proof.Machine

/-- The constructor mk belongs to the shift row with codes f7 and f3: the decoder answers it for those codes, and the
encoder places it. For a given constructor both hold by computation, so the fields carry that proof. -/
structure ShiftRow (f7 : BitVec 7) (f3 : BitVec 3) (mk : RegNum → RegNum → BitVec 5 → Instr) : Prop where
  decodes : ∀ w, funct7Of w = f7 → funct3Of w = f3 → decodeRegImm w = .ok (mk (rdOf w) (rs1Of w) (shamtOf w)) := by
    intro w h7 h3
    simp [decodeRegImm, h7, h3]
  encodes : ∀ rd rs1 shamt, encode (mk rd rs1 shamt) = encodeR f7 shamt rs1 f3 rd 0x13#7 := by intros; rfl

/-- The words under a shift row are those the decoder reads as its instruction (30_encoding.md R73, R83). -/
theorem ShiftRow.selects {f7 : BitVec 7} {f3 : BitVec 3} {mk : RegNum → RegNum → BitVec 5 → Instr}
    (row : ShiftRow f7 f3 mk) {bits : Word} (hbits : bits = encodeR f7 0#5 0#5 f3 0#5 0x13#7) :
    Selects 0xFE00707F#32 bits (fun w => mk (rdOf w) (rs1Of w) (shamtOf w)) := by
  apply selects_of_decodes
  · intro w hw
    obtain ⟨h7, h3, hop⟩ := (matches_funct7 hbits).1 hw
    rw [decodeWord_of_regImm hop, row.decodes w h7 h3]
  · intro w
    rw [row.encodes, Laws.encodeR_and_mask, hbits]

/-- Settles O18: the three rows, the shifts as product and quotients by a power of two, and the rejected words. -/
theorem shiftsByImmediate : Obligations.ShiftsByImmediate := by
  have slliRow : ShiftRow 0x00#7 0x1#3 .slli := {}
  have srliRow : ShiftRow 0x00#7 0x5#3 .srli := {}
  have sraiRow : ShiftRow 0x20#7 0x5#3 .srai := {}
  refine ⟨slliRow.selects (by decide), srliRow.selects (by decide), sraiRow.selects (by decide),
    fun rd rs1 shamt s => ⟨?slli, ?srli, ?srai⟩, fun w hop hcodes => ?rejected⟩
  case slli => exact writesResult_of_exec rfl (shiftLeft_eq_ofNat _ _)
  case srli => exact writesResult_of_exec rfl (ushiftRight_eq_ofNat _ _)
  case srai => exact writesResult_of_exec rfl (sshiftRight_eq_ofInt _ _)
  case rejected =>
    rw [decodeWord_of_regImm hop, decodeRegImm_error]
    exact ⟨rfl, hcodes⟩

end Sys2Proof.Machine
end

section
/-! PROOF. The decoder as the opcode table (30_encoding.md R83). A row of the table is what the decoder answers for
the row's words: for the families settled above that is their `Selects`, for the others the codes alone choose the
constructor. As no two rows have one name, no word is in two rows. -/

namespace Sys2Proof.Machine

/-- The encoding of every instruction is in the instruction's row. -/
theorem encodedInRow (i : Instr) : Laws.EncodedInRow.Statement i := by
  cases i with
  | add => exact Laws.EncodedInRow.add ..
  | sub => exact Laws.EncodedInRow.sub ..
  | and => exact Laws.EncodedInRow.and ..
  | or => exact Laws.EncodedInRow.or ..
  | xor => exact Laws.EncodedInRow.xor ..
  | sll => exact Laws.EncodedInRow.sll ..
  | srl => exact Laws.EncodedInRow.srl ..
  | sra => exact Laws.EncodedInRow.sra ..
  | slt => exact Laws.EncodedInRow.slt ..
  | sltu => exact Laws.EncodedInRow.sltu ..
  | addi => exact Laws.EncodedInRow.addi ..
  | andi => exact Laws.EncodedInRow.andi ..
  | ori => exact Laws.EncodedInRow.ori ..
  | xori => exact Laws.EncodedInRow.xori ..
  | slti => exact Laws.EncodedInRow.slti ..
  | sltiu => exact Laws.EncodedInRow.sltiu ..
  | slli => exact Laws.EncodedInRow.slli ..
  | srli => exact Laws.EncodedInRow.srli ..
  | srai => exact Laws.EncodedInRow.srai ..
  | lui => exact Laws.EncodedInRow.lui ..
  | auipc => exact Laws.EncodedInRow.auipc ..
  | lw => exact Laws.EncodedInRow.lw ..
  | lh => exact Laws.EncodedInRow.lh ..
  | lb => exact Laws.EncodedInRow.lb ..
  | lhu => exact Laws.EncodedInRow.lhu ..
  | lbu => exact Laws.EncodedInRow.lbu ..
  | sw => exact Laws.EncodedInRow.sw ..
  | sh => exact Laws.EncodedInRow.sh ..
  | sb => exact Laws.EncodedInRow.sb ..
  | beq => exact Laws.EncodedInRow.beq ..
  | bne => exact Laws.EncodedInRow.bne ..
  | blt => exact Laws.EncodedInRow.blt ..
  | bge => exact Laws.EncodedInRow.bge ..
  | bltu => exact Laws.EncodedInRow.bltu ..
  | bgeu => exact Laws.EncodedInRow.bgeu ..
  | jal => exact Laws.EncodedInRow.jal ..
  | jalr => exact Laws.EncodedInRow.jalr ..
  | ecall => exact Laws.EncodedInRow.ecall
  | ebreak => exact Laws.EncodedInRow.ebreak

/-- Every word of a row is read as an instruction with the row's mnemonic. -/
def RowDecodes (row : OpcodeRow) : Prop :=
  ∀ w : Word, w &&& row.mask = row.bits → ∃ i, decodeWord w = .ok i ∧ mnemonic i = row.name

/-- A row that selects one constructor decodes to it; for a given constructor its mnemonic is computed. -/
theorem rowDecodes_of_selects {name : String} {mask bits : Word} {mk : Word → Instr} (h : Selects mask bits mk)
    (hname : ∀ w, mnemonic (mk w) = name := by intros; rfl) : RowDecodes ⟨name, bits, mask⟩ :=
  fun w hw => ⟨mk w, (h w).1 hw, hname w⟩

/-- The codes op and f3 make the decoder answer mk. For a given constructor this holds by computation, so the field
carries that proof. -/
structure Funct3Row (op : BitVec 7) (f3 : BitVec 3) (mk : Word → Instr) : Prop where
  decodes : ∀ w, opcodeOf w = op → funct3Of w = f3 → decodeWord w = .ok (mk w) := by
    intro w hop h3
    simp [decodeWord, hop, decodeLoad, decodeStore, decodeBranch, decodeJalr, h3]

theorem Funct3Row.rowDecodes {op : BitVec 7} {f3 : BitVec 3} {mk : Word → Instr} {name : String} {bits : Word}
    (row : Funct3Row op f3 mk) (hbits : bits = encodeR 0#7 0#5 0#5 f3 0#5 op := by decide)
    (hname : ∀ w, mnemonic (mk w) = name := by intros; rfl) : RowDecodes ⟨name, bits, 0x0000707F#32⟩ := by
  intro w hw
  obtain ⟨h3, hop⟩ := (matches_funct3 hbits).1 hw
  exact ⟨mk w, row.decodes w hop h3, hname w⟩

theorem loadRows_decode :
    RowDecodes ⟨"LW", 0x00002003#32, 0x0000707F#32⟩ ∧ RowDecodes ⟨"LH", 0x00001003#32, 0x0000707F#32⟩ ∧
    RowDecodes ⟨"LB", 0x00000003#32, 0x0000707F#32⟩ ∧ RowDecodes ⟨"LHU", 0x00005003#32, 0x0000707F#32⟩ ∧
    RowDecodes ⟨"LBU", 0x00004003#32, 0x0000707F#32⟩ :=
  have lw : Funct3Row 0x03#7 0x2#3 (fun w => .lw (rdOf w) (rs1Of w) (immIOf w)) := {}
  have lh : Funct3Row 0x03#7 0x1#3 (fun w => .lh (rdOf w) (rs1Of w) (immIOf w)) := {}
  have lb : Funct3Row 0x03#7 0x0#3 (fun w => .lb (rdOf w) (rs1Of w) (immIOf w)) := {}
  have lhu : Funct3Row 0x03#7 0x5#3 (fun w => .lhu (rdOf w) (rs1Of w) (immIOf w)) := {}
  have lbu : Funct3Row 0x03#7 0x4#3 (fun w => .lbu (rdOf w) (rs1Of w) (immIOf w)) := {}
  ⟨lw.rowDecodes, lh.rowDecodes, lb.rowDecodes, lhu.rowDecodes, lbu.rowDecodes⟩

theorem storeRows_decode :
    RowDecodes ⟨"SW", 0x00002023#32, 0x0000707F#32⟩ ∧ RowDecodes ⟨"SH", 0x00001023#32, 0x0000707F#32⟩ ∧
    RowDecodes ⟨"SB", 0x00000023#32, 0x0000707F#32⟩ :=
  have sw : Funct3Row 0x23#7 0x2#3 (fun w => .sw (rs1Of w) (rs2Of w) (immSOf w)) := {}
  have sh : Funct3Row 0x23#7 0x1#3 (fun w => .sh (rs1Of w) (rs2Of w) (immSOf w)) := {}
  have sb : Funct3Row 0x23#7 0x0#3 (fun w => .sb (rs1Of w) (rs2Of w) (immSOf w)) := {}
  ⟨sw.rowDecodes, sh.rowDecodes, sb.rowDecodes⟩

theorem branchRows_decode :
    RowDecodes ⟨"BEQ", 0x00000063#32, 0x0000707F#32⟩ ∧ RowDecodes ⟨"BNE", 0x00001063#32, 0x0000707F#32⟩ ∧
    RowDecodes ⟨"BLT", 0x00004063#32, 0x0000707F#32⟩ ∧ RowDecodes ⟨"BGE", 0x00005063#32, 0x0000707F#32⟩ ∧
    RowDecodes ⟨"BLTU", 0x00006063#32, 0x0000707F#32⟩ ∧ RowDecodes ⟨"BGEU", 0x00007063#32, 0x0000707F#32⟩ :=
  have beq : Funct3Row 0x63#7 0x0#3 (fun w => .beq (rs1Of w) (rs2Of w) (immBOf w)) := {}
  have bne : Funct3Row 0x63#7 0x1#3 (fun w => .bne (rs1Of w) (rs2Of w) (immBOf w)) := {}
  have blt : Funct3Row 0x63#7 0x4#3 (fun w => .blt (rs1Of w) (rs2Of w) (immBOf w)) := {}
  have bge : Funct3Row 0x63#7 0x5#3 (fun w => .bge (rs1Of w) (rs2Of w) (immBOf w)) := {}
  have bltu : Funct3Row 0x63#7 0x6#3 (fun w => .bltu (rs1Of w) (rs2Of w) (immBOf w)) := {}
  have bgeu : Funct3Row 0x63#7 0x7#3 (fun w => .bgeu (rs1Of w) (rs2Of w) (immBOf w)) := {}
  ⟨beq.rowDecodes, bne.rowDecodes, blt.rowDecodes, bge.rowDecodes, bltu.rowDecodes, bgeu.rowDecodes⟩

theorem jumpRows_decode :
    RowDecodes ⟨"JAL", 0x0000006F#32, 0x0000007F#32⟩ ∧ RowDecodes ⟨"JALR", 0x00000067#32, 0x0000707F#32⟩ :=
  have jalr : Funct3Row 0x67#7 0x0#3 (fun w => .jalr (rdOf w) (rs1Of w) (immIOf w)) := {}
  ⟨fun _ hw => ⟨_, decodeWord_of_jal ((matches_opcode (by decide)).1 hw), rfl⟩, jalr.rowDecodes⟩

/-- The two rows whose mask keeps the whole word (D5). -/
theorem systemRows_decode :
    RowDecodes ⟨"ECALL", 0x00000073#32, 0xFFFFFFFF#32⟩ ∧ RowDecodes ⟨"EBREAK", 0x00100073#32, 0xFFFFFFFF#32⟩ := by
  have whole : ∀ w : Word, w &&& 0xFFFFFFFF#32 = w := fun w => BitVec.and_allOnes
  refine ⟨fun w hw => ⟨.ecall, ?_, rfl⟩, fun w hw => ⟨.ebreak, ?_, rfl⟩⟩ <;>
    · rw [whole] at hw
      rw [hw]
      decide

theorem rowDecodes_of_mem : ∀ row ∈ opcodeTable, RowDecodes row := by
  obtain ⟨add, sub, -⟩ := addSubWrapModuloTwoTo32
  obtain ⟨and, or, xor, -⟩ := andOrXorActBitByBit
  obtain ⟨sll, srl, -⟩ := logicalShiftsByLowFiveBits
  obtain ⟨sra, -⟩ := arithmeticShiftRoundsDown
  obtain ⟨slt, sltu, -⟩ := setLessThanComparesExactly
  obtain ⟨addi, -⟩ := addImmediateSignExtends
  obtain ⟨andi, ori, xori, -⟩ := logicalImmediatesSignExtend
  obtain ⟨slti, sltiu, -⟩ := setLessThanImmediate
  obtain ⟨slli, srli, srai, -⟩ := shiftsByImmediate
  obtain ⟨lui, auipc, -⟩ := upperImmediateResults
  obtain ⟨lw, lh, lb, lhu, lbu⟩ := loadRows_decode
  obtain ⟨sw, sh, sb⟩ := storeRows_decode
  obtain ⟨beq, bne, blt, bge, bltu, bgeu⟩ := branchRows_decode
  obtain ⟨jal, jalr⟩ := jumpRows_decode
  obtain ⟨ecall, ebreak⟩ := systemRows_decode
  simp only [opcodeTable, List.forall_mem_append, List.forall_mem_cons, List.not_mem_nil, false_imp_iff, implies_true,
    and_true, and_assoc]
  exact ⟨rowDecodes_of_selects add, rowDecodes_of_selects sub, rowDecodes_of_selects and, rowDecodes_of_selects or,
    rowDecodes_of_selects xor, rowDecodes_of_selects sll, rowDecodes_of_selects srl, rowDecodes_of_selects sra,
    rowDecodes_of_selects slt, rowDecodes_of_selects sltu, rowDecodes_of_selects addi, rowDecodes_of_selects andi,
    rowDecodes_of_selects ori, rowDecodes_of_selects xori, rowDecodes_of_selects slti, rowDecodes_of_selects sltiu,
    rowDecodes_of_selects slli, rowDecodes_of_selects srli, rowDecodes_of_selects srai, rowDecodes_of_selects lui,
    rowDecodes_of_selects auipc, lw, lh, lb, lhu, lbu, sw, sh, sb, beq, bne, blt, bge, bltu, bgeu, jal, jalr, ecall,
    ebreak⟩

/-- No two rows of the table have one name. -/
theorem opcodeRow_ext_name {row row' : OpcodeRow} (h : row ∈ opcodeTable) (h' : row' ∈ opcodeTable)
    (hname : row.name = row'.name) : row = row' :=
  List.inj_on_of_nodup_map (f := OpcodeRow.name) (by decide) h h' hname

/-- Settles O3: an accepted word is its instruction's encoding, which is in the row; the rows decode; and a word in two
rows would be read as one instruction with both names. -/
theorem decoderFollowsOpcodeTable : Obligations.DecoderFollowsOpcodeTable := by
  refine ⟨fun w i h => ?accepted, fun w row hrow => rowDecodes_of_mem row hrow w,
    fun w row row' hrow hrow' hw hw' => ?disjoint⟩
  case accepted => exact encode_of_decodeWord h ▸ encodedInRow i
  case disjoint =>
    obtain ⟨i, hi, hname⟩ := rowDecodes_of_mem row hrow w hw
    obtain ⟨i', hi', hname'⟩ := rowDecodes_of_mem row' hrow' w hw'
    have hsame : i = i' := Except.ok.inj (hi.symm.trans hi')
    exact opcodeRow_ext_name hrow hrow' (by rw [← hname, ← hname', hsame])

end Sys2Proof.Machine
end

section
/-! PROOF. Addresses and targets (43_loads.md R150, 44_stores.md R160, 45_branches.md R170, 46_jumps.md R181, R182):
each is a base plus a sign-extended value, and clearing bit 0 is rounding down to an even number. -/

namespace Sys2Proof.Machine

theorem effectiveAddress_eq_ofInt (base : Word) (imm : BitVec 12) :
    effectiveAddress base imm = BitVec.ofInt 32 (base.toInt + imm.toInt) :=
  add_sext_eq_ofInt base imm (by decide)

theorem relativeTarget_eq_ofInt {n : Nat} (pc : Word) (imm : BitVec n) (hn : n ≤ 32) :
    relativeTarget pc imm = BitVec.ofInt 32 (pc.toInt + imm.toInt) :=
  add_sext_eq_ofInt pc imm hn

/-- The mask of JALR keeps the upper 31 bits above a zero. -/
theorem and_clear_bit_zero (x : Word) : x &&& 0xFFFFFFFE#32 = x.extractLsb' 1 31 ++ 0#1 := by
  have mask_31_1 : ∀ k < 32, (0xFFFFFFFE#32).getLsbD k = decide (1 ≤ k) := by decide
  apply BitVec.eq_of_getLsbD_eq
  intro k hk
  simp only [BitVec.getLsbD_append, BitVec.getLsbD_extractLsb', BitVec.getLsbD_and, mask_31_1 k hk]
  grind

theorem toNat_registerTarget (base : Word) (imm : BitVec 12) :
    (registerTarget base imm).toNat = (BitVec.ofInt 32 (base.toInt + imm.toInt)).toNat / 2 * 2 := by
  rw [registerTarget, add_sext_eq_ofInt base imm (by decide), and_clear_bit_zero, toNat_append_eq, toNat_extract_eq]
  have := (BitVec.ofInt 32 (base.toInt + imm.toInt)).isLt
  simp only [BitVec.toNat_ofNat]
  omega

/-- Settles O20: the sums by `add_sext_eq_ofInt`, JALR's by the rounding. -/
theorem addressesWrapModuloTwoTo32 : Obligations.AddressesWrapModuloTwoTo32 :=
  ⟨effectiveAddress_eq_ofInt, fun pc imm => relativeTarget_eq_ofInt pc imm (by decide),
    fun pc imm => relativeTarget_eq_ofInt pc imm (by decide), toNat_registerTarget⟩

end Sys2Proof.Machine
end

section
/-! PROOF. The five loads (43_loads.md). Where the read is allowed, `loadInto` writes the number its bytes denote, which
`valueLE` gives with the lowest address least significant; the rest is the extension of each load. -/

namespace Sys2Proof.Machine

/-- A load at an allowed address completes with the extended number of its bytes (43_loads.md R150). -/
theorem loadInto_allowed {s : State} {rd rs1 : RegNum} {imm : BitVec 12} {n : Nat} (ext : Nat → Word)
    (ha : AlignmentOk s (effectiveAddress (regRead s rs1) imm) n)
    (hm : AllMapped s (effectiveAddress (regRead s rs1) imm) n) :
    loadInto s rd rs1 imm n ext =
      .next (writeResult s rd
        (ext (valueLE ((List.range n).map (nthByte s (effectiveAddress (regRead s rs1) imm)))))) :=
  loadInto_ok (memRead_eq_valueLE ha hm)

theorem ofNat_toNat_same {n : Nat} (v : BitVec n) : BitVec.ofNat n v.toNat = v := by
  rw [BitVec.ofNat_toNat, BitVec.setWidth_eq]

/-- Settles O21: the four bytes as one word. -/
theorem loadWordResult : Obligations.LoadWordResult := by
  rintro rd rs1 imm s a rfl ha hm
  refine writesResult_of_exec (loadInto_allowed _ ha hm) ?word
  exact (congrArg (BitVec.ofNat 32) (valueLE_four _ _ _ _)).trans (ofNat_toNat_same _)

/-- Widening with zeros keeps the number. -/
theorem zext_eq_ofNat {n : Nat} (v : BitVec n) : zext v = BitVec.ofNat 32 v.toNat := (BitVec.ofNat_toNat 32 v).symm

theorem ofNat_valueLE_pair (b0 b1 : Byte) : BitVec.ofNat 16 (valueLE [b0, b1]) = b1 ++ b0 := by
  rw [valueLE_pair]
  exact ofNat_toNat_same (b1 ++ b0)

/-- Settles O22: the two bytes as a halfword, extended either way. -/
theorem loadHalfwordResults : Obligations.LoadHalfwordResults := by
  rintro rd rs1 imm s a rfl ha hm
  refine ⟨writesResult_of_exec (loadInto_allowed _ ha hm) ?signed,
    writesResult_of_exec (loadInto_allowed _ ha hm) ?unsigned⟩
  case signed => exact congrArg sext (ofNat_valueLE_pair _ _)
  case unsigned => exact (congrArg zext (ofNat_valueLE_pair _ _)).trans (zext_eq_ofNat _)

/-- Settles O23: the one byte, extended either way; one byte is aligned everywhere. -/
theorem loadByteResults : Obligations.LoadByteResults := by
  rintro rd rs1 imm s a rfl hm
  refine ⟨writesResult_of_exec (loadInto_ok (memRead_one_ok hm)) ?signed,
    writesResult_of_exec (loadInto_ok (memRead_one_ok hm)) ?unsigned⟩
  case signed => exact congrArg sext (ofNat_toNat_same _)
  case unsigned => exact (congrArg zext (ofNat_toNat_same _)).trans (zext_eq_ofNat _)

end Sys2Proof.Machine
end

section
/-! PROOF. The three stores (44_stores.md): where the write is allowed, `storeFrom` places the bytes by the byte rule of
`storeBytes` and touches nothing else. -/

namespace Sys2Proof.Machine

theorem allWritable_one {s : State} {a : Word} (h : isWritable s.plat a = true) : AllWritable s a 1 := by
  intro i hi
  obtain rfl : i = 0 := by omega
  rwa [nthAddr_zero]

/-- A store at an allowed address completes (44_stores.md R160). -/
theorem storeFrom_allowed {s : State} {rs1 rs2 : RegNum} {imm : BitVec 12} {n : Nat}
    (ha : AlignmentOk s (effectiveAddress (regRead s rs1) imm) n)
    (hw : AllWritable s (effectiveAddress (regRead s rs1) imm) n) :
    storeFrom s rs1 rs2 imm n =
      .next (advance (storeBytes s (effectiveAddress (regRead s rs1) imm) (bytesLE n (regRead s rs2)))) :=
  storeFrom_ok (memWrite_ok _ ha hw)

/-- An instruction that ends in `storeBytes` meets every clause of `StoresResult`. -/
theorem storesResult_of_exec {i : Instr} {s : State} {a v : Word} {n : Nat}
    (hexec : exec i s = .next (advance (storeBytes s a (bytesLE n v)))) (hn : n ≤ 4) : StoresResult i s a n v :=
  ⟨_, hexec, rfl, fun _ => rfl, ⟨rfl, rfl, rfl, rfl⟩, fun k hk => nthByte_storeBytes s a n v k hk (by omega),
    get_storeBytes_of_ne s a n v⟩

/-- Settles O24: the three widths of one rule; one byte is aligned everywhere. -/
theorem storeResults : Obligations.StoreResults := by
  rintro rs1 rs2 imm s a rfl
  refine ⟨fun ha hw => ?word, fun ha hw => ?half, fun hw => ?byte⟩
  case word => exact storesResult_of_exec (storeFrom_allowed ha hw) (by decide)
  case half => exact storesResult_of_exec (storeFrom_allowed ha hw) (by decide)
  case byte => exact storesResult_of_exec (storeFrom_allowed (alignmentOk_one _ _) (allWritable_one hw)) (by decide)

end Sys2Proof.Machine
end

section
/-! PROOF. The exceptions of loads and stores (60_exceptions.md R202, R205): what `MemRead` and `MemWrite` answer is
what the instruction raises. -/

namespace Sys2Proof.Machine

/-- Settles O25: the alignment check comes before every other (D21). -/
theorem misalignedAccessRaises : Obligations.MisalignedAccessRaises := by
  rintro rd rs1 rs2 imm s a rfl hp
  refine ⟨fun ha => ?word, fun ha => ?half⟩
  case word =>
    have hread := memRead_misaligned (by decide) ha hp
    have hwrite := memWrite_misaligned (regRead s rs2) (by decide) ha hp
    exact ⟨loadInto_error hread, storeFrom_error hwrite⟩
  case half =>
    have hread := memRead_misaligned (by decide) ha hp
    have hwrite := memWrite_misaligned (regRead s rs2) (by decide) ha hp
    exact ⟨loadInto_error hread, loadInto_error hread, storeFrom_error hwrite⟩

/-- A byte that fails is the first of an access to it alone. -/
theorem firstFails_one {ok : Word → Bool} {a : Word} (h : ok a = false) : FirstFails ok a 1 0 :=
  ⟨by decide, by rwa [nthAddr_zero], fun j hj => absurd hj (by omega)⟩

theorem memWrite_one_error {s : State} {a : Word} (v : Word) (h : isWritable s.plat a = false) :
    memWrite s a 1 v = .error (.accessFault .store a) := by
  have hfault := memWrite_accessFault v (alignmentOk_one s a) (firstFails_one h)
  rwa [nthAddr_zero] at hfault

/-- Settles O26: the checks of the bytes in order of address, for loads against MAPPED and for stores against
WRITABLE. -/
theorem accessOutsideMemoryRaises : Obligations.AccessOutsideMemoryRaises := by
  rintro rd rs1 rs2 imm s a k rfl
  refine ⟨fun ha hf => ?loadWord, fun ha hf => ?loadHalf, fun hb => ?loadByte, fun ha hf => ?storeWord,
    fun ha hf => ?storeHalf, fun hb => ?storeByte⟩
  case loadWord => exact loadInto_error (memRead_accessFault ha hf)
  case loadHalf =>
    have hread := memRead_accessFault ha hf
    exact ⟨loadInto_error hread, loadInto_error hread⟩
  case loadByte => exact ⟨loadInto_error (memRead_one_error hb), loadInto_error (memRead_one_error hb)⟩
  case storeWord => exact storeFrom_error (memWrite_accessFault _ ha hf)
  case storeHalf => exact storeFrom_error (memWrite_accessFault _ ha hf)
  case storeByte => exact storeFrom_error (memWrite_one_error _ hb)

end Sys2Proof.Machine
end

section
/-! PROOF. Accesses of different widths to the same bytes (20_memory.md sections 2 and 3). After a word store memory
holds the word's bytes, and four byte stores are one write of four bytes; every read is then the number of the bytes
it covers. -/

namespace Sys2Proof.Machine

theorem AllWritable.allMapped {s : State} {a : Word} {n : Nat} (h : AllWritable s a n) : AllMapped s a n :=
  fun i hi => isMapped_of_isWritable (h i hi)

theorem alignmentOk_two_of_four {s : State} {a : Word} (h : AlignmentOk s a 4) : AlignmentOk s a 2 :=
  h.imp_right fun ha => by omega

/-- The upper half of an aligned word is an aligned halfword. -/
theorem alignmentOk_upper_half {s : State} {a : Word} (h : AlignmentOk s a 4) : AlignmentOk s (nthAddr a 2) 2 := by
  refine h.imp_right fun ha => ?_
  have := a.isLt
  rw [nthAddr, BitVec.toNat_add, BitVec.toNat_ofNat]
  omega

theorem nthAddr_nthAddr (a : Word) (i j : Nat) : nthAddr (nthAddr a i) j = nthAddr a (i + j) := by
  simp only [nthAddr, BitVec.add_assoc, BitVec.ofNat_add]

theorem nthByte_nthAddr (s : State) (a : Word) (i j : Nat) : nthByte s (nthAddr a i) j = nthByte s a (i + j) := by
  rw [nthByte, nthAddr_nthAddr, nthByte]

section
variable {s : State} {a : Word} (v : Word)

/-- A byte of a stored word, read alone. -/
theorem memRead_byte_of_stored (hw : AllWritable s a 4) {k : Nat} (hk : k < 4) :
    memRead (storeBytes s a (bytesLE 4 v)) (nthAddr a k) 1 = .ok (v.toNat / 256 ^ k % 256) := by
  rw [memRead_one_ok (s := storeBytes s a (bytesLE 4 v)) (hw.allMapped k hk), ← byteOf_toNat,
    ← nthByte_storeBytes s a 4 v k hk (by decide), nthByte]

theorem memRead_low_half_of_stored (ha : AlignmentOk s a 4) (hw : AllWritable s a 4) :
    memRead (storeBytes s a (bytesLE 4 v)) a 2 = .ok (v.toNat % 65536) := by
  have hm : AllMapped s a 2 := fun i hi => hw.allMapped i (by omega)
  have hbytes : (List.range 2).map (nthByte (storeBytes s a (bytesLE 4 v)) a) = bytesLE 2 v :=
    List.map_congr_left fun i hi => nthByte_storeBytes s a 4 v i (by have := List.mem_range.1 hi; omega) (by decide)
  have hvalue : valueLE (bytesLE 2 v) = v.toNat % 65536 := valueLE_bytesLE 2 v
  rw [memRead_eq_valueLE (s := storeBytes s a (bytesLE 4 v)) (alignmentOk_two_of_four ha) hm, hbytes, hvalue]

theorem memRead_word_of_stored (ha : AlignmentOk s a 4) (hw : AllWritable s a 4) :
    memRead (storeBytes s a (bytesLE 4 v)) a 4 = .ok v.toNat := by
  have hbytes : (List.range 4).map (nthByte (storeBytes s a (bytesLE 4 v)) a) = bytesLE 4 v :=
    List.map_congr_left fun i hi => nthByte_storeBytes s a 4 v i (List.mem_range.1 hi) (by decide)
  have hvalue : valueLE (bytesLE 4 v) = v.toNat := (valueLE_bytesLE 4 v).trans (Nat.mod_eq_of_lt v.isLt)
  rw [memRead_eq_valueLE (s := storeBytes s a (bytesLE 4 v)) ha hw.allMapped, hbytes, hvalue]

theorem memRead_high_half_of_stored (ha : AlignmentOk s a 4) (hw : AllWritable s a 4) :
    memRead (storeBytes s a (bytesLE 4 v)) (nthAddr a 2) 2 = .ok (v.toNat / 65536) := by
  have hm : AllMapped s (nthAddr a 2) 2 := fun i hi => by
    rw [nthAddr_nthAddr]
    exact hw.allMapped _ (by omega)
  have hbyte : ∀ i < 2, nthByte (storeBytes s a (bytesLE 4 v)) (nthAddr a 2) i = byteOf v (2 + i) := fun i hi => by
    rw [nthByte_nthAddr, nthByte_storeBytes s a 4 v (2 + i) (by omega) (by decide)]
  have hvalue : valueLE [byteOf v 2, byteOf v 3] = v.toNat / 65536 := by
    have := v.isLt
    simp only [valueLE, byteOf_toNat]
    omega
  rw [memRead_eq_valueLE (s := storeBytes s a (bytesLE 4 v)) (alignmentOk_upper_half ha) hm, ← hvalue,
    ← hbyte 0 (by decide), ← hbyte 1 (by decide)]
  rfl

end

/-- Bytes written one after the other are written as one list. -/
theorem Memory.putBytes_append (bs cs : List Byte) (m : Memory) (a : Word) :
    Memory.putBytes m a (bs ++ cs) = Memory.putBytes (Memory.putBytes m a bs) (nthAddr a bs.length) cs := by
  induction bs generalizing m a with
  | nil => rw [List.length_nil, nthAddr_zero]; rfl
  | cons b rest ih =>
    rw [List.cons_append, Memory.putBytes, ih, nthAddr_succ]
    rfl

theorem storeBytes_append (s : State) (a : Word) (bs cs : List Byte) :
    storeBytes s a (bs ++ cs) = storeBytes (storeBytes s a bs) (nthAddr a bs.length) cs := by
  simp only [storeBytes, Memory.putBytes_append]

theorem storeBytes_four (s : State) (a : Word) (b0 b1 b2 b3 : Byte) :
    storeBytes s a [b0, b1, b2, b3] = storeBytes (storeBytes (storeBytes (storeBytes s a [b0]) (nthAddr a 1) [b1])
      (nthAddr a 2) [b2]) (nthAddr a 3) [b3] :=
  calc storeBytes s a [b0, b1, b2, b3]
    _ = storeBytes (storeBytes s a [b0, b1, b2]) (nthAddr a 3) [b3] := storeBytes_append s a [b0, b1, b2] [b3]
    _ = storeBytes (storeBytes (storeBytes s a [b0, b1]) (nthAddr a 2) [b2]) (nthAddr a 3) [b3] :=
      congrArg (storeBytes · (nthAddr a 3) [b3]) (storeBytes_append s a [b0, b1] [b2])
    _ = _ := congrArg (fun t => storeBytes (storeBytes t (nthAddr a 2) [b2]) (nthAddr a 3) [b3])
      (storeBytes_append s a [b0] [b1])

theorem bytesLE_one_setWidth (b : Byte) : bytesLE 1 (b.setWidth 32) = [b] := by
  have hbyte : byteOf (b.setWidth 32) 0 = b := BitVec.eq_of_toNat_eq (by simpa [byteOf] using b.isLt)
  exact congrArg (fun c => [c]) hbyte

/-- A byte write where it is allowed stores the byte (20_memory.md R45). -/
theorem memWrite_byte_ok {s : State} {a : Word} (b : Byte) (h : isWritable s.plat a = true) :
    memWrite s a 1 (b.setWidth 32) = .ok (storeBytes s a [b]) := by
  rw [memWrite_ok _ (alignmentOk_one s a) (allWritable_one h), bytesLE_one_setWidth]

/-- A word read where four bytes were just written answers their number. -/
theorem memRead_of_four_stored {s : State} {a : Word} (b0 b1 b2 b3 : Byte) (ha : AlignmentOk s a 4)
    (hw : AllWritable s a 4) :
    memRead (storeBytes s a [b0, b1, b2, b3]) a 4 = .ok (b3 ++ b2 ++ b1 ++ b0).toNat := by
  rw [memRead_ok (s := storeBytes s a [b0, b1, b2, b3]) ha hw.allMapped, ← valueLE_four]
  exact congrArg (fun bs => Except.ok (valueLE bs)) (Memory.getBytes_putBytes [b0, b1, b2, b3] s.mem a (by simp))

/-- Settles O28: the reads of a stored word, and four byte writes as one write of four bytes. -/
theorem mixedWidthsSeeTheSameBytes : Obligations.MixedWidthsSeeTheSameBytes := by
  intro s a v ha hw
  refine ⟨⟨_, memWrite_ok v ha hw, fun k hk => memRead_byte_of_stored v hw hk, memRead_low_half_of_stored v ha hw,
    memRead_high_half_of_stored v ha hw, memRead_word_of_stored v ha hw⟩, fun b0 b1 b2 b3 => ?bytewise⟩
  case bytewise =>
    refine ⟨_, _, _, _, memWrite_byte_ok b0 (hw 0 (by decide)), memWrite_byte_ok b1 (hw 1 (by decide)),
      memWrite_byte_ok b2 (hw 2 (by decide)), memWrite_byte_ok b3 (hw 3 (by decide)), ?_⟩
    rw [nthAddr_zero, ← storeBytes_four]
    exact memRead_of_four_stored b0 b1 b2 b3 ha hw

end Sys2Proof.Machine
end

section
/-! PROOF. The conditional branches and the jumps (45_branches.md, 46_jumps.md): what `branchIf` and `linkAndJump` do
with an aligned and with a misaligned target is said once; the six branches are then six conditions, the jumps two
targets. -/

namespace Sys2Proof.Machine

/-! ### Targets that are multiples of 4 -/

theorem wordAligned_eq_true {p : Word} (h : p.toNat % 4 = 0) : wordAligned p = true := (wordAligned_iff p).2 h

theorem wordAligned_eq_false {p : Word} (h : p.toNat % 4 ≠ 0) : wordAligned p = false :=
  Bool.eq_false_iff.2 fun ha => h ((wordAligned_iff p).1 ha)

theorem movesOnly_setPc (s : State) (p : Word) : MovesOnly s (setPc s p) p :=
  ⟨rfl, fun _ => rfl, fun _ => rfl, rfl, rfl, rfl, rfl⟩

/-- An instruction that is a `branchIf` on a condition meets both clauses of `BranchesWhen`. -/
theorem branchesWhen_of_exec {i : Instr} {s : State} {c : Bool} {imm : BitVec 13} {taken : Prop}
    (hexec : exec i s = branchIf s c imm) (hc : c = true ↔ taken) :
    BranchesWhen i s taken (BitVec.ofInt 32 (s.pc.toInt + imm.toInt)) := by
  rw [← relativeTarget_eq_ofInt s.pc imm (by decide)]
  refine ⟨fun ht ha => ⟨_, ?taken, movesOnly_setPc s _⟩, fun ht => ⟨_, ?notTaken, movesOnly_setPc s _⟩⟩
  case taken => rw [hexec, branchIf, if_pos (hc.2 ht), if_pos (wordAligned_eq_true ha)]
  case notTaken => rw [hexec, branchIf, if_neg (fun h => ht (hc.1 h)), advance]

/-- A taken branch to a misaligned target raises on itself (D7). -/
theorem branchIf_misaligned {s : State} {c : Bool} {imm : BitVec 13} {p : Word}
    (hp : p = BitVec.ofInt 32 (s.pc.toInt + imm.toInt)) (ha : p.toNat % 4 ≠ 0) (hc : c = true) :
    branchIf s c imm = .next (raise s (.instructionAddressMisaligned p)) := by
  rw [← relativeTarget_eq_ofInt s.pc imm (by decide)] at hp
  simp [branchIf, hc, ← hp, wordAligned_eq_false ha]

/-! ### The six conditions -/

theorem ltSigned_iff (x y : Word) : ltSigned x y = true ↔ x.toInt < y.toInt := decide_eq_true_iff

theorem ltUnsigned_iff (x y : Word) : ltUnsigned x y = true ↔ x.toNat < y.toNat := decide_eq_true_iff

theorem not_ltSigned_iff (x y : Word) : (!ltSigned x y) = true ↔ x.toInt ≥ y.toInt := by simp [ltSigned]

theorem not_ltUnsigned_iff (x y : Word) : (!ltUnsigned x y) = true ↔ x.toNat ≥ y.toNat := by simp [ltUnsigned]

/-- Settles O29: the model's tests are equality and its negation. -/
theorem equalityBranches : Obligations.EqualityBranches := fun _ _ _ _ =>
  ⟨branchesWhen_of_exec rfl beq_iff_eq, branchesWhen_of_exec rfl bne_iff_ne⟩

/-- Settles O30: BLT's test is the signed comparison, BGE's its negation. -/
theorem signedBranches : Obligations.SignedBranches := fun _ _ _ _ =>
  ⟨branchesWhen_of_exec rfl (ltSigned_iff _ _), branchesWhen_of_exec rfl (not_ltSigned_iff _ _)⟩

/-- Settles O31: BLTU's test is the unsigned comparison, BGEU's its negation. -/
theorem unsignedBranches : Obligations.UnsignedBranches := fun _ _ _ _ =>
  ⟨branchesWhen_of_exec rfl (ltUnsigned_iff _ _), branchesWhen_of_exec rfl (not_ltUnsigned_iff _ _)⟩

/-! ### Jumps -/

theorem linkAndJump_aligned (s : State) (rd : RegNum) {p : Word} (ha : p.toNat % 4 = 0) :
    linkAndJump s rd p = .next (setPc (regWrite s rd (s.pc + 4#32)) p) := by
  rw [linkAndJump, if_pos (wordAligned_eq_true ha)]

theorem linkAndJump_misaligned (s : State) (rd : RegNum) {p : Word} (ha : p.toNat % 4 ≠ 0) :
    linkAndJump s rd p = .next (raise s (.instructionAddressMisaligned p)) := by
  simp [linkAndJump, wordAligned_eq_false ha]

/-- `WritesOnly` does not speak of the `pc`, so the link is written as any result is. -/
theorem writesOnly_setPc_regWrite (s : State) (rd : RegNum) (v p : Word) :
    WritesOnly s (setPc (regWrite s rd v) p) rd v :=
  writesOnly_writeResult s rd v

/-- A jump to an aligned target links and goes there (46_jumps.md R180). -/
theorem links_of_exec {i : Instr} {s : State} {rd : RegNum} {p : Word} (hexec : exec i s = linkAndJump s rd p)
    (ha : p.toNat % 4 = 0) : ∃ t, exec i s = .next t ∧ t.pc = p ∧ WritesOnly s t rd (s.pc + 4#32) :=
  ⟨_, hexec.trans (linkAndJump_aligned s rd ha), rfl, writesOnly_setPc_regWrite s rd _ p⟩

theorem exec_jal {s : State} {imm : BitVec 21} {p : Word} (rd : RegNum)
    (hp : p = BitVec.ofInt 32 (s.pc.toInt + imm.toInt)) : exec (.jal rd imm) s = linkAndJump s rd p := by
  rw [hp, ← relativeTarget_eq_ofInt s.pc imm (by decide)]
  rfl

/-- JALR's target is fixed by its number. -/
theorem exec_jalr {s : State} {rs1 : RegNum} {imm : BitVec 12} {p : Word} (rd : RegNum)
    (hp : p.toNat = (BitVec.ofInt 32 ((regRead s rs1).toInt + imm.toInt)).toNat / 2 * 2) :
    exec (.jalr rd rs1 imm) s = linkAndJump s rd p := by
  have hp' : p = registerTarget (regRead s rs1) imm :=
    BitVec.eq_of_toNat_eq (hp.trans (toNat_registerTarget _ _).symm)
  rw [hp']
  rfl

/-- Settles O32: JAL is `linkAndJump` to the sum. -/
theorem jumpAndLinkResult : Obligations.JumpAndLinkResult := fun rd _ _ _ hp ha => links_of_exec (exec_jal rd hp) ha

/-- Settles O33: the target is of the registers before the link is written. -/
theorem jumpAndLinkRegisterResult : Obligations.JumpAndLinkRegisterResult :=
  fun rd _ _ _ _ hp ha => links_of_exec (exec_jalr rd hp) ha

/-- Settles O34: one rule for the six branches, one for the two jumps. -/
theorem misalignedTargetRaises : Obligations.MisalignedTargetRaises := by
  intro rd rs1 rs2 bimm jimm imm s p ha
  refine ⟨fun hp => ⟨fun hc => ?beq, fun hc => ?bne, fun hc => ?blt, fun hc => ?bge, fun hc => ?bltu, fun hc => ?bgeu⟩,
    fun hp => ?jal, fun hp => ?jalr⟩
  case beq => exact branchIf_misaligned hp ha (beq_iff_eq.2 hc)
  case bne => exact branchIf_misaligned hp ha (bne_iff_ne.2 hc)
  case blt => exact branchIf_misaligned hp ha ((ltSigned_iff _ _).2 hc)
  case bge => exact branchIf_misaligned hp ha ((not_ltSigned_iff _ _).2 hc)
  case bltu => exact branchIf_misaligned hp ha ((ltUnsigned_iff _ _).2 hc)
  case bgeu => exact branchIf_misaligned hp ha ((not_ltUnsigned_iff _ _).2 hc)
  case jal => exact (exec_jal rd hp).trans (linkAndJump_misaligned s rd ha)
  case jalr => exact (exec_jalr rd hp).trans (linkAndJump_misaligned s rd ha)

end Sys2Proof.Machine
end

section
/-! PROOF. The idioms of 30_encoding.md R88: each is one of the instructions settled above at special operands, x0 as
a zero to read or as a place to drop the link, and an immediate whose value is plain. -/

namespace Sys2Proof.Machine

/-- A link to x0 is dropped, so the jump moves the `pc` and nothing else. -/
theorem WritesOnly.movesOnly {s t : State} {v p : Word} (h : WritesOnly s t 0#5 v) (hpc : t.pc = p) :
    MovesOnly s t p := by
  obtain ⟨-, hother, hmem, hrun⟩ := h
  refine ⟨hpc, fun r => ?_, hmem, hrun⟩
  by_cases hr : r = 0#5
  · rw [hr, regRead_zero, regRead_zero]
  · exact hother r hr

/-- Bit by bit, exclusive or with -1 is negation. -/
theorem getLsbD_xor_sext_neg_one (x : Word) {k : Nat} (hk : k < 32) :
    (x ^^^ sext 0xFFF#12).getLsbD k = !x.getLsbD k := by
  have hones : ∀ k < 32, (sext 0xFFF#12).getLsbD k = true := by decide
  rw [BitVec.getLsbD_xor, hones k hk, Bool.xor_true]

theorem boolWord_zero_ltUnsigned (x : Word) : boolWord (ltUnsigned 0#32 x) = if x = 0#32 then 0#32 else 1#32 := by
  have hzero : (0#32).toNat < x.toNat ↔ x ≠ 0#32 := by
    rw [BitVec.toNat_ofNat, Nat.zero_mod, Nat.pos_iff_ne_zero, ← BitVec.toNat_inj.ne]
    rfl
  rw [ltUnsigned, boolWord_decide]
  simp only [hzero, ne_eq, ite_not]

theorem boolWord_ltUnsigned_one (x : Word) :
    boolWord (ltUnsigned x (sext 1#12)) = if x = 0#32 then 1#32 else 0#32 := by
  have hone : x.toNat < (sext 1#12).toNat ↔ x = 0#32 := by
    have hsext : (sext 1#12).toNat = 1 := by decide
    rw [hsext, Nat.lt_one_iff, ← BitVec.toNat_inj]
    rfl
  rw [ltUnsigned, boolWord_decide]
  simp only [hone]

/-- The call links through ra (46_jumps.md R181). -/
theorem exec_idiomCall {s : State} {offset : BitVec 21} {p : Word}
    (hp : p = BitVec.ofInt 32 (s.pc.toInt + offset.toInt)) (ha : p.toNat % 4 = 0) :
    ∃ t, exec (idiomCall offset) s = .next t ∧ t.pc = p ∧ WritesOnly s t 1#5 (s.pc + 4#32) :=
  links_of_exec (exec_jal 1#5 hp) ha

theorem exec_idiomJump {s : State} {offset : BitVec 21} {p : Word}
    (hp : p = BitVec.ofInt 32 (s.pc.toInt + offset.toInt)) (ha : p.toNat % 4 = 0) :
    ∃ t, exec (idiomJump offset) s = .next t ∧ MovesOnly s t p := by
  obtain ⟨t, ht, hpc, hwrites⟩ := links_of_exec (exec_jal 0#5 hp) ha
  exact ⟨t, ht, hwrites.movesOnly hpc⟩

/-- The return goes to ra with bit 0 cleared: the displacement 0 adds nothing. -/
theorem exec_idiomReturn {s : State} {p : Word} (hp : p.toNat = (regRead s 1#5).toNat / 2 * 2)
    (ha : p.toNat % 4 = 0) : ∃ t, exec idiomReturn s = .next t ∧ MovesOnly s t p := by
  have hsum : BitVec.ofInt 32 ((regRead s 1#5).toInt + (0#12).toInt) = regRead s 1#5 := by
    rw [BitVec.toInt_zero, Int.add_zero, BitVec.ofInt_toInt]
  obtain ⟨t, ht, hpc, hwrites⟩ := links_of_exec (exec_jalr (rs1 := 1#5) (imm := 0#12) 0#5 (by rw [hsum, hp])) ha
  exact ⟨t, ht, hwrites.movesOnly hpc⟩

/-- Settles O57: each result at the special operand, the jumps by `links_of_exec`. -/
theorem idiomsDoWhatTheSourceSays : Obligations.IdiomsDoWhatTheSourceSays := by
  intro rd r imm offset s
  refine ⟨writesResult_of_exec rfl ?set, writesResult_of_exec rfl ?copy,
    ⟨_, fun k hk => getLsbD_xor_sext_neg_one (regRead s r) hk, writesResult_of_exec rfl rfl⟩,
    writesResult_of_exec rfl ?nonzero, writesResult_of_exec rfl (boolWord_ltUnsigned_one _),
    fun p hp ha => ⟨exec_idiomCall hp ha, exec_idiomJump hp ha⟩, fun p hp ha => exec_idiomReturn hp ha⟩
  case set =>
    rw [regRead_zero, BitVec.zero_add]
    rfl
  case copy =>
    have hzero : sext 0#12 = 0#32 := by decide
    rw [hzero, BitVec.add_zero]
  case nonzero =>
    rw [regRead_zero]
    exact boolWord_zero_ltUnsigned _

/-- Settles O59: ra holds a multiple of 4, so clearing bit 0 leaves it. -/
theorem callThenReturnComesBack : Obligations.CallThenReturnComesBack := by
  intro offset s p hp hpc ha
  obtain ⟨t, ht, htpc, hlink, -⟩ := exec_idiomCall hp ha
  refine ⟨t, ht, htpc, fun t' hra => ?_⟩
  have haligned : (s.pc + 4#32).toNat % 4 = 0 := (wordAligned_iff _).1 (wordAligned_add_four (wordAligned_eq_true hpc))
  have hra' : regRead t' 1#5 = s.pc + 4#32 := hra.trans hlink
  exact exec_idiomReturn (by rw [hra']; omega) haligned

/-! ### Constants by LUI and ADDI -/

theorem getLsbD_eleven (c : Word) : c.getLsbD 11 = decide (c.toNat / 2048 % 2 = 1) := by
  rw [BitVec.getLsbD, Nat.testBit_eq_decide_div_mod_eq]

theorem toNat_sext_constantLow (c : Word) :
    (sext (constantLow c)).toNat = c.toNat % 4096 + if c.getLsbD 11 then 4294963200 else 0 := by
  have hmsb : (constantLow c).msb = c.getLsbD 11 := by
    simp [BitVec.msb_eq_getLsbD_last, constantLow]
  have hwide : ((constantLow c).setWidth 32).toNat = c.toNat % 4096 := by
    rw [constantLow, BitVec.toNat_setWidth, toNat_extract_eq]
    omega
  rw [sext, BitVec.toNat_signExtend, hwide, hmsb]

/-- What is left above the lower part is a multiple of 4096: bit 11 adds one to the upper part (30_encoding.md R88). -/
theorem toNat_sub_sext_constantLow (c : Word) : (c - sext (constantLow c)).toNat =
    (c.toNat / 4096 + if c.getLsbD 11 then 1 else 0) % 1048576 * 4096 := by
  have := c.isLt
  rw [BitVec.toNat_sub, toNat_sext_constantLow, getLsbD_eleven]
  simp only [decide_eq_true_eq]
  split <;> omega

theorem immU_constantHigh (c : Word) : immU (constantHigh c) = c - sext (constantLow c) := by
  apply BitVec.eq_of_toNat_eq
  rw [toNat_immU, constantHigh, toNat_extract_eq, toNat_sub_sext_constantLow]
  omega

/-- The upper part undoes what sign extension of the lower part adds. -/
theorem immU_constantHigh_add_sext (c : Word) : immU (constantHigh c) + sext (constantLow c) = c := by
  rw [immU_constantHigh, BitVec.sub_add_cancel]

theorem constantHigh_eq (c : Word) :
    constantHigh c = c.extractLsb' 12 20 + (if c.getLsbD 11 then 1#20 else 0#20) := by
  apply BitVec.eq_of_toNat_eq
  rw [constantHigh, BitVec.toNat_add, toNat_extract_eq, toNat_extract_eq, toNat_sub_sext_constantLow]
  split <;> simp only [BitVec.toNat_ofNat] <;> omega

/-- Two results written one after the other to one register: the second stands. -/
theorem WritesOnly.trans {s t u : State} {rd : RegNum} {v v' : Word} (h : WritesOnly s t rd v)
    (h' : WritesOnly t u rd v') : WritesOnly s u rd v' := by
  obtain ⟨-, hother, hmem, hstatus, hout, hplat, hcalls⟩ := h
  obtain ⟨hrd, hother', hmem', hstatus', hout', hplat', hcalls'⟩ := h'
  exact ⟨hrd, fun r hr => (hother' r hr).trans (hother r hr), fun a => (hmem' a).trans (hmem a),
    hstatus'.trans hstatus, hout'.trans hout, hplat'.trans hplat, hcalls'.trans hcalls⟩

/-- Settles O58: after LUI the register holds the upper part in place, and ADDI adds what is missing. -/
theorem luiAddiBuildsAnyConstant : Obligations.LuiAddiBuildsAnyConstant := by
  intro rd c s hrd
  refine ⟨constantHigh_eq c, _, _, rfl, rfl, ?pc, ?writes⟩
  case pc =>
    rw [writeResult_pc, writeResult_pc, BitVec.add_assoc]
    rfl
  case writes =>
    rw [regRead_writeResult, if_pos ⟨rfl, hrd⟩, immU_constantHigh_add_sext]
    exact (writesOnly_writeResult s rd _).trans (writesOnly_writeResult _ rd c)

end Sys2Proof.Machine
end

section
/-! SUPPORT. The fetch (10_state.md R27 steps 1 to 3): the word at `pc`, and the four ways a fetch can end, in the
order of 60_exceptions.md R209. -/

namespace Sys2Proof.Machine

/-- The word of the four bytes from `pc` up, the lowest address least significant (20_memory.md R42). -/
def fetchedWord (s : State) : Word :=
  nthByte s s.pc 3 ++ nthByte s s.pc 2 ++ nthByte s s.pc 1 ++ nthByte s s.pc 0

theorem getBytes_four (s : State) (a : Word) :
    Memory.getBytes s.mem a 4 = [nthByte s a 0, nthByte s a 1, nthByte s a 2, nthByte s a 3] :=
  getBytes_eq_map s a 4

theorem fetchInstr_misaligned {s : State} (ha : wordAligned s.pc = false) :
    fetchInstr s = .error (.instructionAddressMisaligned s.pc) := by
  simp [fetchInstr, ha]

theorem fetchInstr_unmapped {s : State} {k : Nat} (ha : wordAligned s.pc = true)
    (hf : FirstFails (isMapped s.plat) s.pc 4 k) : fetchInstr s = .error (.accessFault .fetch (nthAddr s.pc k)) := by
  simp [fetchInstr, ha, fetchBytes_accessFault hf]

theorem fetchInstr_decoded {s : State} {i : Instr} (ha : wordAligned s.pc = true) (hm : AllMapped s s.pc 4)
    (hd : decodeWord (fetchedWord s) = .ok i) : fetchInstr s = .ok i := by
  rw [fetchedWord] at hd
  simp [fetchInstr, ha, fetchBytes_ok hm, getBytes_four, decode, wordLE_four, hd]

theorem fetchInstr_illegal {s : State} {e : Reject} (ha : wordAligned s.pc = true) (hm : AllMapped s s.pc 4)
    (hd : decodeWord (fetchedWord s) = .error e) : fetchInstr s = .error (.illegalInstruction (fetchedWord s)) := by
  rw [fetchedWord] at hd ⊢
  simp [fetchInstr, ha, fetchBytes_ok hm, getBytes_four, decode, wordLE_four, hd]

/-- What runs is what the word at `pc` decodes to. -/
theorem decodeWord_of_fetchInstr {s : State} {i : Instr} (h : fetchInstr s = .ok i) :
    decodeWord (fetchedWord s) = .ok i := by
  cases ha : wordAligned s.pc with
  | false => rw [fetchInstr_misaligned ha] at h; cases h
  | true =>
    cases hu : firstUnmapped s.plat s.pc 4 with
    | some b =>
      obtain ⟨k, hk, -⟩ := firstUnmapped_some.1 hu
      rw [fetchInstr_unmapped ha hk] at h; cases h
    | none =>
      have hm := firstUnmapped_none.1 hu
      cases hd : decodeWord (fetchedWord s) with
      | error e => rw [fetchInstr_illegal ha hm hd] at h; cases h
      | ok j => rw [fetchInstr_decoded ha hm hd] at h; cases h; rfl

end Sys2Proof.Machine
end

section
/-! PROOF. The step rule (10_state.md R27, 60_exceptions.md R209): a step in a running state is the instruction
fetched or the exception in its way, and no other state takes one. -/

namespace Sys2Proof.Machine

/-- Settles O42: the fetch answers what the word decodes to, and the step runs it. -/
theorem stepRunsDecodedInstruction : Obligations.StepRunsDecodedInstruction :=
  fun _ _ hs ha hm hd => step_of_fetch_ok hs (fetchInstr_decoded (wordAligned_eq_true ha) hm hd)

/-- Settles O43: one lemma of the fetch per exception. -/
theorem stepExceptionsInOrder : Obligations.StepExceptionsInOrder := by
  intro s hs
  refine ⟨fun ha => ?misaligned, fun k ha hf => ?unmapped, fun w e ha hm hw hd => ?illegal⟩
  case misaligned => exact step_of_fetch_error hs (fetchInstr_misaligned (wordAligned_eq_false ha))
  case unmapped => exact step_of_fetch_error hs (fetchInstr_unmapped (wordAligned_eq_true ha) hf)
  case illegal =>
    subst hw
    exact step_of_fetch_error hs (fetchInstr_illegal (wordAligned_eq_true ha) hm hd)

theorem step_of_not_running {s : State} (h : s.status ≠ .running) : step s = .fault .notRunning := by
  unfold step
  split
  · next hs => exact absurd hs h
  · rfl
  · rfl

/-- Settles O44: a fetch answers an exception or an instruction, and every instruction answers a next state. -/
theorem stepExactlyWhileRunning : Obligations.StepExactlyWhileRunning := by
  refine fun s => ⟨fun hs => ?running, step_of_not_running⟩
  cases hf : fetchInstr s with
  | error e => exact ⟨_, step_of_fetch_error hs hf⟩
  | ok i =>
    obtain ⟨t, ht, -⟩ := exec_effect i s
    exact ⟨t, (step_of_fetch_ok hs hf).trans ht⟩

/-- Settles O56: the four bytes that SW stores at an aligned address are the word fetched there. -/
theorem storeIsSeenByNextFetch : Obligations.StoreIsSeenByNextFetch := by
  rintro rs1 rs2 imm s a rfl ha hw
  refine ⟨_, storeFrom_allowed (.inr ha) hw, ?_⟩
  generalize effectiveAddress (regRead s rs1) imm = a at ha hw
  generalize regRead s rs2 = v
  generalize ht : { advance (storeBytes s a (bytesLE 4 v)) with pc := a } = t
  have hpc : t.pc = a := by rw [← ht]
  have hmapped : AllMapped t t.pc 4 := by
    rw [← ht]
    exact hw.allMapped
  have hword : fetchedWord t = v := by
    have hbytes : Memory.getBytes t.mem a 4 = bytesLE 4 v := by
      rw [← ht]
      exact Memory.getBytes_putBytes (bytesLE 4 v) s.mem a (by simp)
    rw [fetchedWord, hpc, ← wordLE_four, ← getBytes_four, hbytes, wordLE_bytesLE]
  have haligned : wordAligned t.pc = true := by rw [hpc, wordAligned_eq_true ha]
  exact ⟨fun i hi => fetchInstr_decoded haligned hmapped (by rw [hword, hi]),
    fun e he => by rw [fetchInstr_illegal haligned hmapped (by rw [hword, he]), hword]⟩

end Sys2Proof.Machine
end

section
/-! PROOF. ECALL and EBREAK (47_system.md R191 to R198): ECALL is the service that the table gives, and each service
is one rule: the string read ends in one of three ways, an added service's stores are checked and then made. -/

namespace Sys2Proof.Machine

/-- Settles O35: the four rows, by number. -/
theorem defaultServiceTable : Obligations.DefaultServiceTable := by
  intro n
  simp only [Config.defaultSyscalls, lookupService, ← BitVec.toNat_inj, BitVec.toNat_ofNat, Nat.reducePow,
    Nat.reduceMod, eq_comm (b := n.toNat)]

/-- Settles O41, by the definition of EBREAK. -/
theorem ebreakHalts : Obligations.EbreakHalts := fun _ => rfl

theorem exec_ecall_of_none {s : State} (h : lookupService s.plat.syscalls (regRead s 10#5) = none) :
    exec .ecall s = .next (raise s (.unknownEnvironmentCall (regRead s 10#5))) := by
  simp [exec, execEcall, regA0, h]

theorem exec_ecall_of_some {s : State} {v : Service}
    (h : lookupService s.plat.syscalls (regRead s 10#5) = some v) : exec .ecall s = .next (serve s v) := by
  simp [exec, execEcall, regA0, h]

/-- Settles O36: the service that the table gives, by its definition. -/
theorem ecallPrintInteger : Obligations.EcallPrintInteger := fun _ h => exec_ecall_of_some h

/-- Settles O39: both services halt, by their definitions. -/
theorem ecallExits : Obligations.EcallExits := fun _ => ⟨fun h => exec_ecall_of_some h, fun h => exec_ecall_of_some h⟩

/-! ### Print string -/

theorem exec_printString_of_error {s : State} {e : Exc}
    (h : lookupService s.plat.syscalls (regRead s 10#5) = some .printString)
    (hr : readString s (regRead s 11#5) addressSpace (regRead s 11#5) = .error e) :
    exec .ecall s = .next (raise s e) := by
  rw [exec_ecall_of_some h]
  simp [serve, servicePrintString, regA1, hr]

theorem exec_printString_of_ok {s : State} {bytes : List Byte}
    (h : lookupService s.plat.syscalls (regRead s 10#5) = some .printString)
    (hr : readString s (regRead s 11#5) addressSpace (regRead s 11#5) = .ok bytes) :
    exec .ecall s = .next (advance (emit s (.printString bytes))) := by
  rw [exec_ecall_of_some h]
  simp [serve, servicePrintString, regA1, hr]

/-- Settles O37: the string read ends at the first zero byte. -/
theorem ecallPrintString : Obligations.EcallPrintString := by
  rintro s p k h rfl hk hm hne hz
  exact exec_printString_of_ok h (readString_ok s _ addressSpace _ k hk hm hne hz)

/-- Settles O38: the string read ends at an unmapped byte, or not at all. -/
theorem ecallPrintStringRaises : Obligations.EcallPrintStringRaises := by
  rintro s p h rfl
  refine ⟨fun k hk hm hne hu => ?unmapped, fun hall => ?unterminated⟩
  case unmapped => exact exec_printString_of_error h (readString_unmapped s _ addressSpace _ k hk hm hne hu)
  case unterminated =>
    exact exec_printString_of_error h
      (readString_unterminated s _ addressSpace _ (fun j _ => (hall _).1) (fun j _ => (hall _).2))

/-! ### Added services -/

/-- The first byte that may not be written stops the service before any is written. -/
theorem performResult_unwritable {s : State} {pre post : List (Word × Byte)} {a : Word} (v : Byte)
    (events : List Event) (hpre : ∀ c ∈ pre, isWritable s.plat c.1 = true) (ha : isWritable s.plat a = false) :
    performResult s (.goesOn (pre ++ (a, v) :: post) events) = raise s (.accessFault .store a) := by
  have hfind : (pre ++ (a, v) :: post).find? (fun c => !isWritable s.plat c.1) = some (a, v) := by
    have hnone : pre.find? (fun c => !isWritable s.plat c.1) = none :=
      List.find?_eq_none.2 fun c hc => by simp [hpre c hc]
    simp [List.find?_append, hnone, ha]
  simp [performResult, hfind]

theorem performResult_writable {s : State} {stores : List (Word × Byte)} (events : List Event)
    (h : ∀ c ∈ stores, isWritable s.plat c.1 = true) :
    performResult s (.goesOn stores events) = completeService s stores events := by
  have hfind : stores.find? (fun c => !isWritable s.plat c.1) = none :=
    List.find?_eq_none.2 fun c hc => by simp [h c hc]
  simp [performResult, hfind]

/-- Settles O40: the lookup, the result as the platform gives it, and the memory that a list of stores leaves. -/
theorem ecallBeyondTheFourServices : Obligations.EcallBeyondTheFourServices := by
  intro s
  refine ⟨exec_ecall_of_none, fun d h => exec_ecall_of_some h, rfl, fun c => rfl, fun a => rfl,
    fun pre post a v events hpre ha => performResult_unwritable v events hpre ha, fun stores events t hw ht => ?goesOn⟩
  rw [performResult_writable events hw] at ht
  subst ht
  refine ⟨rfl, fun r => rfl, rfl, rfl, rfl, rfl, fun x hx => get_storeCells_of_ne stores s x hx,
    fun pre post a v hstores hpost => ?lastStands⟩
  subst hstores
  exact get_storeCells pre a v post s hpost

end Sys2Proof.Machine
end

section
/-! PROOF. What every instruction keeps (10_state.md R24, R33, 60_exceptions.md R203, 47_system.md R196), from the
effects an instruction can have. -/

namespace Sys2Proof.Machine

/-! ### Status -/

/-- An instruction raises, ends the run, or leaves the status; the first two change nothing else. -/
theorem Effect.status_cases {i : Instr} {s t : State} (h : Effect i s t) :
    (∃ e, t = raise s e) ∨ (∃ r, t = halt s r) ∨ t.status = s.status := by
  cases h with
  | raised e => exact .inl ⟨e, rfl⟩
  | ended r => exact .inr (.inl ⟨r, rfl⟩)
  | result | linked => exact .inr (.inr (by simp))
  | stored | jumped | advanced | printed | served => exact .inr (.inr rfl)

/-- A step raises, ends the run, or goes on. -/
theorem step_status_cases {s t : State} (h : step s = .next t) :
    (∃ e, t = raise s e) ∨ (∃ r, t = halt s r) ∨ t.status = .running := by
  obtain ⟨hs, ⟨e, ht⟩ | ⟨i, -, heff⟩⟩ := step_effect h
  · exact .inl ⟨e, ht⟩
  · exact hs ▸ heff.status_cases

/-- Settles O45: only raising ends in a fault. -/
theorem exceptionsArePrecise : Obligations.ExceptionsArePrecise := by
  intro s t e h hstatus
  rcases step_status_cases h with ⟨e', rfl⟩ | ⟨r, rfl⟩ | hrun
  · cases hstatus; rfl
  · cases hstatus
  · rw [hrun] at hstatus; cases hstatus

/-- The services that end a run, and with which reason (47_system.md R194, R195, R198). -/
def EndsRun (s : State) (v : Service) (r : HaltReason) : Prop :=
  (v = .exit ∧ r = .exit) ∨ (v = .exitWithCode ∧ r = .exitCode (regRead s 11#5)) ∨
    ∃ d, v = .added d ∧ ((resultOf s d = .exits ∧ r = .exit) ∨ ∃ c, resultOf s d = .exitsWithCode c ∧ r = .exitCode c)

theorem endsRun_of_serviceAdded {s : State} {d : AddedService} {r : HaltReason} (hs : s.status = .running)
    (h : (serviceAdded s d).status = .halted r) : EndsRun s (.added d) r := by
  rw [serviceAdded] at h
  refine .inr (.inr ⟨d, rfl, ?_⟩)
  rcases performResult_cases s (resultOf s d) with ⟨a, -, hp⟩ | ⟨hres, hp⟩ | ⟨c, hres, hp⟩ |
    ⟨stores, events, -, ⟨c, -, hp⟩ | ⟨-, hp⟩⟩
  · rw [hp] at h; cases h
  · rw [hp] at h; cases h; exact .inl ⟨hres, rfl⟩
  · rw [hp] at h; cases h; exact .inr ⟨c, hres, rfl⟩
  · rw [hp] at h; cases h
  · rw [hp, completeService_status, hs] at h; cases h

theorem endsRun_of_serve {s : State} {v : Service} {r : HaltReason} (hs : s.status = .running)
    (h : (serve s v).status = .halted r) : EndsRun s v r := by
  cases v with
  | printInteger => exact absurd (hs.symm.trans h) nofun
  | printString =>
    rw [serve, servicePrintString] at h
    split at h
    · cases h
    · exact absurd (hs.symm.trans h) nofun
  | exit => cases h; exact .inl ⟨rfl, rfl⟩
  | exitWithCode => cases h; exact .inr (.inl ⟨rfl, rfl⟩)
  | added d => exact endsRun_of_serviceAdded hs h

/-- Of a running state only ECALL and EBREAK make a halted one. -/
theorem Effect.ecall_or_ebreak {i : Instr} {s t : State} {r : HaltReason} (h : Effect i s t)
    (hs : s.status = .running) (ht : t.status = .halted r) : i = .ecall ∨ i = .ebreak := by
  cases h with
  | ended _ hi => exact hi
  | raised => cases ht
  | result | linked => simp [hs] at ht
  | stored | jumped | advanced | printed | served => exact absurd (hs.symm.trans ht) nofun

/-- Settles O46: only ECALL and EBREAK have the effect of ending a run, their words are their encodings, and ECALL ends
one by a service that does. -/
theorem onlyEndingServicesAndEbreakHalt : Obligations.OnlyEndingServicesAndEbreakHalt := by
  intro s t r h hstatus
  refine ⟨?onlyStatus, fetchedWord s, rfl, ?reason⟩
  case onlyStatus =>
    rcases step_status_cases h with ⟨e, rfl⟩ | ⟨r', rfl⟩ | hrun
    · cases hstatus
    · cases hstatus; rfl
    · rw [hrun] at hstatus; cases hstatus
  case reason =>
    obtain ⟨hs, ⟨e, -, rfl⟩ | ⟨i, hi, hexec⟩⟩ := step_cases h
    · cases hstatus
    have hdecode := decodeWord_of_fetchInstr hi
    rcases (effect_of_exec hexec).ecall_or_ebreak hs hstatus with rfl | rfl
    · have hecall : fetchedWord s = 0x00000073#32 := by rw [← encode_of_decodeWord hdecode]; decide
      cases hl : lookupService s.plat.syscalls (regRead s 10#5) with
      | none => rw [exec_ecall_of_none hl] at hexec; cases hexec; cases hstatus
      | some v =>
        rw [exec_ecall_of_some hl] at hexec
        cases hexec
        rcases endsRun_of_serve hs hstatus with ⟨rfl, hr⟩ | ⟨rfl, hr⟩ | ⟨d, rfl, hr⟩
        · exact .inr (.inl ⟨hecall, rfl, hr⟩)
        · exact .inr (.inr (.inl ⟨hecall, rfl, hr⟩))
        · exact .inr (.inr (.inr ⟨hecall, d, rfl, hr⟩))
    · have hebreak : fetchedWord s = 0x00100073#32 := by rw [← encode_of_decodeWord hdecode]; decide
      cases hexec
      cases hstatus
      exact .inl ⟨hebreak, rfl⟩

/-! ### Registers -/

/-- Settles O54: the two effects that write a register write the destination. -/
theorem onlyDestinationRegisterChanges : Obligations.OnlyDestinationRegisterChanges := by
  intro i s t r h hd
  cases effect_of_exec h with
  | result rd v hrd =>
    have hne : r ≠ rd := fun e => hd (e ▸ hrd)
    rw [regRead_writeResult, if_neg fun hr => hne hr.1]
  | linked rd p hrd =>
    have hne : r ≠ rd := fun e => hd (e ▸ hrd)
    rw [regRead_setPc, regRead_regWrite_ne s _ hne]
  | raised | stored | jumped | advanced | printed | served | ended => rfl

/-! ### Parameters and output -/

theorem Effect.plat_eq {i : Instr} {s t : State} (h : Effect i s t) : t.plat = s.plat := by
  cases h with
  | result | linked => simp
  | raised | stored | jumped | advanced | printed | served | ended => rfl

theorem Effect.out_extends {i : Instr} {s t : State} (h : Effect i s t) : ∃ es, t.out = s.out ++ es := by
  cases h with
  | result | linked => exact ⟨[], by simp⟩
  | raised | stored | jumped | advanced | ended => exact ⟨[], (List.append_nil _).symm⟩
  | printed e => exact ⟨[e], rfl⟩
  | served d stores events => exact ⟨events, rfl⟩

theorem step_plat_out {s t : State} (h : step s = .next t) : t.plat = s.plat ∧ ∃ es, t.out = s.out ++ es := by
  obtain ⟨-, ⟨e, rfl⟩ | ⟨i, -, heff⟩⟩ := step_effect h
  · exact ⟨rfl, [], (List.append_nil _).symm⟩
  · exact ⟨heff.plat_eq, heff.out_extends⟩

/-- Settles O51, by induction on the number of steps. -/
theorem runsOnlyAppendOutput : Obligations.RunsOnlyAppendOutput := by
  intro s t h
  induction h with
  | refl => exact ⟨rfl, ⟨[], (List.append_nil _).symm⟩, fun _ => rfl⟩
  | tail t u _ hstep ih =>
    obtain ⟨hplat, ⟨es, hout⟩, hended⟩ := ih
    obtain ⟨hplat', es', hout'⟩ := step_plat_out hstep
    refine ⟨hplat'.trans hplat, ⟨es ++ es', ?_⟩, fun hs => ?_⟩
    · rw [hout', hout, List.append_assoc]
    · rw [hended hs, step_of_not_running hs] at hstep
      cases hstep

end Sys2Proof.Machine
end

section
/-! PROOF. The invariant (20_memory.md R48, 92_eei_decisions.md D7): every effect keeps memory canonical and inside
MAPPED, because what is written is writable and so mapped, and every `pc` it sets is a multiple of 4. -/

namespace Sys2Proof.Machine

theorem wfState_iff {s : State} : WfState s = true ↔ Memory.wf s.mem = true ∧
    (∀ c ∈ s.mem, isMapped s.plat (BitVec.ofNat 32 c.1) = true) ∧ wordAligned s.pc = true := by
  simp only [WfState, Bool.and_eq_true, List.all_eq_true, and_assoc]

/-- Memory as before and an aligned `pc`. -/
theorem wfState_of_mem_eq {s t : State} (hs : WfState s = true) (hm : t.mem = s.mem) (hp : t.plat = s.plat)
    (ha : wordAligned t.pc = true) : WfState t = true := by
  obtain ⟨hwf, hmapped, -⟩ := wfState_iff.1 hs
  exact wfState_iff.2 ⟨hm ▸ hwf, hm ▸ hp ▸ hmapped, ha⟩

/-- Canonical memory whose new entries lie at writable addresses, and an aligned `pc`. -/
theorem wfState_of_written {s t : State} (hs : WfState s = true) (hwf : Memory.wf t.mem = true)
    (hmem : ∀ c ∈ t.mem, (∃ a : Word, c.1 = a.toNat ∧ isWritable s.plat a = true) ∨ c ∈ s.mem)
    (hp : t.plat = s.plat) (ha : wordAligned t.pc = true) : WfState t = true := by
  obtain ⟨-, hmapped, -⟩ := wfState_iff.1 hs
  refine wfState_iff.2 ⟨hwf, fun c hc => ?_, ha⟩
  rw [hp]
  rcases hmem c hc with ⟨a, hca, hw⟩ | hold
  · rw [hca, ofNat_toNat_same]
    exact isMapped_of_isWritable hw
  · exact hmapped c hold

theorem Effect.keeps_wfState {i : Instr} {s t : State} (h : Effect i s t) (hs : WfState s = true) :
    WfState t = true := by
  obtain ⟨hwf, -, ha⟩ := wfState_iff.1 hs
  have hnext : wordAligned (s.pc + 4#32) = true := wordAligned_add_four ha
  cases h with
  | raised | ended => exact wfState_of_mem_eq hs rfl rfl ha
  | result rd v => exact wfState_of_mem_eq hs (by simp) (by simp) (by simpa using hnext)
  | linked rd p _ hp => exact wfState_of_mem_eq hs (by simp) (by simp) hp
  | jumped p hp => exact wfState_of_mem_eq hs rfl rfl hp
  | advanced | printed => exact wfState_of_mem_eq hs rfl rfl hnext
  | stored a n v _ _ hw =>
    refine wfState_of_written hs (Memory.wf_putBytes _ a hwf) (fun c hc => ?_) rfl hnext
    refine (Memory.mem_putBytes _ hc).imp_left fun ⟨b, hb, hcb⟩ => ⟨b, hcb, ?_⟩
    obtain ⟨k, hk, rfl⟩ := mem_byteAddrs.1 hb
    exact hw k (by simpa using hk)
  | served d stores events _ _ _ hw =>
    refine wfState_of_written hs (wf_storeCells stores hwf) (fun c hc => ?_) rfl hnext
    exact (mem_storeCells stores hc).imp_left fun ⟨e, he, hce⟩ => ⟨e.1, hce, hw e he⟩

/-- Settles O47: an exception keeps all but the status, an instruction by its effect. -/
theorem stepKeepsInv : Obligations.StepKeepsInv := by
  intro s t hs h
  obtain ⟨-, ⟨e, rfl⟩ | ⟨i, -, heff⟩⟩ := step_effect h
  · exact hs
  · exact heff.keeps_wfState hs

end Sys2Proof.Machine
end

section
/-! PROOF. The frame of memory (10_state.md section 7, 20_memory.md sections 1 and 5): the loads, the branches, the
links and the results leave it, a store changes its own writable bytes, and of the services only an added one writes.
-/

namespace Sys2Proof.Machine

section
variable {s t : State}

theorem mem_of_loadInto {rd rs1 : RegNum} {imm : BitVec 12} {n : Nat} {ext : Nat → Word}
    (h : loadInto s rd rs1 imm n ext = .next t) : t.mem = s.mem := by
  cases hm : memRead s (effectiveAddress (regRead s rs1) imm) n with
  | error e => rw [loadInto_error hm] at h; cases h; rfl
  | ok v => rw [loadInto_ok hm] at h; cases h; exact writeResult_mem s rd _

theorem mem_of_branchIf {c : Bool} {imm : BitVec 13} (h : branchIf s c imm = .next t) : t.mem = s.mem := by
  rcases branchIf_cases s c imm with ⟨-, hb⟩ | ⟨-, -, hb⟩ | ⟨-, -, hb⟩ <;>
    · rw [hb] at h
      cases h
      rfl

theorem mem_of_linkAndJump {rd : RegNum} {p : Word} (h : linkAndJump s rd p = .next t) : t.mem = s.mem := by
  rcases linkAndJump_cases s rd p with ⟨-, hj⟩ | ⟨-, hj⟩ <;>
    · rw [hj] at h
      cases h
      simp

/-- The bytes that a store instruction may change: writable, and within its access. -/
theorem changed_by_storeFrom {rs1 rs2 : RegNum} {imm : BitVec 12} {n : Nat} {a : Word}
    (h : storeFrom s rs1 rs2 imm n = .next t) (hne : Memory.get t.mem a.toNat ≠ Memory.get s.mem a.toNat) :
    ∃ k, k < n ∧ a = nthAddr (effectiveAddress (regRead s rs1) imm) k ∧ isWritable s.plat a = true := by
  rcases memWrite_cases s (effectiveAddress (regRead s rs1) imm) n (regRead s rs2) with
    ⟨hm, -⟩ | ⟨i, -, hm⟩ | ⟨-, hw, hm⟩
  · rw [storeFrom_error hm] at h; cases h; exact absurd rfl hne
  · rw [storeFrom_error hm] at h; cases h; exact absurd rfl hne
  · rw [storeFrom_ok hm] at h
    cases h
    by_contra houtside
    refine hne (get_storeBytes_of_ne s _ n _ _ fun k hk hak => houtside ?_)
    obtain rfl := BitVec.eq_of_toNat_eq hak
    exact ⟨k, hk, rfl, hw k hk⟩

/-- The bytes that ECALL may change: writable, and written by an added service. -/
theorem changed_by_ecall {a : Word} (h : exec .ecall s = .next t)
    (hne : Memory.get t.mem a.toNat ≠ Memory.get s.mem a.toNat) :
    ∃ d stores events, lookupService s.plat.syscalls (regRead s 10#5) = some (.added d) ∧
      resultOf s d = .goesOn stores events ∧ (∃ c ∈ stores, a = c.1) ∧ isWritable s.plat a = true := by
  cases effect_of_exec h with
  | served d stores events _ hl he hw =>
    by_contra houtside
    refine hne (get_storeCells_of_ne stores s _ fun c hc hac => houtside ?_)
    obtain rfl := BitVec.eq_of_toNat_eq hac
    exact ⟨d, stores, events, hl, he, ⟨c, hc, rfl⟩, hw c hc⟩
  | result _ _ hd | linked _ _ hd => cases hd
  | stored _ _ _ hi => exact absurd rfl hi
  | raised | jumped | advanced | printed | ended => exact absurd rfl hne

end

/-- Settles O50: sorted by what the instruction shares with others. -/
theorem onlyStoresAndAddedServicesChangeMemory : Obligations.OnlyStoresAndAddedServicesChangeMemory := by
  intro s t a h hne
  obtain ⟨-, ⟨e, -, rfl⟩ | ⟨i, hi, hexec⟩⟩ := step_cases h
  · exact absurd rfl hne
  have hkept : t.mem ≠ s.mem := fun hm => hne (by rw [hm])
  cases i with
  | sw rs1 rs2 imm =>
    obtain ⟨k, hk, ha, hw⟩ := changed_by_storeFrom hexec hne
    exact ⟨hw, .inl ⟨rs1, rs2, imm, k, ha, .inl ⟨hi, hk⟩⟩⟩
  | sh rs1 rs2 imm =>
    obtain ⟨k, hk, ha, hw⟩ := changed_by_storeFrom hexec hne
    exact ⟨hw, .inl ⟨rs1, rs2, imm, k, ha, .inr (.inl ⟨hi, hk⟩)⟩⟩
  | sb rs1 rs2 imm =>
    obtain ⟨k, hk, ha, hw⟩ := changed_by_storeFrom hexec hne
    exact ⟨hw, .inl ⟨rs1, rs2, imm, k, ha, .inr (.inr ⟨hi, hk⟩)⟩⟩
  | ecall =>
    obtain ⟨d, stores, events, hl, he, hc, hw⟩ := changed_by_ecall hexec hne
    exact ⟨hw, .inr ⟨hi, d, stores, events, hl, he, hc⟩⟩
  | add | sub | and | or | xor | sll | srl | sra | slt | sltu | lui | auipc =>
    cases hexec; exact absurd (writeResult_mem s _ _) hkept
  | addi | andi | ori | xori | slti | sltiu | slli | srli | srai =>
    cases hexec; exact absurd (writeResult_mem s _ _) hkept
  | lw | lh | lb | lhu | lbu => exact absurd (mem_of_loadInto hexec) hkept
  | beq | bne | blt | bge | bltu | bgeu => exact absurd (mem_of_branchIf hexec) hkept
  | jal | jalr => exact absurd (mem_of_linkAndJump hexec) hkept
  | ebreak => cases hexec; exact absurd rfl hkept

end Sys2Proof.Machine
end

section
/-! PROOF. The canonical form of memory and the start of a run (10_state.md R32, R35, 70_reset_and_hazards.md R240 to
R242). A canonical list begins with its lowest address that does not read as the unlisted byte, so the bytes fix the
list. -/

namespace Sys2Proof.Machine

/-! ### The bytes fix the canonical list -/

theorem Memory.wfFrom_cons {lo k : Nat} {v : Byte} {rest : Memory} :
    Memory.wfFrom lo ((k, v) :: rest) = true ↔
      lo ≤ k ∧ k < addressSpace ∧ v ≠ Config.unlistedByte ∧ Memory.wfFrom (k + 1) rest = true := by
  simp only [Memory.wfFrom, Bool.and_eq_true, decide_eq_true_eq, and_assoc]

theorem Memory.get_cons_self (k : Nat) (v : Byte) (rest : Memory) : Memory.get ((k, v) :: rest) k = v :=
  if_pos rfl

theorem Memory.get_cons_ne {k a : Nat} (v : Byte) (rest : Memory) (h : k ≠ a) :
    Memory.get ((k, v) :: rest) a = Memory.get rest a :=
  if_neg h

/-- Nothing is listed below the start of a canonical list. -/
theorem Memory.get_of_lt_wfFrom {lo a : Nat} {m : Memory} (hm : Memory.wfFrom lo m = true) (ha : a < lo) :
    Memory.get m a = Config.unlistedByte := by
  induction m generalizing lo with
  | nil => rfl
  | cons c rest ih =>
    obtain ⟨k, v⟩ := c
    obtain ⟨hlo, -, -, hrest⟩ := Memory.wfFrom_cons.1 hm
    rw [Memory.get_cons_ne v rest (by omega)]
    exact ih hrest (by omega)

/-- A listed byte reads as something else than an unlisted one, so its address is not below a list that reads alike. -/
theorem Memory.le_of_reads_alike {lo k : Nat} {v : Byte} {rest m : Memory} (hv : v ≠ Config.unlistedByte)
    (hm : Memory.wfFrom lo m = true) (hget : Memory.get ((k, v) :: rest) k = Memory.get m k) : lo ≤ k := by
  by_contra hlt
  rw [Memory.get_cons_self, Memory.get_of_lt_wfFrom hm (by omega)] at hget
  exact hv hget

theorem Memory.eq_of_reads_alike {lo lo' : Nat} {m m' : Memory} (hm : Memory.wfFrom lo m = true)
    (hm' : Memory.wfFrom lo' m' = true) (hget : ∀ a, a < addressSpace → Memory.get m a = Memory.get m' a) :
    m = m' := by
  induction m generalizing lo lo' m' with
  | nil =>
    cases m' with
    | nil => rfl
    | cons c rest' =>
      obtain ⟨k, v⟩ := c
      obtain ⟨-, hk, hv, -⟩ := Memory.wfFrom_cons.1 hm'
      exact absurd ((hget k hk).trans (Memory.get_cons_self k v rest')).symm hv
  | cons c rest ih =>
    obtain ⟨k, v⟩ := c
    obtain ⟨-, hk, hv, hrest⟩ := Memory.wfFrom_cons.1 hm
    cases m' with
    | nil => exact absurd ((Memory.get_cons_self k v rest).symm.trans (hget k hk)) hv
    | cons c' rest' =>
      obtain ⟨k', v'⟩ := c'
      obtain ⟨-, hk', hv', hrest'⟩ := Memory.wfFrom_cons.1 hm'
      have hle := Memory.le_of_reads_alike hv (Memory.wfFrom_cons.2 ⟨le_rfl, hk', hv', hrest'⟩) (hget k hk)
      have hle' := Memory.le_of_reads_alike hv' (Memory.wfFrom_cons.2 ⟨le_rfl, hk, hv, hrest⟩) (hget k' hk').symm
      obtain rfl : k = k' := by omega
      have hbyte : v = v' := by
        have h := hget k hk
        rwa [Memory.get_cons_self, Memory.get_cons_self] at h
      have htail : ∀ a, a < addressSpace → Memory.get rest a = Memory.get rest' a := fun a ha => by
        by_cases hak : k = a
        · rw [Memory.get_of_lt_wfFrom hrest (by omega), Memory.get_of_lt_wfFrom hrest' (by omega)]
        · have h := hget a ha
          rwa [Memory.get_cons_ne v rest hak, Memory.get_cons_ne v' rest' hak] at h
      rw [hbyte, ih hrest hrest' htail]

/-- Settles O60, by induction on the list. -/
theorem canonicalMemoriesWithEqualBytesAreEqual : Obligations.CanonicalMemoriesWithEqualBytesAreEqual :=
  fun _ _ => Memory.eq_of_reads_alike

/-! ### The start of a run -/

theorem wfState_start {l : Launch} (ha : l.entryPc.toNat % 4 = 0) : WfState (start l) = true :=
  wfState_iff.2 ⟨Memory.wf_initial _ _ _, fun _ hc => Memory.mapped_of_mem_load _ _ hc, wordAligned_eq_true ha⟩

/-- Settles O49: the fields by definition, memory by what the loader makes of the image. -/
theorem startOfARun : Obligations.StartOfARun := by
  intro l
  refine ⟨rfl, rfl, rfl, rfl, fun r hr => if_neg hr, fun a pre post b hm himage hfirst => ?listed,
    fun a hm hnone => Memory.get_initial_of_not_listed l.plat l.image l.unloaded a hm hnone, wfState_start,
    fun ha => step_of_fetch_error rfl (fetchInstr_misaligned (wordAligned_eq_false ha))⟩
  case listed =>
    have h := Memory.get_initial_of_listed l.plat l.unloaded pre post a b hm hfirst
    rwa [← himage] at h

/-- When nothing is loaded and every byte has the value of an unlisted one, nothing is listed. -/
theorem Memory.initial_unlisted (p : Platform) : Memory.initial p [] (fun _ => Config.unlistedByte) = [] := by
  rw [Memory.initial, List.nil_append]
  refine Memory.load_unlisted p _ fun c hc => ?_
  rw [List.mem_map] at hc
  obtain ⟨a, -, rfl⟩ := hc
  rfl

/-- The reset state is the start of a launch with its registers, `pc` and parameters that loads nothing. -/
theorem reset_eq_start {l : Launch} (hregs : l.initRegs = State.reset.regs) (hpc : l.entryPc = State.reset.pc)
    (hplat : l.plat = State.reset.plat) (hmem : Memory.initial l.plat l.image l.unloaded = []) :
    State.reset = start l := by
  rw [start, hmem, hregs, hpc, hplat]
  rfl

/-- Settles O48: the reset state's own fields, and the default launch by `reset_eq_start`. -/
theorem resetMeetsInv : Obligations.ResetMeetsInv :=
  ⟨by decide, rfl, rfl, reset_eq_start rfl rfl rfl (Memory.initial_unlisted Config.defaultPlatform)⟩

end Sys2Proof.Machine
end

section
/-! SUPPORT. What an instruction does, apart from the state it does it to: a change, chosen from the little that the
instruction reads and then applied. An `Effect` relates two given states; a `Change` is apart from both. Two states
that agree on what is read get the same change, whatever else they hold; `exec_uniform` says so once, and the
statements on what no step depends on follow from it. -/

namespace Sys2Proof.Machine

/-! ### Changes -/

/-- What one instruction does to a state, with the values it has computed. -/
inductive Change where
  /-- takes an exception -/
  | raises (e : Exc)
  /-- writes a result to rd -/
  | writes (rd : RegNum) (v : Word)
  /-- links through rd and goes to t -/
  | links (rd : RegNum) (t : Word)
  /-- goes to t -/
  | goes (t : Word)
  /-- stores bytes from a up -/
  | stores (a : Word) (bs : List Byte)
  /-- prints one event -/
  | prints (e : Event)
  /-- completes an added service -/
  | serves (cells : List (Word × Byte)) (events : List Event)
  /-- ends the run -/
  | ends (r : HaltReason)

/-- The state after a change. -/
def Change.apply (c : Change) (s : State) : State :=
  match c with
  | .raises e => raise s e
  | .writes rd v => writeResult s rd v
  | .links rd t => setPc (regWrite s rd (s.pc + 4#32)) t
  | .goes t => setPc s t
  | .stores a bs => advance (storeBytes s a bs)
  | .prints e => advance (emit s e)
  | .serves cells events => completeService s cells events
  | .ends r => halt s r

/-- The events that a change appends to the output. -/
def Change.events (c : Change) : List Event :=
  match c with
  | .prints e => [e]
  | .serves _ events => events
  | .raises _ | .writes _ _ | .links _ _ | .goes _ | .stores _ _ | .ends _ => []

/-- The change is the exception of a misaligned data access. -/
def Change.IsMisaligned (c : Change) : Prop := ∃ k a, c = .raises (.addressMisaligned k a)

/-! ### What is read -/

/-- s' holds what the memory operations read in s, but for the alignment policy. -/
structure SameMemory (s s' : State) : Prop where
  pc : s'.pc = s.pc
  mem : s'.mem = s.mem
  calls : s'.calls = s.calls
  regions : s'.plat.regions = s.plat.regions
  syscalls : s'.plat.syscalls = s.plat.syscalls

/-- The alignment policy of s' is that of s, or s' is under bytewise and the change in s is no misaligned access. -/
def PolicyAgrees (c : Change) (s s' : State) : Prop :=
  s'.plat.misaligned = s.plat.misaligned ∨ (s'.plat.misaligned = .bytewise ∧ ¬ c.IsMisaligned)

/-- The meaning f does one and the same change to s and to every state that agrees with s on the given registers and on
what memory operations read. -/
def Uniform (regs : List RegNum) (s : State) (f : State → Host.Outcome State Fault Refusal) : Prop :=
  ∃ c : Change, f s = .next (c.apply s) ∧
    ∀ s', SameMemory s s' → (∀ r ∈ regs, regRead s' r = regRead s r) → PolicyAgrees c s s' → f s' = .next (c.apply s')

section
variable {s s' : State}

theorem SameMemory.isMapped_eq (h : SameMemory s s') : isMapped s'.plat = isMapped s.plat := by
  funext a
  simp only [isMapped, h.regions]

theorem SameMemory.isWritable_eq (h : SameMemory s s') : isWritable s'.plat = isWritable s.plat := by
  funext a
  simp only [isWritable, h.regions]

/-- An access meets the same alignment check where the policy agrees. -/
theorem PolicyAgrees.misalignedFaults_eq {c : Change} (h : PolicyAgrees c s s') {a : Word} {n : Nat}
    (hc : misalignedFaults s.plat a n = true → c.IsMisaligned) :
    misalignedFaults s'.plat a n = misalignedFaults s.plat a n := by
  rcases h with h | ⟨h, hnot⟩
  · simp only [misalignedFaults, h]
  · rw [Bool.eq_false_iff.2 fun ha => hnot (hc ha)]
    simp [misalignedFaults, h]

theorem memRead_of_misalignedFaults {a : Word} {n : Nat} (h : misalignedFaults s.plat a n = true) :
    memRead s a n = .error (.addressMisaligned .load a) := if_pos h

theorem memWrite_of_misalignedFaults {a : Word} {n : Nat} (v : Word) (h : misalignedFaults s.plat a n = true) :
    memWrite s a n v = .error (.addressMisaligned .store a) := if_pos h

/-- A read whose alignment check is the same answers the same. -/
theorem SameMemory.memRead_eq (h : SameMemory s s') {a : Word} {n : Nat}
    (ha : misalignedFaults s'.plat a n = misalignedFaults s.plat a n) : memRead s' a n = memRead s a n := by
  simp only [memRead, ha, firstUnmapped, h.isMapped_eq, h.mem]

/-- A write whose alignment check is the same raises the same or stores the same bytes. -/
theorem SameMemory.memWrite_eq (h : SameMemory s s') {a : Word} {n : Nat} (v : Word)
    (ha : misalignedFaults s'.plat a n = misalignedFaults s.plat a n) :
    memWrite s' a n v = (memWrite s a n v).map (fun _ => storeBytes s' a (bytesLE n v)) := by
  simp only [memWrite, ha, firstUnwritable, h.isWritable_eq]
  split
  · rfl
  · split <;> rfl

theorem eq_storeBytes_of_memWrite {t : State} {a v : Word} {n : Nat} (h : memWrite s a n v = .ok t) :
    t = storeBytes s a (bytesLE n v) := by
  rcases memWrite_cases s a n v with ⟨hw, -⟩ | ⟨i, -, hw⟩ | ⟨-, -, hw⟩ <;> rw [hw] at h <;> cases h
  rfl

/-- One byte is aligned under both policies, so the string read is the same. -/
theorem SameMemory.readString_eq (h : SameMemory s s') (p : Word) (left : Nat) (a : Word) :
    readString s' p left a = readString s p left a := by
  induction left generalizing a with
  | zero => rfl
  | succ left ih =>
    have hread : memRead s' a 1 = memRead s a 1 := h.memRead_eq (by simp [misalignedFaults])
    simp only [readString, hread, ih]

end

/-! ### The shared meanings -/

theorem uniform_writeResult {regs : List RegNum} {s : State} {rd : RegNum} {v : State → Word}
    (hv : ∀ s', SameMemory s s' → (∀ r ∈ regs, regRead s' r = regRead s r) → v s' = v s) :
    Uniform regs s (fun s => .next (writeResult s rd (v s))) :=
  ⟨.writes rd (v s), rfl, fun s' hm hr _ => by simp only [hv s' hm hr, Change.apply]⟩

theorem uniform_branchIf {regs : List RegNum} {s : State} {imm : BitVec 13} {taken : State → Bool}
    (ht : ∀ s', (∀ r ∈ regs, regRead s' r = regRead s r) → taken s' = taken s) :
    Uniform regs s (fun s => branchIf s (taken s) imm) := by
  rcases branchIf_cases s (taken s) imm with ⟨hc, h⟩ | ⟨hc, ha, h⟩ | ⟨hc, ha, h⟩
  · exact ⟨.goes (s.pc + 4#32), h, fun s' hm hr _ => by simp [branchIf, ht s' hr, hc, Change.apply, advance, hm.pc]⟩
  · exact ⟨.goes (relativeTarget s.pc imm), h,
      fun s' hm hr _ => by simp [branchIf, ht s' hr, hc, Change.apply, hm.pc, ha]⟩
  · exact ⟨.raises _, h, fun s' hm hr _ => by simp [branchIf, ht s' hr, hc, Change.apply, hm.pc, ha]⟩

theorem uniform_linkAndJump {regs : List RegNum} {s : State} {rd : RegNum} {p : State → Word}
    (hp : ∀ s', SameMemory s s' → (∀ r ∈ regs, regRead s' r = regRead s r) → p s' = p s) :
    Uniform regs s (fun s => linkAndJump s rd (p s)) := by
  rcases linkAndJump_cases s rd (p s) with ⟨ha, h⟩ | ⟨ha, h⟩
  · exact ⟨.links rd (p s), h, fun s' hm hr _ => by simp [linkAndJump, hp s' hm hr, ha, Change.apply]⟩
  · exact ⟨.raises _, h, fun s' hm hr _ => by simp [linkAndJump, hp s' hm hr, ha, Change.apply]⟩

theorem uniform_loadInto (s : State) (rd rs1 : RegNum) (imm : BitVec 12) (n : Nat) (ext : Nat → Word) :
    Uniform [rs1] s (fun s => loadInto s rd rs1 imm n ext) := by
  have same : ∀ (c : Change) (s' : State), SameMemory s s' → (∀ r ∈ [rs1], regRead s' r = regRead s r) →
      PolicyAgrees c s s' →
      (misalignedFaults s.plat (effectiveAddress (regRead s rs1) imm) n = true → c.IsMisaligned) →
      memRead s' (effectiveAddress (regRead s' rs1) imm) n = memRead s (effectiveAddress (regRead s rs1) imm) n :=
    fun c s' hm hr hp hc => by
      rw [hr rs1 (by simp)]
      exact hm.memRead_eq (hp.misalignedFaults_eq hc)
  cases h : memRead s (effectiveAddress (regRead s rs1) imm) n with
  | error e =>
    refine ⟨.raises e, loadInto_error h, fun s' hm hr hp => loadInto_error ((same _ s' hm hr hp fun ha => ?_).trans h)⟩
    rw [memRead_of_misalignedFaults ha] at h
    cases h
    exact ⟨_, _, rfl⟩
  | ok v =>
    refine ⟨.writes rd _, loadInto_ok h, fun s' hm hr hp => loadInto_ok ((same _ s' hm hr hp fun ha => ?_).trans h)⟩
    rw [memRead_of_misalignedFaults ha] at h
    cases h

theorem uniform_storeFrom (s : State) (rs1 rs2 : RegNum) (imm : BitVec 12) (n : Nat) :
    Uniform [rs1, rs2] s (fun s => storeFrom s rs1 rs2 imm n) := by
  have same : ∀ (c : Change) (s' : State), SameMemory s s' → (∀ r ∈ [rs1, rs2], regRead s' r = regRead s r) →
      PolicyAgrees c s s' →
      (misalignedFaults s.plat (effectiveAddress (regRead s rs1) imm) n = true → c.IsMisaligned) →
      memWrite s' (effectiveAddress (regRead s' rs1) imm) n (regRead s' rs2) =
        (memWrite s (effectiveAddress (regRead s rs1) imm) n (regRead s rs2)).map
          (fun _ => storeBytes s' (effectiveAddress (regRead s rs1) imm) (bytesLE n (regRead s rs2))) :=
    fun c s' hm hr hp hc => by
      rw [hr rs1 (by simp), hr rs2 (by simp)]
      exact hm.memWrite_eq _ (hp.misalignedFaults_eq hc)
  cases h : memWrite s (effectiveAddress (regRead s rs1) imm) n (regRead s rs2) with
  | error e =>
    refine ⟨.raises e, storeFrom_error h, fun s' hm hr hp => storeFrom_error ?_⟩
    rw [same _ s' hm hr hp, h]
    · rfl
    · intro ha
      rw [memWrite_of_misalignedFaults _ ha] at h
      cases h
      exact ⟨_, _, rfl⟩
  | ok t =>
    obtain rfl := eq_storeBytes_of_memWrite h
    refine ⟨.stores _ _, storeFrom_ok h, fun s' hm hr hp => storeFrom_ok ?_⟩
    rw [same _ s' hm hr hp, h]
    · rfl
    · intro ha
      rw [memWrite_of_misalignedFaults _ ha] at h
      cases h

/-! ### ECALL -/

/-- What an added service does follows what it reads. -/
theorem SameMemory.resultOf_eq {s s' : State} (h : SameMemory s s') {d : AddedService}
    (hr : ∀ r ∈ d.readsRegs, regRead s' r = regRead s r) : resultOf s' d = resultOf s d := by
  have hregs : d.readsRegs.map (regRead s') = d.readsRegs.map (regRead s) := List.map_congr_left hr
  simp only [resultOf, memoryFor, hregs, h.calls, h.mem, h.isMapped_eq]

theorem performResult_uniform (s : State) (r : ServiceResult) : ∃ c : Change, performResult s r = c.apply s ∧
    ∀ s', SameMemory s s' → performResult s' r = c.apply s' := by
  cases r with
  | loadFault a => exact ⟨.raises (.accessFault .load a), rfl, fun _ _ => rfl⟩
  | exits => exact ⟨.ends .exit, rfl, fun _ _ => rfl⟩
  | exitsWithCode code => exact ⟨.ends (.exitCode code), rfl, fun _ _ => rfl⟩
  | goesOn cells events =>
    cases hf : cells.find? (fun c => !isWritable s.plat c.1) with
    | some c =>
      exact ⟨.raises (.accessFault .store c.1), by simp [performResult, hf, Change.apply],
        fun s' h => by simp [performResult, h.isWritable_eq, hf, Change.apply]⟩
    | none =>
      exact ⟨.serves cells events, by simp [performResult, hf, Change.apply],
        fun s' h => by simp [performResult, h.isWritable_eq, hf, Change.apply]⟩

theorem serve_uniform (s : State) (v : Service) : ∃ c : Change, serve s v = c.apply s ∧
    ∀ s', SameMemory s s' → regRead s' regA1 = regRead s regA1 →
      (∀ r ∈ serviceRegs v, regRead s' r = regRead s r) → serve s' v = c.apply s' := by
  cases v with
  | printInteger =>
    exact ⟨.prints (.printInt (regRead s regA1)), rfl, fun s' _ ha1 _ => by rw [← ha1]; rfl⟩
  | printString =>
    cases hs : readString s (regRead s regA1) addressSpace (regRead s regA1) with
    | error e =>
      exact ⟨.raises e, by simp [serve, servicePrintString, hs, Change.apply],
        fun s' hm ha1 _ => by simp [serve, servicePrintString, ha1, hm.readString_eq, hs, Change.apply]⟩
    | ok bytes =>
      exact ⟨.prints (.printString bytes), by simp [serve, servicePrintString, hs, Change.apply],
        fun s' hm ha1 _ => by simp [serve, servicePrintString, ha1, hm.readString_eq, hs, Change.apply]⟩
  | exit => exact ⟨.ends .exit, rfl, fun _ _ _ _ => rfl⟩
  | exitWithCode =>
    exact ⟨.ends (.exitCode (regRead s regA1)), rfl, fun s' _ ha1 _ => by rw [← ha1]; rfl⟩
  | added d =>
    obtain ⟨c, hc, huniform⟩ := performResult_uniform s (resultOf s d)
    exact ⟨c, hc, fun s' hm _ hr => by rw [serve, serviceAdded, hm.resultOf_eq hr, huniform s' hm]⟩

theorem uniform_ecall (s : State) : Uniform (sourcesIn s .ecall) s (exec .ecall) := by
  have mem_a0 : regA0 ∈ sourcesIn s .ecall := by simp [sourcesIn, sources]
  have mem_a1 : regA1 ∈ sourcesIn s .ecall := by simp [sourcesIn, sources]
  have lookup_eq : ∀ s', SameMemory s s' → regRead s' regA0 = regRead s regA0 →
      lookupService s'.plat.syscalls (regRead s' regA0) = lookupService s.plat.syscalls (regRead s regA0) :=
    fun s' hm ha0 => by rw [ha0, hm.syscalls]
  cases hl : lookupService s.plat.syscalls (regRead s regA0) with
  | none =>
    refine ⟨.raises (.unknownEnvironmentCall (regRead s regA0)), exec_ecall_of_none hl, fun s' hm hr _ => ?_⟩
    rw [← hr regA0 mem_a0]
    exact exec_ecall_of_none ((lookup_eq s' hm (hr _ mem_a0)).trans hl)
  | some v =>
    obtain ⟨c, hc, huniform⟩ := serve_uniform s v
    refine ⟨c, (exec_ecall_of_some hl).trans (by rw [hc]), fun s' hm hr _ => ?_⟩
    have hregs : ∀ r ∈ serviceRegs v, regRead s' r = regRead s r := fun r hv =>
      hr r (by simp [sourcesIn, hl, hv])
    rw [exec_ecall_of_some ((lookup_eq s' hm (hr _ mem_a0)).trans hl), huniform s' hm (hr _ mem_a1) hregs]

/-! ### Every instruction and every step -/

theorem uniform_of_ne_ecall {i : Instr} (s : State) (hi : i ≠ .ecall) : Uniform (sources i) s (exec i) := by
  cases i with
  | add | sub | and | or | xor | sll | srl | sra | slt | sltu =>
    refine uniform_writeResult fun s' _ hr => ?_
    simp only [hr _ (List.mem_cons_self ..), hr _ (List.mem_cons_of_mem _ (List.mem_cons_self ..))]
  | addi | andi | ori | xori | slti | sltiu | slli | srli | srai =>
    refine uniform_writeResult fun s' _ hr => ?_
    simp only [hr _ (List.mem_cons_self ..)]
  | lui => exact uniform_writeResult fun _ _ _ => rfl
  | auipc => exact uniform_writeResult fun s' hm _ => by simp only [hm.pc]
  | lw | lh | lb | lhu | lbu => exact uniform_loadInto s _ _ _ _ _
  | sw | sh | sb => exact uniform_storeFrom s _ _ _ _
  | beq | bne | blt | bge | bltu | bgeu =>
    refine uniform_branchIf fun s' hr => ?_
    simp only [hr _ (List.mem_cons_self ..), hr _ (List.mem_cons_of_mem _ (List.mem_cons_self ..))]
  | jal => exact uniform_linkAndJump fun s' hm _ => by simp only [hm.pc]
  | jalr => exact uniform_linkAndJump fun s' _ hr => by simp only [hr _ (List.mem_cons_self ..)]
  | ecall => exact absurd rfl hi
  | ebreak => exact ⟨.ends .break_, rfl, fun _ _ _ _ => rfl⟩

/-- Every instruction does one change, which nothing but its sources, the memory it reads and the alignment of its
access decides. -/
theorem exec_uniform (i : Instr) (s : State) : Uniform (sourcesIn s i) s (exec i) := by
  by_cases hi : i = .ecall
  · rw [hi]
    exact uniform_ecall s
  · have hsources : sourcesIn s i = sources i := by rw [sourcesIn, if_neg hi, List.append_nil]
    rw [hsources]
    exact uniform_of_ne_ecall s hi

theorem SameMemory.fetchInstr_eq {s s' : State} (h : SameMemory s s') : fetchInstr s' = fetchInstr s := by
  simp only [fetchInstr, fetchBytes, firstUnmapped, h.isMapped_eq, h.pc, h.mem]

/-- Every step does one change, whatever else the state holds. -/
theorem step_uniform {s t : State} (h : step s = .next t) : ∃ c : Change, t = c.apply s ∧
    ∀ s', SameMemory s s' → s'.status = s.status → s'.regs = s.regs → PolicyAgrees c s s' →
      step s' = .next (c.apply s') := by
  obtain ⟨hs, ⟨e, he, rfl⟩ | ⟨i, hi, hexec⟩⟩ := step_cases h
  · exact ⟨.raises e, rfl, fun s' hm hs' _ _ => step_of_fetch_error (hs'.trans hs) (hm.fetchInstr_eq.trans he)⟩
  · obtain ⟨c, hc, huniform⟩ := exec_uniform i s
    rw [hc] at hexec
    cases hexec
    refine ⟨c, rfl, fun s' hm hs' hregs hp => ?_⟩
    rw [step_of_fetch_ok (hs'.trans hs) (hm.fetchInstr_eq.trans hi)]
    exact huniform s' hm (fun r _ => regRead_congr hregs r) hp

end Sys2Proof.Machine
end

section
/-! PROOF. What no step depends on: the output so far (D14), the alignment policy where no access is misaligned (D8),
and the registers that are no sources (10_state.md R24). Each is `exec_uniform` or `step_uniform` with what the change
does to the part in question. -/

namespace Sys2Proof.Machine

/-! ### Output -/

theorem Change.out_apply (c : Change) (s : State) : (c.apply s).out = s.out ++ c.events := by
  cases c with
  | writes | links => simp [Change.apply, Change.events]
  | raises | goes | stores | ends => exact (List.append_nil _).symm
  | prints | serves => rfl

theorem regWrite_withOut (s : State) (r : RegNum) (v : Word) (o : List Event) :
    regWrite { s with out := o } r v = { regWrite s r v with out := o } := by
  unfold regWrite
  split <;> rfl

theorem Change.apply_withOut (c : Change) (s : State) (o : List Event) :
    c.apply { s with out := o } = { c.apply s with out := o ++ c.events } := by
  cases c with
  | writes | links => simp [Change.apply, Change.events, writeResult, advance, setPc, regWrite_withOut]
  | raises | goes | stores | ends => rw [Change.events, List.append_nil]; rfl
  | prints | serves => rfl

/-- Settles O52: the change is the same, and its events are appended to the output there is. -/
theorem outputIsNeverRead : Obligations.OutputIsNeverRead := by
  intro s t o h
  obtain ⟨c, rfl, huniform⟩ := step_uniform h
  refine ⟨c.events, c.out_apply s, ?_⟩
  rw [huniform { s with out := o } ⟨rfl, rfl, rfl, rfl, rfl⟩ rfl rfl (.inl rfl), c.apply_withOut]

/-! ### The alignment policy -/

theorem regWrite_withPlat (s : State) (r : RegNum) (v : Word) (p : Platform) :
    regWrite { s with plat := p } r v = { regWrite s r v with plat := p } := by
  unfold regWrite
  split <;> rfl

theorem Change.plat_apply (c : Change) (s : State) : (c.apply s).plat = s.plat := by
  cases c with
  | writes | links => simp [Change.apply]
  | raises | goes | stores | ends | prints | serves => rfl

theorem Change.apply_withPlat (c : Change) (s : State) (p : Platform) :
    c.apply { s with plat := p } = { c.apply s with plat := p } := by
  cases c with
  | writes | links => simp [Change.apply, writeResult, advance, setPc, regWrite_withPlat]
  | raises | goes | stores | ends | prints | serves => rfl

/-- Settles O53: a change that is no misaligned access is the same under bytewise. -/
theorem bytewiseAgreesWithFault : Obligations.BytewiseAgreesWithFault := by
  intro s t _ h hstatus
  obtain ⟨c, rfl, huniform⟩ := step_uniform h
  have haligned : ¬ c.IsMisaligned := by
    rintro ⟨k, a, rfl⟩
    exact hstatus k a rfl
  rw [huniform { s with plat := { s.plat with misaligned := .bytewise } } ⟨rfl, rfl, rfl, rfl, rfl⟩ rfl rfl
    (.inr ⟨rfl, haligned⟩), c.apply_withPlat, c.plat_apply]

/-! ### Registers that are no sources -/

/-- After a change a register holds a value of the change's own, or what it held before. -/
theorem Change.regRead_apply (c : Change) (s s' : State) (hpc : s'.pc = s.pc) (d : RegNum) :
    regRead (c.apply s') d = regRead (c.apply s) d ∨
      (regRead (c.apply s) d = regRead s d ∧ regRead (c.apply s') d = regRead s' d) := by
  cases c with
  | writes rd v =>
    simp only [Change.apply, regRead_writeResult]
    split
    · exact .inl rfl
    · exact .inr ⟨rfl, rfl⟩
  | links rd p =>
    simp only [Change.apply, regRead_setPc, regRead_regWrite, hpc]
    split
    · exact .inl rfl
    · exact .inr ⟨rfl, rfl⟩
  | raises | goes | stores | ends | prints | serves => exact .inr ⟨rfl, rfl⟩

/-- The rest of the state after a change follows the rest before. -/
theorem Change.apply_congr (c : Change) {s s' : State} (hpc : s'.pc = s.pc) (hmem : s'.mem = s.mem)
    (hstatus : s'.status = s.status) (hout : s'.out = s.out) (hcalls : s'.calls = s.calls) :
    (c.apply s').pc = (c.apply s).pc ∧ (c.apply s').mem = (c.apply s).mem ∧
      (c.apply s').status = (c.apply s).status ∧ (c.apply s').out = (c.apply s).out ∧
      (c.apply s').calls = (c.apply s).calls := by
  cases c <;> simp [Change.apply, hpc, hmem, hstatus, hout, hcalls, storeCells]

/-- Settles O55: the sources decide the change, and the change decides the result. -/
theorem onlySourceRegistersAreRead : Obligations.OnlySourceRegistersAreRead := by
  intro i s s' t t' hpc hmem hstatus hout hplat hcalls hregs h h'
  obtain ⟨c, hc, huniform⟩ := exec_uniform i s
  have hsame : SameMemory s s' := ⟨hpc, hmem, hcalls, by rw [hplat], by rw [hplat]⟩
  have hc' := huniform s' hsame hregs (.inl (by rw [hplat]))
  rw [hc] at h
  rw [hc'] at h'
  cases h
  cases h'
  obtain ⟨hpc', hmem', hstatus', hout', hcalls'⟩ := c.apply_congr hpc hmem hstatus hout hcalls
  exact ⟨hpc', hmem', hstatus', hout', hcalls', fun d _ => c.regRead_apply s s' hpc d⟩

end Sys2Proof.Machine
end
